-- ==== Sys2Proof/Word.lean ====
section
/-! DEFINITION. The word types: a byte, a 32-bit word, and the pixel of 00_scope.md rule R6. -/

namespace Sys2Proof

/-- A byte, bit 7 the most significant (R5). A channel is one byte (R4 `CH_BITS`). -/
abbrev Byte := BitVec 8

/-- A 32-bit word: `W`, `H`, and one word of the pixel-cache RAM (R24, R51). -/
abbrev Word := BitVec 32

/-- A pixel: four unsigned 8-bit channels, equal exactly when all four are equal (R6). -/
structure Pixel where
  r : Byte
  g : Byte
  b : Byte
  a : Byte
  deriving DecidableEq, Repr

end Sys2Proof
end

