-- ==== Sys2Proof/Config.lean ====
section
/-! DEFINITION. The format constants of 00_scope.md rule R4, and the free values: constants without a body that
stand for the state the spec leaves unspecified (10_state.md rules R34 and R35; assumption log 6). -/

namespace Sys2Proof

/-- `PREV_SEED`: the previous pixel before the first chunk (R4, R21). -/
def Config.prevSeed : Pixel := ⟨0, 0, 0, 255⟩

/-- `CACHE_INIT`: the content of every slot at the start of a run (R4, R55). -/
def Config.cacheInit : Pixel := ⟨0, 0, 0, 0⟩

/-- `CACHE_SLOTS` (R4). -/
def Config.cacheSlots : Nat := 64

/-- `HDR_LEN` (R4). -/
def Config.hdrLen : Nat := 14

/-- `END_LEN` (R4). -/
def Config.endLen : Nat := 8

/-- `MAGIC`: the ASCII codes of 'q','o','i','f' (R4, R81).
PRESUMED by the spec itself: the four numbers are its general knowledge, entry G1 (assumption log 17). -/
def Config.magic : List Byte := [0x71, 0x6F, 0x69, 0x66]

/-- The end marker: seven 0x00 bytes, then one 0x01 byte (R82). -/
def Config.endMarker : List Byte := [0, 0, 0, 0, 0, 0, 0, 1]

/-- `CH_RGB` (R4). -/
def Config.chRgb : Byte := 3

/-- `CH_RGBA` (R4). -/
def Config.chRgba : Byte := 4

/-- `CS_SRGB` (R4). -/
def Config.csSrgb : Byte := 0

/-- `CS_LINEAR` (R4). -/
def Config.csLinear : Byte := 1

/-- `RUN_MAX`: the longest run one RUN chunk carries (R4). -/
def Config.runMax : Nat := 62

/-- `DIFF_BIAS` (R4, R90). -/
def Config.diffBias : Int := 2

/-- `LUMA_G_BIAS` (R4, R90). -/
def Config.lumaGBias : Int := 32

/-- `LUMA_RB_BIAS` (R4, R90). -/
def Config.lumaRbBias : Int := 8

/-- `RUN_BIAS`: the stored run value is the length minus 1 (R4, R90). -/
def Config.runBias : Nat := 1

/-- `TAG_RGB` (R4). -/
def Config.tagRgb : Byte := 0xFE

/-- `TAG_RGBA` (R4). -/
def Config.tagRgba : Byte := 0xFF

/-- A free byte: any value, at the index the state's `free` counter gives (assumption log 6). -/
opaque Config.freeByte : Nat → BitVec 8

/-- A free 32-bit word (assumption log 6). -/
opaque Config.freeWord : Nat → BitVec 32

/-- A free 64-bit count (assumption log 6). -/
opaque Config.freeCount : Nat → BitVec 64

/-- A free 6-bit run counter (assumption log 6). -/
opaque Config.freeRun : Nat → BitVec 6

/-- A free bit (assumption log 6). -/
opaque Config.freeBit : Nat → BitVec 1

/-- A free stream position (assumption log 6). -/
opaque Config.freeNat : Nat → Nat

end Sys2Proof
end

