-- ==== Sys2Proof/Syntax.lean ====
section
/-! DEFINITION. The records of the compressed stream (00_scope.md rule R9, 30_encoding.md rules R80 to R92), one
constructor per row of spec/opcode_table.json, with the vocabulary around them: the positions a record can stand at,
the six chunk kinds, and the fault causes of 60_exceptions.md rule R220. -/

namespace Sys2Proof

/-- One record of the compressed stream, its fields as they are stored (R90 gives the biases). -/
inductive Instr where
  /-- HEADER: width, height, channel byte, colour-space byte (R81). The two bytes are carried as they stand in the
  stream; only 3 or 4, and 0 or 1, are legal (WellFormed; assumption log 1). -/
  | header (w h : BitVec 32) (c s : BitVec 8)
  /-- RGB: tag FE, then red, green, blue (R88). -/
  | rgb (r g b : BitVec 8)
  /-- RGBA: tag FF, then red, green, blue, alpha (R89). -/
  | rgba (r g b a : BitVec 8)
  /-- INDEX: a 6-bit cache slot (R84). -/
  | index (idx : BitVec 6)
  /-- DIFF: three 2-bit channel differences biased by 2 (R85). -/
  | diff (fr fg fb : BitVec 2)
  /-- LUMA: the green difference biased by 32, and dr - dg and db - dg biased by 8 (R86). -/
  | luma (fg : BitVec 6) (frg fbg : BitVec 4)
  /-- RUN: the pixel-run length minus 1, legal 0 to 61 (R87). -/
  | run (frun : BitVec 6)
  /-- END: the end marker (R82). -/
  | endMarker
  deriving DecidableEq, Repr

/-- Where a record stands: HEADER and END are recognised by position, never by content (R80). -/
inductive Position where
  | header
  | chunk
  | trailer
  deriving DecidableEq, Repr

/-- The six chunk kinds a tag byte selects (R83). -/
inductive ChunkKind where
  | rgb
  | rgba
  | index
  | diff
  | luma
  | run
  deriving DecidableEq, Repr

/-- The fault causes of R220, by their names there. -/
inductive Cause where
  /-- Code 1: the magic is short or wrong. -/
  | eMagic
  /-- Code 2: the magic is good and IN ends within bytes 4 to 13. -/
  | eHdrTrunc
  /-- Code 3: byte 12 is neither 3 nor 4. -/
  | eChannels
  /-- Code 4: byte 13 is neither 0 nor 1. -/
  | eColorspace
  /-- Code 5: no tag byte left while pixels are owed, or an incomplete payload. -/
  | eChunkTrunc
  /-- Code 6: a RUN would pass the pixel target. -/
  | eRunOvershoot
  /-- Code 7: the end marker is short or wrong. -/
  | eEndMarker
  /-- Code 8: `cfg_channels` is neither 3 nor 4 at a START in ENC mode. -/
  | eCfgChannels
  deriving DecidableEq, Repr

end Sys2Proof
end

