-- ==== Sys2Proof/WellFormed.lean ====
section
/-! DEFINITION. Which records are well formed: the reserved values of 30_encoding.md rules R81, R87 and R92. Every
other field value of every record is meaningful (R92). -/

namespace Sys2Proof

/-- The channel byte is 3 or 4 (R81, R24). -/
def legalChannels (c : BitVec 8) : Bool := c == Config.chRgb || c == Config.chRgba

/-- The colour-space byte is 0 or 1 (R81, R24). -/
def legalColorspace (c : BitVec 8) : Bool := c == Config.csSrgb || c == Config.csLinear

/-- The run field is 0 to 61: 62 and 63 cannot be expressed as RUN (R87). -/
def legalRunField (f : BitVec 6) : Bool := decide (f.toNat < Config.runMax)

/-- A record the format has. -/
def Instr.wf : Instr → Bool
  | .header _ _ c s => legalChannels c && legalColorspace s
  | .rgb _ _ _ => true
  | .rgba _ _ _ _ => true
  | .index _ => true
  | .diff _ _ _ => true
  | .luma _ _ _ => true
  | .run f => legalRunField f
  | .endMarker => true

end Sys2Proof
end

