-- ==== Sys2Proof/Decode.lean ====
section
/-! DEFINITION. The decoder, total on any bytes and rejecting by the fault it raises, and the encoder, both from
30_encoding.md rules R80 to R92; the checks of the header stand in the order of 40_header_codec.md rule R111. -/

namespace Sys2Proof

/-! ### Byte order (20_memory.md rule R57) -/

/-- `be32`: the four bytes of a 32-bit value, most significant first (R8, R57). -/
def be32 (v : BitVec 32) : List Byte :=
  [v.extractLsb' 24 8, v.extractLsb' 16 8, v.extractLsb' 8 8, v.extractLsb' 0 8]

/-- The 32-bit value of four bytes in big-endian order (R57, R111). -/
def ofBe32 (b0 b1 b2 b3 : Byte) : BitVec 32 := b0 ++ b1 ++ b2 ++ b3

/-! ### Tag dispatch -/

/-- The class of a tag byte, most specific match first (R83, R131). -/
def classify (t : Byte) : ChunkKind :=
  if t = Config.tagRgb then .rgb
  else if t = Config.tagRgba then .rgba
  else if t &&& 0xC0 = 0x00 then .index
  else if t &&& 0xC0 = 0x40 then .diff
  else if t &&& 0xC0 = 0x80 then .luma
  else .run

/-- The length of a chunk, given by its tag alone (R91). -/
def chunkLength : ChunkKind → Nat
  | .rgb => 4
  | .rgba => 5
  | .index => 1
  | .diff => 1
  | .luma => 2
  | .run => 1

/-- The chunk of a kind, read from its tag byte and the bytes after it; none where the payload is incomplete
(R84 to R89, R132). -/
def payload (k : ChunkKind) (t : Byte) (bs : List Byte) : Option (Instr × List Byte) :=
  match k, bs with
  | .rgb, r :: g :: b :: rest => some (.rgb r g b, rest)
  | .rgba, r :: g :: b :: a :: rest => some (.rgba r g b a, rest)
  | .index, rest => some (.index (t.extractLsb' 0 6), rest)
  | .diff, rest => some (.diff (t.extractLsb' 4 2) (t.extractLsb' 2 2) (t.extractLsb' 0 2), rest)
  | .luma, b :: rest => some (.luma (t.extractLsb' 0 6) (b.extractLsb' 4 4) (b.extractLsb' 0 4), rest)
  | .run, rest => some (.run (t.extractLsb' 0 6), rest)
  | _, _ => none

/-- One chunk from the bytes at the stream position: a missing tag byte and an incomplete payload are both
`E_CHUNK_TRUNC` (R130, R132). -/
def decodeChunk : List Byte → Except Cause (Instr × List Byte)
  | [] => .error .eChunkTrunc
  | t :: bs =>
    match payload (classify t) t bs with
    | some r => .ok r
    | none => .error .eChunkTrunc

/-! ### Positional records -/

/-- What stands behind a good magic: width, height, channel byte, colour-space byte, each with its presence check, in
the order of R111. With all 14 bytes present the record is read whole and its two code bytes are judged when it is
executed; with only 13 bytes a bad channel byte is the first failing test (assumption log 1). -/
def decodeHeaderFields : List Byte → Except Cause (Instr × List Byte)
  | w0 :: w1 :: w2 :: w3 :: h0 :: h1 :: h2 :: h3 :: c :: s :: rest =>
    .ok (.header (ofBe32 w0 w1 w2 w3) (ofBe32 h0 h1 h2 h3) c s, rest)
  | [_, _, _, _, _, _, _, _, c] => if legalChannels c then .error .eHdrTrunc else .error .eChannels
  | _ => .error .eHdrTrunc

/-- HEADER: four magic bytes, short or wrong being one cause (R111). -/
def decodeHeader : List Byte → Except Cause (Instr × List Byte)
  | m0 :: m1 :: m2 :: m3 :: rest =>
    if [m0, m1, m2, m3] = Config.magic then decodeHeaderFields rest else .error .eMagic
  | _ => .error .eMagic

/-- END: exactly the eight bytes of the marker, short or wrong being one cause (R113). -/
def decodeEnd : List Byte → Except Cause (Instr × List Byte)
  | b0 :: b1 :: b2 :: b3 :: b4 :: b5 :: b6 :: b7 :: rest =>
    if [b0, b1, b2, b3, b4, b5, b6, b7] = Config.endMarker then .ok (.endMarker, rest) else .error .eEndMarker
  | _ => .error .eEndMarker

/-- The record at a position of the stream, with the bytes after it, or the fault its absence raises (R80). -/
def decodeAt : Position → List Byte → Except Cause (Instr × List Byte)
  | .header, bs => decodeHeader bs
  | .chunk, bs => decodeChunk bs
  | .trailer, bs => decodeEnd bs

/-! ### The encoder: the bit-packer's assembly of the bytes (R81, R82, R84 to R90) -/

/-- The bytes of a record. -/
def encode : Instr → List Byte
  | .header w h c s => Config.magic ++ be32 w ++ be32 h ++ [c, s]
  | .rgb r g b => [Config.tagRgb, r, g, b]
  | .rgba r g b a => [Config.tagRgba, r, g, b, a]
  | .index idx => [0b00#2 ++ idx]
  | .diff fr fg fb => [0b01#2 ++ fr ++ fg ++ fb]
  | .luma fg frg fbg => [0b10#2 ++ fg, frg ++ fbg]
  | .run f => [0b11#2 ++ f]
  | .endMarker => Config.endMarker

/-- The position a record stands at. -/
def positionOf : Instr → Position
  | .header _ _ _ _ => .header
  | .rgb _ _ _ => .chunk
  | .rgba _ _ _ _ => .chunk
  | .index _ => .chunk
  | .diff _ _ _ => .chunk
  | .luma _ _ _ => .chunk
  | .run _ => .chunk
  | .endMarker => .trailer

/-- The length of a record in bytes (R80). -/
def recordLength : Instr → Nat
  | .header _ _ _ _ => Config.hdrLen
  | .rgb _ _ _ => chunkLength .rgb
  | .rgba _ _ _ _ => chunkLength .rgba
  | .index _ => chunkLength .index
  | .diff _ _ _ => chunkLength .diff
  | .luma _ _ _ => chunkLength .luma
  | .run _ => chunkLength .run
  | .endMarker => Config.endLen

/-! ### Words as spec/opcode_table.json numbers them (assumption log 19) -/

/-- The low n bytes of a number, least significant first. -/
def leBytes : Nat → Nat → List Byte
  | 0, _ => []
  | n + 1, w => BitVec.ofNat 8 w :: leBytes n (w / 256)

/-- The low n bytes of a number, most significant first. -/
def beBytes (n w : Nat) : List Byte := (leBytes n w).reverse

/-- The magic as the table's HEADER row numbers it: one big-endian 32-bit word. -/
def tableMagic : Nat := 0x716F6966

/-- Which position the table's row of this length stands at: END is the one row of 64 bits, HEADER the one of 112, or
of 32 where the table gives its magic word alone; every other row is a chunk. -/
def tablePosition (nbits w : Nat) : Position :=
  if nbits = 64 then .trailer
  else if nbits = 112 then .header
  else if nbits = 32 ∧ w % 2 ^ 32 = tableMagic then .header
  else .chunk

/-- The instruction's bytes in stream order, 14 of them (the longest record), zero above nbits. A chunk is made of
bytes, the first in bits 7..0. HEADER is made of big-endian words (magic, width, height) and two bytes, END of one
big-endian 64-bit word; the same bytes numbered one by one are read too. -/
def tableBytes (nbits w : Nat) : List Byte :=
  let v := w % 2 ^ nbits
  match tablePosition nbits w with
  | .chunk => leBytes 14 v
  | .trailer => if v = 2 ^ 56 then leBytes 14 v else beBytes 8 v ++ leBytes 6 0
  | .header =>
    if v % 2 ^ 32 = tableMagic then
      beBytes 4 v ++ beBytes 4 (v / 2 ^ 32) ++ beBytes 4 (v / 2 ^ 64) ++ leBytes 2 (v / 2 ^ 96)
    else leBytes 14 v

/-- The instruction the decoder reads from a word of the opcode table. -/
def decodeTableWord (nbits w : Nat) : Option Instr :=
  match decodeAt (tablePosition nbits w) (tableBytes nbits w) with
  | .ok (i, _) => some i
  | .error _ => none

end Sys2Proof
end

