-- ==== Sys2Proof/Machine/State.lean ====
section
/-! DEFINITION. The state of the block (10_state.md rule R20), the host's inputs and streams around it (R30, R33,
R50), and the machine right after hardware reset (R34). -/

namespace Sys2Proof.Machine

open Sys2Proof

/-- `phase` (10_state.md rule R25). -/
inductive Phase where
  /-- After hardware reset, no run started. -/
  | idle
  /-- The header has yet to be written or read. -/
  | hdr
  /-- Chunks are being produced or consumed. -/
  | body
  /-- All pixels done, the end marker has yet to be written or checked. -/
  | trailer
  /-- The run ended without a fault. -/
  | done
  /-- The run ended with a fault. -/
  | err
  deriving DecidableEq, Repr

/-- `mode` (10_state.md rule R26). -/
inductive Mode where
  | enc
  | dec
  deriving DecidableEq, Repr

/-- Why the MODEL stops. The block's own faults (60_exceptions.md) are no such stop: they are next states in phase
ERR. -/
inductive Fault where
  /-- Raised by the pixel output and the pixel fetch (`commitChunk`, `encodePixel`) where `CH` is neither 3 nor 4:
  10_state.md rule R24 says no rule ever commits such a value, so the spec gives it no meaning. SAFE (assumption log
  14): no run reaches it. -/
  | illegalLayout
  deriving DecidableEq, Repr

/-- Why the MODEL gives no next state to a record or a command. -/
inductive Refusal where
  /-- Raised only by an arm of `exec` whose record has no meaning yet. SAFE. -/
  | notModelled (mnemonic : String)
  /-- Raised by every record's meaning in a phase in which the sequencer never performs that record
  (43_sequencer_and_commands.md rules R201 and R202). SAFE (assumption log 13): `step` never asks for it. -/
  | notEnabled
  /-- Raised by START while a run is in progress: "no move in the model" (93_implementation_defined.md U12,
  43_sequencer_and_commands.md rule R206). SAFE (assumption log 10). -/
  | startWhileBusy
  deriving DecidableEq, Repr

/-- The pixel-cache RAM as listed bytes: addresses strictly rising, no entry equal to what an unlisted byte reads as.
Word i of 20_memory.md rule R51 lies at byte addresses 4i to 4i + 3 (assumption log 3). -/
abbrev Memory := List Host.Cell

/-- The three outcomes of one step of this machine. -/
abbrev Result (σ : Type) := Host.Outcome σ Fault Refusal

/-- Everything the spec gives the machine. -/
structure State where
  /-- `phase` (R25). -/
  phase : Phase
  /-- `mode` (R26). -/
  mode : Mode
  /-- `err_cause` (R27). -/
  errCause : BitVec 4
  /-- `prev`, the previous pixel (R21). -/
  prev : Pixel
  /-- `run`, the pending-run counter of the encoder (R22). -/
  run : BitVec 6
  /-- `npx`, pixels consumed or produced so far (R23). -/
  npx : BitVec 64
  /-- `W` (R24). -/
  w : BitVec 32
  /-- `H` (R24). -/
  h : BitVec 32
  /-- `CH` (R24). -/
  ch : BitVec 8
  /-- `CS` (R24). -/
  cs : BitVec 8
  /-- `ipos`, bytes of IN consumed (R28). -/
  ipos : Nat
  /-- `opos`, bytes appended to OUT (R28). -/
  opos : Nat
  /-- `cache`, the pixel-cache RAM (20_memory.md rules R51 to R55). -/
  cache : Memory
  /-- CP0 `cfg_mode`, 0 ENC, 1 DEC (R30). -/
  cfgMode : BitVec 1
  /-- CP1 `cfg_width` (R30). -/
  cfgWidth : BitVec 32
  /-- CP2 `cfg_height` (R30). -/
  cfgHeight : BitVec 32
  /-- CP3 `cfg_channels` (R30). -/
  cfgChannels : BitVec 8
  /-- CP4 `cfg_colorspace` (R30). -/
  cfgColorspace : BitVec 1
  /-- CP5 `cmd_start`: a pulse is pending (R30; assumption log 8). -/
  cmdStart : Bool
  /-- `rst`, the level of the reset input (70_reset_and_hazards.md rule R250; assumption log 7). -/
  rst : Bool
  /-- IN: the compressed bytes given to a decode, whole (R33, R50). -/
  inp : List Byte
  /-- OUT: the compressed bytes an encode has produced (R33, R50). -/
  out : List Byte
  /-- PIXIN: the raw pixel bytes given to an encode (R33, R50). -/
  pixin : List Byte
  /-- PIXOUT: the pixel bytes a decode has produced (R33, R50). -/
  pixout : List Byte
  /-- The model's own: the index of the next free value (assumption log 6). -/
  free : Nat
  deriving DecidableEq, Repr

/-- Right after hardware reset: `phase = IDLE` and `err_cause = 0` (R34). Every other value is the model's: the spec
leaves it unspecified (DESIGN CHOICE, UNSAFE: assumption logs 4, 5 and 21). -/
def State.reset : State where
  phase := .idle
  mode := .enc
  errCause := 0
  prev := ⟨0, 0, 0, 0⟩
  run := 0
  npx := 0
  w := 0
  h := 0
  ch := 0
  cs := 0
  ipos := 0
  opos := 0
  cache := []
  cfgMode := 0
  cfgWidth := 0
  cfgHeight := 0
  cfgChannels := 0
  cfgColorspace := 0
  cmdStart := false
  rst := false
  inp := []
  out := []
  pixin := []
  pixout := []
  free := 0

end Sys2Proof.Machine
end

