-- ==== Sys2Proof/Machine/Operands.lean ====
section
/-! DEFINITION. The operand forms: channel arithmetic (00_scope.md rule R7), the biased fields (30_encoding.md rule
R90), the packed pixel and the slot hash (R6, 20_memory.md rule R52), the pixels the difference chunks denote
(41_chunk_decoder.md rules R136 and R137), and the bytes of a pixel in the pixel buffer (R61, R140, R161). -/

namespace Sys2Proof.Machine

open Sys2Proof

/-! ### Channel arithmetic (R7) -/

/-- `add8(a, d) = (a + d) mod 256`. -/
def add8 (a : Byte) (d : Int) : Byte := BitVec.ofInt 8 (a.toNat + d)

/-- `sub8(a, b) = (a - b) mod 256`. -/
def sub8 (a b : Byte) : Byte := BitVec.ofInt 8 ((a.toNat : Int) - b.toNat)

/-- `s8(v)`: v read as a signed number. -/
def s8 (v : Byte) : Int := if v.toNat < 128 then v.toNat else (v.toNat : Int) - 256

/-! ### The packed pixel and the hash -/

/-- `pack(p)`: R in bits 31:24, A in bits 7:0 (R6). -/
def pack (p : Pixel) : BitVec 32 := p.r ++ p.g ++ p.b ++ p.a

/-- The inverse of `pack` (R6). -/
def unpack (w : BitVec 32) : Pixel :=
  ⟨w.extractLsb' 24 8, w.extractLsb' 16 8, w.extractLsb' 8 8, w.extractLsb' 0 8⟩

/-- `hash(p)`, the slot index of a pixel (R52). -/
def hash (p : Pixel) : BitVec 6 :=
  BitVec.ofNat 6 (p.r.toNat * 3 + p.g.toNat * 5 + p.b.toNat * 7 + p.a.toNat * 11)

/-! ### Biased fields (R90) -/

/-- The quantity a biased field stands for: `d = f - bias`. -/
def unbias {n : Nat} (bias : Int) (f : BitVec n) : Int := (f.toNat : Int) - bias

/-- The field a quantity is stored in: `f = d + bias`. -/
def bias (n : Nat) (b d : Int) : BitVec n := BitVec.ofInt n (d + b)

/-- The length of the pixel run a RUN field stands for (R87, R90). -/
def runLength (frun : BitVec 6) : Nat := frun.toNat + Config.runBias

/-- The pixel of a DIFF chunk over the previous pixel (R136). -/
def diffPixel (fr fg fb : BitVec 2) (prev : Pixel) : Pixel where
  r := add8 prev.r (unbias Config.diffBias fr)
  g := add8 prev.g (unbias Config.diffBias fg)
  b := add8 prev.b (unbias Config.diffBias fb)
  a := prev.a

/-- The pixel of a LUMA chunk over the previous pixel (R137). -/
def lumaPixel (fg : BitVec 6) (frg fbg : BitVec 4) (prev : Pixel) : Pixel :=
  let dg := unbias Config.lumaGBias fg
  let dr := unbias Config.lumaRbBias frg + dg
  let db := unbias Config.lumaRbBias fbg + dg
  ⟨add8 prev.r dr, add8 prev.g dg, add8 prev.b db, prev.a⟩

/-! ### Pixels in the pixel buffer -/

/-- The bytes `OutPixel` appends for a pixel in a layout (R140); none where the layout is neither of the two (R24). -/
def pixelBytes (ch : BitVec 8) (p : Pixel) : Option (List Byte) :=
  if ch = Config.chRgb then some [p.r, p.g, p.b]
  else if ch = Config.chRgba then some [p.r, p.g, p.b, p.a]
  else none

/-- The pixel at the front of raw bytes in a layout, alpha 255 when the layout is RGB (R161); none where the bytes of
a whole pixel are not there. -/
def pixelOfBytes (ch : BitVec 8) (bs : List Byte) : Option Pixel :=
  if ch = Config.chRgb then
    match bs with
    | r :: g :: b :: _ => some ⟨r, g, b, 255⟩
    | _ => none
  else
    match bs with
    | r :: g :: b :: a :: _ => some ⟨r, g, b, a⟩
    | _ => none

/-- The same bytes, count times over. -/
def repeatBytes (count : Nat) (bs : List Byte) : List Byte := (List.replicate count bs).flatten

/-! ### The values of the control registers -/

/-- `code(<Fault>)` (R220). -/
def causeCode : Cause → BitVec 4
  | .eMagic => 1
  | .eHdrTrunc => 2
  | .eChannels => 3
  | .eColorspace => 4
  | .eChunkTrunc => 5
  | .eRunOvershoot => 6
  | .eEndMarker => 7
  | .eCfgChannels => 8

/-- The pipeline a `cfg_mode` bit selects (R30). -/
def modeOfBit (b : BitVec 1) : Mode := if b = 0 then .enc else .dec

/-- The position of the stream a phase reads or writes, where it is one of the three busy ones (R201, R202). -/
def phasePosition : Phase → Option Position
  | .idle => none
  | .hdr => some .header
  | .body => some .chunk
  | .trailer => some .trailer
  | .done => none
  | .err => none

end Sys2Proof.Machine
end

