-- ==== Sys2Proof/Machine/Ops.lean ====
section
/-! DEFINITION. The named operations over the pixel cache (20_memory.md), the registers and the streams (10_state.md,
00_scope.md rule R8), the fault entry (60_exceptions.md rule R222), the start of a run and hardware reset. -/

namespace Sys2Proof.Machine

open Sys2Proof

/-! ### The pixel-cache RAM -/

/-- What an unlisted byte of the cache reads as: zero, the content START gives every slot (R55). After hardware reset
it is the model's choice (DESIGN CHOICE, UNSAFE: assumption log 5). -/
def Memory.unlisted : Byte := 0

/-- The byte at an address. -/
def memRead : Memory → Nat → Byte
  | [], _ => Memory.unlisted
  | (b, u) :: m, a => if a = b then u else memRead m a

/-- The memory with one byte written, in canonical form. -/
def memWrite : Memory → Nat → Byte → Memory
  | [], a, v => if v = Memory.unlisted then [] else [(a, v)]
  | (b, u) :: m, a, v =>
    if a < b then (if v = Memory.unlisted then (b, u) :: m else (a, v) :: (b, u) :: m)
    else if a = b then (if v = Memory.unlisted then m else (a, v) :: m)
    else (b, u) :: memWrite m a v

/-- The canonical form above a bound: addresses rise strictly, stay inside the 64 words of 4 bytes (R51), and no entry
equals what an unlisted byte reads as. -/
def Memory.wfFrom : Nat → Memory → Bool
  | _, [] => true
  | lo, (a, v) :: m =>
    decide (lo ≤ a) && decide (a < 4 * Config.cacheSlots) && decide (v ≠ Memory.unlisted) && Memory.wfFrom (a + 1) m

/-- The canonical form of the cache. -/
def Memory.wf (m : Memory) : Bool := Memory.wfFrom 0 m

/-- The word at a byte address, most significant byte first (assumption log 3). -/
def readWord (m : Memory) (a : Nat) : BitVec 32 :=
  memRead m a ++ memRead m (a + 1) ++ memRead m (a + 2) ++ memRead m (a + 3)

/-- The memory with a word written at a byte address, most significant byte first (assumption log 3). -/
def writeWord (m : Memory) (a : Nat) (w : BitVec 32) : Memory :=
  memWrite (memWrite (memWrite (memWrite m a (w.extractLsb' 24 8)) (a + 1) (w.extractLsb' 16 8)) (a + 2)
    (w.extractLsb' 8 8)) (a + 3) (w.extractLsb' 0 8)

/-- The byte address of slot i. -/
def slotAddr (i : BitVec 6) : Nat := 4 * i.toNat

/-- `cache[i]` (R53). -/
def cacheRead (m : Memory) (i : BitVec 6) : Pixel := unpack (readWord m (slotAddr i))

/-- `cache[i] <- p` (R54). -/
def cacheWrite (m : Memory) (i : BitVec 6) (p : Pixel) : Memory := writeWord m (slotAddr i) (pack p)

/-- The cache clear: every slot (0,0,0,0) (R55). -/
def cacheClear : Memory := []

/-! ### Named updates of the state -/

/-- `Consume(n)` (R8). -/
def consume (n : Nat) (s : State) : State := { s with ipos := s.ipos + n }

/-- `OutByte` of each byte in turn (R8, R172). -/
def outBytes (bs : List Byte) (s : State) : State := { s with out := s.out ++ bs, opos := s.opos + bs.length }

/-- `OutPixel` of bytes already laid out (R140). -/
def outPixels (bs : List Byte) (s : State) : State := { s with pixout := s.pixout ++ bs }

/-- `cache[hash(p)] <- p`, the only write the cache takes in a run (R54). -/
def storePixel (p : Pixel) (s : State) : State := { s with cache := cacheWrite s.cache (hash p) p }

/-- `prev <- p` (R139, R173). -/
def setPrev (p : Pixel) (s : State) : State := { s with prev := p }

/-- `npx <- npx + n` (R130, R160). -/
def countPixels (n : Nat) (s : State) : State := { s with npx := s.npx + BitVec.ofNat 64 n }

/-- `run <- r` (R160, R163). -/
def setRun (r : BitVec 6) (s : State) : State := { s with run := r }

/-- `phase <- X` (R8). -/
def setPhase (p : Phase) (s : State) : State := { s with phase := p }

/-- `W <- w; H <- h; CH <- c; CS <- cs` (R111). -/
def loadHeader (w h : BitVec 32) (c cs : BitVec 8) (s : State) : State := { s with w := w, h := h, ch := c, cs := cs }

/-- Fault entry, the ONE way a fault is taken: applied to the state before the step, it discards everything the step
would have written (R222). -/
def raise (c : Cause) (s : State) : State := { s with phase := .err, errCause := causeCode c }

/-! ### Pixel counting -/

/-- `target = W * H`, an exact natural (R23). -/
def target (s : State) : Nat := s.w.toNat * s.h.toNat

/-- `npx = target` (R130, R160). -/
abbrev AtTarget (s : State) : Prop := s.npx.toNat = target s

/-- `if npx = target: phase <- TRAILER` (R130, R160). -/
def closeBody (s : State) : State := if AtTarget s then setPhase .trailer s else s

/-- The phase after the header step: `BODY if W * H > 0 else TRAILER` (R110, R111). -/
def bodyPhase (s : State) : Phase := if target s > 0 then .body else .trailer

/-! ### The streams -/

/-- The bytes of IN not yet consumed (R8). -/
def remaining (s : State) : List Byte := s.inp.drop s.ipos

/-- `NextPixel()`: the raw pixel `npx` of PIXIN, where the host offers all its bytes (R28, R61, R161). -/
def nextPixel (s : State) : Option Pixel := pixelOfBytes s.ch (s.pixin.drop (s.npx.toNat * s.ch.toNat))

/-- The record the decoder reads next, by the position its phase gives, or the fault its absence raises. -/
def fetchAt (p : Position) (s : State) : Except Cause Instr :=
  match decodeAt p (remaining s) with
  | .ok (i, _) => .ok i
  | .error c => .error c

/-! ### Outcomes -/

/-- A next state handed on, a stop kept. -/
def andThen (r : Result State) (f : State → Result State) : Result State :=
  match r with
  | .next s => f s
  | .fault e => .fault e
  | .refused e => .refused e

/-- The next state of an outcome, where it is one. -/
def nextOf (r : Result State) : Option State :=
  match r with
  | .next s => some s
  | .fault _ => none
  | .refused _ => none

/-- A record's meaning: enabled in its phase only, one half for each mode (R201, R202; assumption log 2). -/
def recordIn (p : Phase) (dec enc : State → Result State) (s : State) : Result State :=
  if s.phase = p then
    match s.mode with
    | .dec => dec s
    | .enc => enc s
  else .refused .notEnabled

/-! ### The common part of a decoded chunk -/

/-- The state after a chunk whose pixel is laid out as the bytes bs (R130, R139, R140, R141). -/
def chunkDone (len : Nat) (px : Pixel) (count : Nat) (write : Bool) (bs : List Byte) (s : State) : State :=
  let s := consume len s
  let s := if write then storePixel px s else s
  let s := setPrev px s
  let s := outPixels (repeatBytes count bs) s
  let s := countPixels count s
  closeBody s

/-- What follows the reconstruction of a pixel: Consume, cache writer, `prev`, pixel output, count, target (R130). -/
def commitChunk (len : Nat) (px : Pixel) (count : Nat) (write : Bool) (s : State) : Result State :=
  match pixelBytes s.ch px with
  | some bs => .next (chunkDone len px count write bs s)
  | none => .fault .illegalLayout

/-- The common part of an emitted record: its bytes, in order (R172). -/
def packRecord (i : Instr) (s : State) : State := outBytes (encode i) s

/-! ### START -/

/-- The part of the run initialisation that does not depend on the mode (R35), with the streams of the new run empty
(assumption log 11) and the START pulse taken (assumption log 8). -/
def runInit (s : State) : State :=
  { s with
    cache := cacheClear, prev := Config.prevSeed, run := 0, npx := 0, ipos := 0, opos := 0, errCause := 0,
    mode := modeOfBit s.cfgMode, out := [], pixout := [], cmdStart := false }

/-- The header registers of an encode, from the ports, `CH` apart (R35). -/
def loadPorts (s : State) : State :=
  { s with w := s.cfgWidth, h := s.cfgHeight, cs := s.cfgColorspace.zeroExtend 8 }

/-- `CH` unspecified: a free value (R35; assumption log 6). -/
def freeChannels (s : State) : State := { s with ch := Config.freeByte s.free, free := s.free + 1 }

/-- `W`, `H`, `CH`, `CS` unspecified: free values (R35; assumption log 6). -/
def freeHeader (s : State) : State :=
  { s with
    w := Config.freeWord s.free, h := Config.freeWord (s.free + 1),
    ch := Config.freeByte s.free, cs := Config.freeByte (s.free + 1), free := s.free + 2 }

/-- The START command in a phase that enables it (R200). -/
def startRun (s : State) : State :=
  match modeOfBit s.cfgMode with
  | .dec => setPhase .hdr (freeHeader (runInit s))
  | .enc =>
    if legalChannels s.cfgChannels then setPhase .hdr { loadPorts (runInit s) with ch := s.cfgChannels }
    else raise .eCfgChannels (freeChannels (loadPorts (runInit s)))

/-- START is enabled when the phase is IDLE, DONE or ERR (R200). -/
def startEnabled (s : State) : Bool :=
  match s.phase with
  | .idle => true
  | .hdr => false
  | .body => false
  | .trailer => false
  | .done => true
  | .err => true

/-- The START command: in a busy phase the model has no move (R206, U12; assumption log 10). -/
def startCommand (s : State) : Result State :=
  if startEnabled s then .next (startRun s) else .refused .startWhileBusy

/-! ### Hardware reset -/

/-- A cache whose lowest k slots hold free values (R34; assumption log 6). -/
def freeCache : Nat → Nat → Memory
  | 0, _ => []
  | k + 1, n => cacheWrite (freeCache k n) (BitVec.ofNat 6 k) (unpack (Config.freeWord (n + k)))

/-- Hardware reset: `phase <- IDLE`, `err_cause <- 0`, every other piece of the block's state unspecified, so a free
value (R34, R250; assumption log 6); the host's ports and streams stay (assumption log 24). -/
def hardReset (s : State) : State :=
  { s with
    phase := .idle, errCause := 0,
    mode := modeOfBit (Config.freeBit s.free), run := Config.freeRun s.free, npx := Config.freeCount s.free,
    ch := Config.freeByte s.free, cs := Config.freeByte (s.free + 1),
    ipos := Config.freeNat s.free, opos := Config.freeNat (s.free + 1),
    w := Config.freeWord s.free, h := Config.freeWord (s.free + 1), prev := unpack (Config.freeWord (s.free + 2)),
    cache := freeCache Config.cacheSlots (s.free + 3), free := s.free + 3 + Config.cacheSlots }

end Sys2Proof.Machine
end

