-- ==== Sys2Proof/Machine/Flags.lean ====
section
/-! DEFINITION. Every flag: the status ports as functions of the state (10_state.md rules R29 and R31), and the
predicates the encoder computes for one pixel and does not keep (42_chunk_encoder.md rules R164 and R165). -/

namespace Sys2Proof.Machine

open Sys2Proof

/-! ### Status ports (R29, R31) -/

/-- SP0 `st_phase`, the encoding of the phase (R25). -/
def stPhase (s : State) : BitVec 3 :=
  match s.phase with
  | .idle => 0
  | .hdr => 1
  | .body => 2
  | .trailer => 3
  | .done => 4
  | .err => 5

/-- SP1 `st_busy`. -/
def stBusy (s : State) : Bool := s.phase == .hdr || s.phase == .body || s.phase == .trailer

/-- SP1 `st_done`. -/
def stDone (s : State) : Bool := s.phase == .done

/-- SP1 `st_err`. -/
def stErr (s : State) : Bool := s.phase == .err

/-- SP2 `st_err_cause`. -/
def stErrCause (s : State) : BitVec 4 := s.errCause

/-- SP3 `st_width`. -/
def stWidth (s : State) : BitVec 32 := s.w

/-- SP4 `st_height`. -/
def stHeight (s : State) : BitVec 32 := s.h

/-- SP5 `st_channels`. -/
def stChannels (s : State) : BitVec 8 := s.ch

/-- SP6 `st_colorspace`. -/
def stColorspace (s : State) : BitVec 8 := s.cs

/-- SP7 `st_npx`. -/
def stNpx (s : State) : BitVec 64 := s.npx

/-- `byte_out_last` with byte k of OUT: the last byte of END is flagged (R208). -/
def byteOutLast (k : Nat) (s : State) : Bool := s.mode == .enc && s.phase == .done && k + 1 == s.opos

/-! ### What the host may take of a decode (R208, R230) -/

/-- PIXOUT as a result: of a run that ends in ERR the host discards every pixel, so there is none (R208, R230). -/
def takenPixels (s : State) : List Byte := if stErr s then [] else s.pixout

/-- The state without a faulted run's PIXOUT, of which nothing may be claimed (R230; assumption log 15). -/
def observed (s : State) : State := { s with pixout := takenPixels s }

/-! ### The encoder's predicates over the incoming pixel (R164, R165) -/

/-- `hit`: the slot of the pixel holds the pixel (R164). -/
def hit (s : State) (px : Pixel) : Bool := cacheRead s.cache (hash px) == px

/-- `same_a` (R165). -/
def sameA (s : State) (px : Pixel) : Bool := px.a == s.prev.a

/-- The signed difference of two channels: `s8(sub8(next, prev))` (R165). -/
def delta (next prev : Byte) : Int := s8 (sub8 next prev)

/-- `dr` (R165). -/
def dr (s : State) (px : Pixel) : Int := delta px.r s.prev.r

/-- `dg` (R165). -/
def dg (s : State) (px : Pixel) : Int := delta px.g s.prev.g

/-- `db` (R165). -/
def db (s : State) (px : Pixel) : Int := delta px.b s.prev.b

/-- `drg = dr - dg` (R165). -/
def drg (s : State) (px : Pixel) : Int := dr s px - dg s px

/-- `dbg = db - dg` (R165). -/
def dbg (s : State) (px : Pixel) : Int := db s px - dg s px

/-- `lo <= d <= hi`. -/
def within (lo d hi : Int) : Bool := decide (lo ≤ d) && decide (d ≤ hi)

/-- `diff_ok` (R165). -/
def diffOk (s : State) (px : Pixel) : Bool :=
  sameA s px && within (-2) (dr s px) 1 && within (-2) (dg s px) 1 && within (-2) (db s px) 1

/-- `luma_ok` (R165). -/
def lumaOk (s : State) (px : Pixel) : Bool :=
  sameA s px && within (-32) (dg s px) 31 && within (-8) (drg s px) 7 && within (-8) (dbg s px) 7

end Sys2Proof.Machine
end

