-- ==== Sys2Proof/Machine/CacheReference.lean ====
section
/-! DEFINITION. INDEX, the cache reference (41_chunk_decoder.md rule R135, 42_chunk_encoder.md rule R167). -/

namespace Sys2Proof.Machine

open Sys2Proof

/-- INDEX decode: the cache is read, not written (R135). -/
def decodeIndex (idx : BitVec 6) (s : State) : Result State := commitChunk 1 (cacheRead s.cache idx) 1 false s

/-- INDEX emit: the cache is not updated (R167). -/
def emitIndex (idx : BitVec 6) (s : State) : Result State := .next (packRecord (.index idx) s)

/-- INDEX (R135, R167). -/
def execIndex (idx : BitVec 6) (s : State) : Result State := recordIn .body (decodeIndex idx) (emitIndex idx) s

end Sys2Proof.Machine
end

