-- ==== Sys2Proof/Machine/Difference.lean ====
section
/-! DEFINITION. DIFF and LUMA, the difference chunks (41_chunk_decoder.md rules R136 and R137, 42_chunk_encoder.md
rules R168 and R169). The cache update of their emission is the cache lookup's (R164). -/

namespace Sys2Proof.Machine

open Sys2Proof

/-- DIFF decode (R136). -/
def decodeDiff (fr fg fb : BitVec 2) (s : State) : Result State :=
  commitChunk 1 (diffPixel fr fg fb s.prev) 1 true s

/-- DIFF emit (R168). -/
def emitDiff (fr fg fb : BitVec 2) (s : State) : Result State := .next (packRecord (.diff fr fg fb) s)

/-- DIFF (R136, R168). -/
def execDiff (fr fg fb : BitVec 2) (s : State) : Result State :=
  recordIn .body (decodeDiff fr fg fb) (emitDiff fr fg fb) s

/-- LUMA decode (R137). -/
def decodeLuma (fg : BitVec 6) (frg fbg : BitVec 4) (s : State) : Result State :=
  commitChunk 2 (lumaPixel fg frg fbg s.prev) 1 true s

/-- LUMA emit (R169). -/
def emitLuma (fg : BitVec 6) (frg fbg : BitVec 4) (s : State) : Result State :=
  .next (packRecord (.luma fg frg fbg) s)

/-- LUMA (R137, R169). -/
def execLuma (fg : BitVec 6) (frg fbg : BitVec 4) (s : State) : Result State :=
  recordIn .body (decodeLuma fg frg fbg) (emitLuma fg frg fbg) s

end Sys2Proof.Machine
end

