-- ==== Sys2Proof/Machine/FullColour.lean ====
section
/-! DEFINITION. RGB and RGBA, the full-colour chunks (41_chunk_decoder.md rules R133 and R134, 42_chunk_encoder.md
rules R170 and R171). -/

namespace Sys2Proof.Machine

open Sys2Proof

/-- RGB decode: alpha is inherited from `prev` (R133). -/
def decodeRgb (r g b : Byte) (s : State) : Result State := commitChunk 4 ⟨r, g, b, s.prev.a⟩ 1 true s

/-- RGB emit (R170). -/
def emitRgb (r g b : Byte) (s : State) : Result State := .next (packRecord (.rgb r g b) s)

/-- RGB (R133, R170). -/
def execRgb (r g b : Byte) (s : State) : Result State := recordIn .body (decodeRgb r g b) (emitRgb r g b) s

/-- RGBA decode, in either layout (R134). -/
def decodeRgba (r g b a : Byte) (s : State) : Result State := commitChunk 5 ⟨r, g, b, a⟩ 1 true s

/-- RGBA emit (R171). -/
def emitRgba (r g b a : Byte) (s : State) : Result State := .next (packRecord (.rgba r g b a) s)

/-- RGBA (R134, R171). -/
def execRgba (r g b a : Byte) (s : State) : Result State :=
  recordIn .body (decodeRgba r g b a) (emitRgba r g b a) s

end Sys2Proof.Machine
end

