-- ==== Sys2Proof/Machine/Positional.lean ====
section
/-! DEFINITION. HEADER and END, the positional records, read and written (40_header_codec.md rules R110 to R113). -/

namespace Sys2Proof.Machine

open Sys2Proof

/-- HEADER read, all 14 bytes being there and the magic good: the channel byte is judged before the colour-space byte
(R111, R223). -/
def readHeader (w h : BitVec 32) (c cs : BitVec 8) (s : State) : Result State :=
  if !legalChannels c then .next (raise .eChannels s)
  else if !legalColorspace cs then .next (raise .eColorspace s)
  else
    let t := loadHeader w h c cs (consume Config.hdrLen s)
    .next (setPhase (bodyPhase t) t)

/-- HEADER write (R110): the sequencer gives it the registers `W`, `H`, `CH`, `CS`. -/
def writeHeader (w h : BitVec 32) (c cs : BitVec 8) (s : State) : Result State :=
  let t := packRecord (.header w h c cs) s
  .next (setPhase (bodyPhase t) t)

/-- HEADER (R110, R111). -/
def execHeader (w h : BitVec 32) (c cs : BitVec 8) (s : State) : Result State :=
  recordIn .hdr (readHeader w h c cs) (writeHeader w h c cs) s

/-- END read, the marker being there (R113). -/
def readEnd (s : State) : Result State := .next (setPhase .done (consume Config.endLen s))

/-- END write (R112). -/
def writeEnd (s : State) : Result State := .next (setPhase .done (packRecord .endMarker s))

/-- END (R112, R113). -/
def execEnd (s : State) : Result State := recordIn .trailer readEnd writeEnd s

end Sys2Proof.Machine
end

