-- ==== Sys2Proof/Machine/RunLength.lean ====
section
/-! DEFINITION. RUN, the pixel run (41_chunk_decoder.md rule R138, 42_chunk_encoder.md rule R163). -/

namespace Sys2Proof.Machine

open Sys2Proof

/-- RUN decode: the current previous pixel, frun + 1 times, unless the run would pass the target (R138). -/
def decodeRun (frun : BitVec 6) (s : State) : Result State :=
  if s.npx.toNat + runLength frun > target s then .next (raise .eRunOvershoot s)
  else commitChunk 1 s.prev (runLength frun) true s

/-- RUN emit: its byte, the cache write of the repeated pixel, the counter cleared (R163). -/
def emitRun (frun : BitVec 6) (s : State) : Result State :=
  .next (setRun 0 (storePixel s.prev (packRecord (.run frun) s)))

/-- RUN (R138, R163). -/
def execRun (frun : BitVec 6) (s : State) : Result State := recordIn .body (decodeRun frun) (emitRun frun) s

end Sys2Proof.Machine
end

