-- ==== Sys2Proof/Machine/Dispatch.lean ====
section
/-! DEFINITION. One arm per record of the opcode table. -/

namespace Sys2Proof.Machine

open Sys2Proof

/-- What a record does: read in DEC mode, written in ENC mode. -/
def exec (i : Instr) (s : State) : Host.Outcome State Fault Refusal :=
  match i with
  | .header w h c cs => Sys2Proof.Machine.execHeader w h c cs s
  | .rgb r g b => Sys2Proof.Machine.execRgb r g b s
  | .rgba r g b a => Sys2Proof.Machine.execRgba r g b a s
  | .index idx => Sys2Proof.Machine.execIndex idx s
  | .diff fr fg fb => Sys2Proof.Machine.execDiff fr fg fb s
  | .luma fg frg fbg => Sys2Proof.Machine.execLuma fg frg fbg s
  | .run frun => Sys2Proof.Machine.execRun frun s
  | .endMarker => Sys2Proof.Machine.execEnd s

end Sys2Proof.Machine
end

