-- ==== Sys2Proof/Machine/Encoder.lean ====
section
/-! DEFINITION. The encoder pixel step (42_chunk_encoder.md rules R160 to R173): run coalescer, cache lookup, cost
selector; the records it selects are emitted by `exec`. -/

namespace Sys2Proof.Machine

open Sys2Proof

/-- The cost selector: one record for a pixel that differs from `prev`, by strict priority (R166), with the operands
of R167 to R171. -/
def selectChunk (s : State) (px : Pixel) : Instr :=
  if hit s px then .index (hash px)
  else if diffOk s px then
    .diff (bias 2 Config.diffBias (dr s px)) (bias 2 Config.diffBias (dg s px)) (bias 2 Config.diffBias (db s px))
  else if lumaOk s px then
    .luma (bias 6 Config.lumaGBias (dg s px)) (bias 4 Config.lumaRbBias (drg s px))
      (bias 4 Config.lumaRbBias (dbg s px))
  else if sameA s px then .rgb px.r px.g px.b
  else .rgba px.r px.g px.b px.a

/-- The cache lookup's write: on a miss the slot takes the pixel, on a hit it is left alone (R164). -/
def lookupWrite (px : Pixel) (s : State) : State := if hit s px then s else storePixel px s

/-- `emit_single(px)`: the lookup, then the selected chunk (R164, R166). -/
def emitSingle (px : Pixel) (s : State) : Result State := exec (selectChunk s px) (lookupWrite px s)

/-- `flush_run()`: the pending run as one RUN chunk, its field the run minus 1 (R163). -/
def flushRun (s : State) : Result State := exec (.run (s.run - 1)) s

/-- The step's end: `if npx = target: phase <- TRAILER` (R160). -/
def endPixel (s : State) : Result State := .next (closeBody s)

/-- A pixel equal to `prev`: counted, and the run flushed at 62 or at the last pixel (R160, R162). -/
def repeatPixel (s : State) : Result State :=
  let s := setRun (s.run + 1) s
  if s.run = 62 ∨ AtTarget s then andThen (flushRun s) endPixel else endPixel s

/-- A pixel that differs from `prev`: the pending run is flushed first, then its own chunk (R160, R162). -/
def newPixel (px : Pixel) (s : State) : Result State :=
  andThen (if s.run ≠ 0 then flushRun s else .next s) fun s =>
    andThen (emitSingle px s) fun s => endPixel (setPrev px s)

/-- The step once a raw pixel is taken: `npx` counts it first, and the tests see the new count (R160). -/
def takePixel (px : Pixel) (s : State) : Result State :=
  let s := countPixels 1 s
  if px = s.prev then repeatPixel s else newPixel px s

/-- The encoder pixel step: without an offered pixel the sequencer waits and keeps all state (R160, R201, R204;
assumption log 9). -/
def encodePixel (s : State) : Result State :=
  if legalChannels s.ch then
    match nextPixel s with
    | some px => takePixel px s
    | none => .next s
  else .fault .illegalLayout

end Sys2Proof.Machine
end

