-- ==== Sys2Proof/Machine/Sequencer.lean ====
section
/-! DEFINITION. The sequencer: the step each phase enables in each mode (43_sequencer_and_commands.md rules R201 and
R202). -/

namespace Sys2Proof.Machine

open Sys2Proof

/-- One step of a decode: fetch at the stream position and run the record, or take the fault its absence raises
(R202, R130). In IDLE, DONE and ERR no step is enabled and all state is kept (assumption log 9). -/
def decoderStep (s : State) : Result State :=
  match phasePosition s.phase with
  | some p =>
    match fetchAt p s with
    | .ok i => exec i s
    | .error c => .next (raise c s)
  | none => .next s

/-- One step of an encode (R201). In IDLE, DONE and ERR no step is enabled and all state is kept (assumption log 9). -/
def encoderStep (s : State) : Result State :=
  match s.phase with
  | .idle => .next s
  | .hdr => exec (.header s.w s.h s.ch s.cs) s
  | .body => encodePixel s
  | .trailer => exec .endMarker s
  | .done => .next s
  | .err => .next s

/-- The step of the run in progress, by mode (R201, R202). -/
def sequencerStep (s : State) : Result State :=
  match s.mode with
  | .enc => encoderStep s
  | .dec => decoderStep s

/-- One step of the block: an asserted `rst` first (R250; assumption log 7), then a pending START (R200), then the
sequencer's own step. -/
def blockStep (s : State) : Result State :=
  if s.rst then .next (hardReset s)
  else if s.cmdStart then startCommand s
  else sequencerStep s

/-! ### Placing a word of the opcode table where the next step fetches (assumption log 19) -/

/-- IN with the bytes at the stream position, and nothing after them. -/
def placeBytes (bs : List Byte) (s : State) : State :=
  { s with inp := (s.inp ++ List.replicate s.ipos 0).take s.ipos ++ bs }

/-- The phase that reads a position. -/
def positionPhase : Position → Phase
  | .header => .hdr
  | .chunk => .body
  | .trailer => .trailer

/-- Room for the longest RUN: kept where there is room, else a 62 by 1 image of which nothing is decoded yet. -/
def withRoom (s : State) : State :=
  if s.npx.toNat + Config.runMax ≤ target s then s else { s with npx := 0, w := 62, h := 1 }

/-- A legal channel layout: kept where it is one, else RGB. -/
def withLayout (s : State) : State := if legalChannels s.ch then s else { s with ch := Config.chRgb }

/-- A decode about to read the position: no reset, no pending START, and for a chunk a legal layout with room. -/
def readyAt (p : Position) (s : State) : State :=
  let t := { s with mode := .dec, phase := positionPhase p, cmdStart := false, rst := false }
  match p with
  | .header => t
  | .chunk => withLayout (withRoom t)
  | .trailer => t

/-- The state whose next step fetches exactly the table's word. -/
def placeTableWord (nbits w : Nat) (s : State) : State :=
  placeBytes (tableBytes nbits w) (readyAt (tablePosition nbits w) s)

end Sys2Proof.Machine
end

