-- ==== Sys2Proof/Machine/Step.lean ====
section
/-! DEFINITION. One step of the machine, and the placing of a word of the opcode table where it fetches. -/

namespace Sys2Proof.Machine

open Sys2Proof

/-- One step (00_scope.md rule R10). -/
def step (s : State) : Host.Outcome State Fault Refusal := blockStep s

/-- s with a word of the opcode table where `step` fetches its next record (assumption log 19). -/
def State.withFetchWord (s : State) (nbits w : Nat) : State := placeTableWord nbits w s

end Sys2Proof.Machine
end

