-- ==== Sys2Proof/Machine/Whole.lean ====
section
/-! DEFINITION. The whole decode and the whole encode as functions (41_chunk_decoder.md rule R142,
42_chunk_encoder.md rule R174), each a START and the steps that follow it up to DONE or ERR. -/

namespace Sys2Proof.Machine

open Sys2Proof

/-- What a decode gives on DONE: the image, its pixels as PIXOUT (R142). -/
structure Image where
  width : BitVec 32
  height : BitVec 32
  channels : BitVec 8
  colorspace : BitVec 8
  pixels : List Byte
  deriving DecidableEq, Repr

/-- k steps, stopping at the first stop of the model. -/
def runSteps : Nat → State → Result State
  | 0, s => .next s
  | k + 1, s => andThen (step s) (runSteps k)

/-- A machine after reset whose host has configured a decode of the bytes and pulsed START (R252). -/
def decodeStart (bytes : List Byte) : State := { State.reset with cfgMode := 1, cmdStart := true, inp := bytes }

/-- A machine after reset whose host has configured an encode of the raw pixels and pulsed START (R252). -/
def encodeStart (w h : BitVec 32) (c : BitVec 8) (cs : BitVec 1) (pixels : List Byte) : State :=
  { State.reset with
    cfgMode := 0, cfgWidth := w, cfgHeight := h, cfgChannels := c, cfgColorspace := cs, cmdStart := true,
    pixin := pixels }

/-- The image of a decode that is done. -/
def imageOf (s : State) : Image := ⟨s.w, s.h, s.ch, s.cs, takenPixels s⟩

/-- The result of a run that is over: what it gives on DONE, the fault code on ERR; none while it is not over (R207). -/
def resultOf {α : Type} (out : State → α) (r : Result State) : Option (Except (BitVec 4) α) :=
  match r with
  | .next s => if stDone s then some (.ok (out s)) else if stErr s then some (.error s.errCause) else none
  | .fault _ => none
  | .refused _ => none

/-- `decode(IN)`: START, the header step, then at most `W * H` chunk steps and the trailer step; a machine that is done
or in ERR keeps its state, so the bound may be run out (R142). -/
def decodeStream (bytes : List Byte) : Option (Except (BitVec 4) Image) :=
  match runSteps 2 (decodeStart bytes) with
  | .next s => if stErr s then some (.error s.errCause) else resultOf imageOf (runSteps (target s + 1) s)
  | .fault _ => none
  | .refused _ => none

/-- `encode(W, H, CH, CS, PIXIN)`: START, the header step, `W * H` pixel steps, the trailer step (R174). -/
def encodeImage (w h : BitVec 32) (c : BitVec 8) (cs : BitVec 1) (pixels : List Byte) :
    Option (Except (BitVec 4) (List Byte)) :=
  resultOf (fun s => s.out) (runSteps (1 + 1 + w.toNat * h.toNat + 1) (encodeStart w h c cs pixels))

end Sys2Proof.Machine
end

