-- ==== Sys2Proof/Safety.lean ====
section
/-! DEFINITION. The terms the claims are stated in: a run in progress, what a fault leaves, the invariants of the spec's
prose, and the relation between an encoder and the decoder that follows it. -/

namespace Sys2Proof.Machine

open Sys2Proof

/-! ### Situations -/

/-- Neither reset nor START is asked for: the step is the sequencer's own. -/
def Undisturbed (s : State) : Prop := s.rst = false ∧ s.cmdStart = false

/-- The channel layout is one of the two defined values (R24). -/
def LegalLayout (s : State) : Prop := s.ch = 3 ∨ s.ch = 4

/-- The decoder chunk step is enabled (R130), in a layout R24 allows. -/
def ChunkReadable (s : State) : Prop := s.mode = .dec ∧ s.phase = .body ∧ LegalLayout s

/-- How many pixels a record produces: a RUN its length, every other chunk one, HEADER and END none (R9, R90). -/
def chunkPixels : Instr → Nat
  | .header _ _ _ _ => 0
  | .rgb _ _ _ => 1
  | .rgba _ _ _ _ => 1
  | .index _ => 1
  | .diff _ _ _ => 1
  | .luma _ _ _ => 1
  | .run f => f.toNat + 1
  | .endMarker => 0

/-- Chunks are emitted: ENC mode, phase BODY (R160). -/
def ChunkWritable (s : State) : Prop := s.mode = .enc ∧ s.phase = .body

/-- A run is over (R207). -/
def RunOver (s : State) : Prop := s.phase = .done ∨ s.phase = .err

/-- What a fault of code c leaves of s (R222): ERR and the code; the stream position, the pixel count, `prev`, `run`,
the cache and the header registers as before. PIXOUT of a faulted run is void, so nothing is said of it (R230). -/
def Faulted (c : BitVec 4) (s t : State) : Prop :=
  t.phase = .err ∧ t.errCause = c ∧ t.mode = s.mode ∧ t.ipos = s.ipos ∧ t.npx = s.npx ∧ t.prev = s.prev ∧
    t.run = s.run ∧ t.cache = s.cache ∧ t.w = s.w ∧ t.h = s.h ∧ t.ch = s.ch ∧ t.cs = s.cs

/-- The host's ports and the streams it gives, unchanged. -/
def HostSideSame (s t : State) : Prop :=
  t.cfgMode = s.cfgMode ∧ t.cfgWidth = s.cfgWidth ∧ t.cfgHeight = s.cfgHeight ∧ t.cfgChannels = s.cfgChannels ∧
    t.cfgColorspace = s.cfgColorspace ∧ t.cmdStart = s.cmdStart ∧ t.rst = s.rst ∧ t.inp = s.inp ∧ t.pixin = s.pixin

/-- The header registers and the mode, unchanged. -/
def HeaderSame (s t : State) : Prop :=
  t.mode = s.mode ∧ t.w = s.w ∧ t.h = s.h ∧ t.ch = s.ch ∧ t.cs = s.cs

/-- s with other values on the configuration ports CP0 to CP4 (R30). -/
def withPorts (m : BitVec 1) (w h : BitVec 32) (c : BitVec 8) (cs : BitVec 1) (s : State) : State :=
  { s with cfgMode := m, cfgWidth := w, cfgHeight := h, cfgChannels := c, cfgColorspace := cs }

/-! ### Invariants -/

/-- What the registers satisfy between steps (R22, R23, R24, R25, R27). -/
structure ControlInv (s : State) : Prop where
  /-- R22: `0 <= run <= 61` between steps. -/
  run_le : s.phase ≠ .idle → s.run.toNat ≤ 61
  /-- R22: the decoder does not use `run`. -/
  run_dec : s.phase ≠ .idle → s.mode = .dec → s.run = 0
  /-- R23: `0 <= npx <= target` between steps. -/
  npx_le : s.phase ≠ .idle → s.npx.toNat ≤ target s
  /-- R35: nothing is counted before the header step. -/
  hdr_fresh : s.phase = .hdr → s.npx = 0 ∧ s.run = 0
  /-- R25: in BODY `npx < target`. -/
  body_owes : s.phase = .body → s.npx.toNat < target s
  /-- R25, R112: past BODY all pixels are done and no run is pending. -/
  body_over : s.phase = .trailer ∨ s.phase = .done → s.npx.toNat = target s ∧ s.run = 0
  /-- R24: `CH` and `CS` hold one of their two defined values from the moment they are loaded. -/
  layout : s.phase = .body ∨ s.phase = .trailer ∨ s.phase = .done ∨ (s.phase = .hdr ∧ s.mode = .enc) →
    legalChannels s.ch = true ∧ legalColorspace s.cs = true
  /-- R27, R220: the code is 0 outside ERR and one of 1 to 8 in it. -/
  cause : if s.phase = .err then 1 ≤ s.errCause.toNat ∧ s.errCause.toNat ≤ 8 else s.errCause = 0

/-- What the pixel cache satisfies between steps (R51, R54). -/
structure CacheInv (s : State) : Prop where
  /-- The canonical form of the model's memory. -/
  wf : Memory.wf s.cache = true
  /-- R54 (a): every slot holds (0,0,0,0) or a pixel whose hash is the slot's index. -/
  slots : s.phase ≠ .idle → ∀ i : BitVec 6, cacheRead s.cache i = ⟨0, 0, 0, 0⟩ ∨ hash (cacheRead s.cache i) = i

/-- What the stream positions and the decoder's output satisfy between steps (R28, R140, R205). -/
structure StreamInv (s : State) : Prop where
  /-- R28: `opos` is the number of bytes appended to OUT, which START empties (assumption log 11). -/
  opos_eq : s.phase ≠ .idle → s.opos = s.out.length
  /-- R28: `ipos` bytes of IN are consumed. -/
  ipos_le : s.phase ≠ .idle → s.ipos ≤ s.inp.length
  /-- No pixel is output before the header step: START empties PIXOUT (assumption log 11). -/
  hdr_empty : s.mode = .dec → s.phase = .hdr → s.pixout = []
  /-- R140, R205: every pixel counted has appended `CH` bytes to PIXOUT. -/
  pixout_len : s.mode = .dec → s.phase = .body ∨ s.phase = .trailer ∨ s.phase = .done →
    s.pixout.length = s.npx.toNat * s.ch.toNat

/-- The bytes a pending pixel run will still take. -/
def pendingBytes (s : State) : Nat := if s.run = 0 then 0 else 1

/-- What the encoder satisfies between steps (R171, R173, R174). -/
structure EncoderInv (s : State) : Prop where
  /-- R35: the seed, and no byte emitted, before the header step. -/
  hdr_fresh : s.mode = .enc → s.phase = .hdr → s.prev = ⟨0, 0, 0, 255⟩ ∧ s.opos = 0
  /-- R173: `prev` is the seed and no chunk has been emitted, or `cache[hash(prev)] = prev`. -/
  prev_cached : s.mode = .enc → s.phase = .body →
    (s.prev = ⟨0, 0, 0, 255⟩ ∧ s.opos = 14) ∨ cacheRead s.cache (hash s.prev) = s.prev
  /-- R171: in RGB layout every pixel has alpha 255, and so does the seed. -/
  rgb_alpha : s.mode = .enc → s.phase = .body → s.ch = 3 → s.prev.a = 255
  /-- R174: every pixel costs at most `CH + 1` bytes. -/
  body_cost : s.mode = .enc → s.phase = .body →
    14 ≤ s.opos ∧ s.opos + pendingBytes s ≤ 14 + (s.ch.toNat + 1) * s.npx.toNat
  /-- R174, before the end marker. -/
  trailer_cost : s.mode = .enc → s.phase = .trailer →
    14 ≤ s.opos ∧ s.opos ≤ 14 + (s.ch.toNat + 1) * s.npx.toNat
  /-- R174: `22 <= len(OUT) <= 22 + (CH + 1) * W * H`. -/
  done_cost : s.mode = .enc → s.phase = .done →
    22 ≤ s.opos ∧ s.opos ≤ 22 + (s.ch.toNat + 1) * s.npx.toNat

/-! ### An encoder and the decoder that follows it -/

/-- The decoder d has read all that the encoder e has emitted (R66, R175): the same cache and the same `prev`, the pixels
of the pending run still owed, and PIXOUT with those pixels the part of PIXIN that e has consumed. -/
structure InStep (e d : State) : Prop where
  enc : e.mode = .enc
  dec : d.mode = .dec
  enc_quiet : Undisturbed e
  dec_quiet : Undisturbed d
  phase : d.phase = e.phase
  header : d.w = e.w ∧ d.h = e.h ∧ d.ch = e.ch ∧ d.cs = e.cs
  cache : d.cache = e.cache
  prev : d.prev = e.prev
  owed : d.npx.toNat + e.run.toNat = e.npx.toNat
  pixels : ∀ bs, pixelBytes e.ch e.prev = some bs →
    d.pixout ++ repeatBytes e.run.toNat bs = e.pixin.take (e.npx.toNat * e.ch.toNat)

end Sys2Proof.Machine
end

