-- ==== Sys2Proof/Certificates/Slice0/Obligations.lean ====
section
/-! DEFINITION. The statements for the provers. Each docstring names the rule of spec/ it formalises; a statement that
rests on a choice of the model names the assumption log's entry. -/

open Sys2Proof Sys2Proof.Machine

/-! ### Encoding -/

/-- 30_encoding.md R81 to R90: decoding the bytes of a well-formed record, whatever follows them, gives the record back
and what follows. -/
def Obligations.DecodeOfEncodeIsTheRecord : Prop :=
  ∀ (i : Instr) (rest : List Byte), i.wf = true → decodeAt (positionOf i) (encode i ++ rest) = .ok (i, rest)

/-- 30_encoding.md R80 to R92: what is decoded at a position is a record of that position, its bytes are exactly the
record's encoding, and a chunk or an end marker so decoded is well formed. -/
def Obligations.DecodedBytesAreTheEncoding : Prop :=
  ∀ (p : Position) (bs : List Byte) (i : Instr) (rest : List Byte), decodeAt p bs = .ok (i, rest) →
    bs = encode i ++ rest ∧ positionOf i = p ∧ (p ≠ .header → i.wf = true)

/-- 30_encoding.md R83: every one of the 256 byte values falls in exactly one class. -/
def Obligations.EveryTagByteHasOneClass : Prop :=
  ∀ t : Byte,
    (classify t = .index ↔ t.toNat ≤ 0x3F) ∧
    (classify t = .diff ↔ 0x40 ≤ t.toNat ∧ t.toNat ≤ 0x7F) ∧
    (classify t = .luma ↔ 0x80 ≤ t.toNat ∧ t.toNat ≤ 0xBF) ∧
    (classify t = .run ↔ 0xC0 ≤ t.toNat ∧ t.toNat ≤ 0xFD) ∧
    (classify t = .rgb ↔ t.toNat = 0xFE) ∧
    (classify t = .rgba ↔ t.toNat = 0xFF)

/-- 30_encoding.md R91: the tag byte alone gives the length of a chunk, and the payload must be present in full, else
the chunk is truncated. -/
def Obligations.TagAloneGivesTheLength : Prop :=
  ∀ (t : Byte) (bs : List Byte),
    let len := if t = 0xFE then 4 else if t = 0xFF then 5 else if 0x80 ≤ t.toNat ∧ t.toNat ≤ 0xBF then 2 else 1
    ((t :: bs).length < len → decodeAt .chunk (t :: bs) = .error .eChunkTrunc) ∧
    (len ≤ (t :: bs).length → ∃ i, decodeAt .chunk (t :: bs) = .ok (i, (t :: bs).drop len))

/-- A few words of spec/95_test_vectors.md, one for every record of the opcode table, decode to the record they stand
for. The four numbers of the magic in the HEADER word are the spec's general knowledge (G1; assumption log 17), and that
green stands in bits 3:2 and blue in 1:0 of the DIFF word is a reading the spec marks as its own (N3, G5; assumption log
18). -/
def Obligations.WordsOfTheVectorsDecode : Prop :=
  decodeAt .header [0x71, 0x6F, 0x69, 0x66, 0, 0, 0, 4, 0, 0, 0, 2, 4, 1] = .ok (.header 4 2 4 1, []) ∧
  decodeAt .chunk [0xFE, 0x80, 0x00, 0x00] = .ok (.rgb 128 0 0, []) ∧
  decodeAt .chunk [0xFF, 0x15, 0x23, 0x28, 0x80] = .ok (.rgba 21 35 40 128, []) ∧
  decodeAt .chunk [0x35] = .ok (.index 53, []) ∧
  decodeAt .chunk [0x6D] = .ok (.diff 2 3 1, []) ∧
  decodeAt .chunk [0xAF, 0x34] = .ok (.luma 47 3 4, []) ∧
  decodeAt .chunk [0xFD] = .ok (.run 61, []) ∧
  decodeAt .trailer [0, 0, 0, 0, 0, 0, 0, 1] = .ok (.endMarker, [])

/-! ### The step and the record it runs -/

/-- 43_sequencer_and_commands.md R202: where the bytes at the stream position decode to a record, the step of a decode
is that record's meaning; nothing is added around it. -/
def Obligations.StepRunsTheFetchedRecord : Prop :=
  ∀ (s : State) (p : Position) (i : Instr) (rest : List Byte), Undisturbed s → s.mode = .dec →
    phasePosition s.phase = some p → decodeAt p (s.inp.drop s.ipos) = .ok (i, rest) → step s = exec i s

/-- 60_exceptions.md R222: where they do not, the step takes the fault that the decoding raises. -/
def Obligations.StepTakesTheFetchFault : Prop :=
  ∀ (s : State) (p : Position) (c : Cause), Undisturbed s → s.mode = .dec → phasePosition s.phase = some p →
    decodeAt p (s.inp.drop s.ipos) = .error c → ∃ t, step s = .next t ∧ Faulted (causeCode c) s t

/-- 43_sequencer_and_commands.md R201: an encode writes HEADER from its registers in HDR, and END in TRAILER. -/
def Obligations.EncoderRunsHeaderAndEnd : Prop :=
  ∀ s : State, Undisturbed s → s.mode = .enc →
    (s.phase = .hdr → step s = exec (.header s.w s.h s.ch s.cs) s) ∧
    (s.phase = .trailer → step s = exec .endMarker s)

/-! ### HEADER and END -/

/-- 40_header_codec.md R111: the checks of the header in stream order, the first that fails raising its fault, and the
registers a good header loads. The four numbers of the magic are the spec's general knowledge (G1; assumption log
17). -/
def Obligations.HeaderReadJudgesInStreamOrder : Prop :=
  ∀ s : State, Undisturbed s → s.mode = .dec → s.phase = .hdr →
    let b := s.inp.drop s.ipos
    let v := fun k => b.getD k 0
    let magic := 4 ≤ b.length ∧ v 0 = 0x71 ∧ v 1 = 0x6F ∧ v 2 = 0x69 ∧ v 3 = 0x66
    let w := v 4 ++ v 5 ++ v 6 ++ v 7
    let h := v 8 ++ v 9 ++ v 10 ++ v 11
    let c := v 12
    let cs := v 13
    if ¬ magic then ∃ t, step s = .next t ∧ Faulted 1 s t
    else if b.length < 13 then ∃ t, step s = .next t ∧ Faulted 2 s t
    else if c ≠ 3 ∧ c ≠ 4 then ∃ t, step s = .next t ∧ Faulted 3 s t
    else if b.length < 14 then ∃ t, step s = .next t ∧ Faulted 2 s t
    else if cs ≠ 0 ∧ cs ≠ 1 then ∃ t, step s = .next t ∧ Faulted 4 s t
    else step s = .next { s with
      ipos := s.ipos + 14, w := w, h := h, ch := c, cs := cs,
      phase := if 0 < w.toNat * h.toNat then .body else .trailer }

/-- 40_header_codec.md R111: a HEADER whose two code bytes are legal is read. -/
def Obligations.HeaderReadCompletes : Prop :=
  ∀ (w h : BitVec 32) (c cs : BitVec 8) (s : State), s.mode = .dec → s.phase = .hdr → (c = 3 ∨ c = 4) →
    (cs = 0 ∨ cs = 1) →
    exec (.header w h c cs) s = .next { s with
      ipos := s.ipos + 14, w := w, h := h, ch := c, cs := cs,
      phase := if 0 < w.toNat * h.toNat then .body else .trailer }

/-- 40_header_codec.md R110: the 14 bytes HEADER write appends, and the phase after them. The four numbers of the magic
are the spec's general knowledge (G1; assumption log 17). -/
def Obligations.HeaderWriteCompletes : Prop :=
  ∀ s : State, s.mode = .enc → s.phase = .hdr →
    exec (.header s.w s.h s.ch s.cs) s = .next { s with
      out := s.out ++ [0x71, 0x6F, 0x69, 0x66,
        s.w.extractLsb' 24 8, s.w.extractLsb' 16 8, s.w.extractLsb' 8 8, s.w.extractLsb' 0 8,
        s.h.extractLsb' 24 8, s.h.extractLsb' 16 8, s.h.extractLsb' 8 8, s.h.extractLsb' 0 8, s.ch, s.cs],
      opos := s.opos + 14, phase := if 0 < s.w.toNat * s.h.toNat then .body else .trailer }

/-- 40_header_codec.md R113: the eight bytes at the stream position are the end marker, or the step raises
`E_END_MARKER`. -/
def Obligations.EndReadJudgesEightBytes : Prop :=
  ∀ s : State, Undisturbed s → s.mode = .dec → s.phase = .trailer →
    if (s.inp.drop s.ipos).take 8 = [0, 0, 0, 0, 0, 0, 0, 1] then
      step s = .next { s with ipos := s.ipos + 8, phase := .done }
    else ∃ t, step s = .next t ∧ Faulted 7 s t

/-- 40_header_codec.md R113: an END that is there is read. -/
def Obligations.EndReadCompletes : Prop :=
  ∀ s : State, s.mode = .dec → s.phase = .trailer →
    exec .endMarker s = .next { s with ipos := s.ipos + 8, phase := .done }

/-- 40_header_codec.md R112: END write appends seven 0x00 bytes and one 0x01 byte. -/
def Obligations.EndWriteCompletes : Prop :=
  ∀ s : State, s.mode = .enc → s.phase = .trailer →
    exec .endMarker s = .next { s with
      out := s.out ++ [0, 0, 0, 0, 0, 0, 0, 1], opos := s.opos + 8, phase := .done }

/-! ### Reading the six chunks -/

/-- 41_chunk_decoder.md R133: the operands are the three payload bytes; RGB inherits alpha from `prev`; fewer than 4
bytes are a truncated chunk. -/
def Obligations.RgbReadCompletes : Prop :=
  (∀ (r g b : Byte) (bs : List Byte), decodeAt .chunk (0xFE :: r :: g :: b :: bs) = .ok (.rgb r g b, bs)) ∧
  (∀ (r g b : Byte) (s : State), ChunkReadable s → s.npx.toNat < s.w.toNat * s.h.toNat →
    let px : Pixel := ⟨r, g, b, s.prev.a⟩
    exec (.rgb r g b) s = .next { s with
      ipos := s.ipos + 4, cache := cacheWrite s.cache (Machine.hash px) px, prev := px,
      pixout := s.pixout ++ (if s.ch = 3 then [r, g, b] else [r, g, b, s.prev.a]), npx := s.npx + 1,
      phase := if s.npx.toNat + 1 = s.w.toNat * s.h.toNat then .trailer else .body }) ∧
  (∀ (bs : List Byte) (s : State), Undisturbed s → ChunkReadable s → s.inp.drop s.ipos = 0xFE :: bs → bs.length < 3 →
    ∃ t, step s = .next t ∧ Faulted 5 s t)

/-- 41_chunk_decoder.md R134: the operands are the four payload bytes; RGBA reads nothing of `prev`, in either layout;
fewer than 5 bytes are a truncated chunk. -/
def Obligations.RgbaReadCompletes : Prop :=
  (∀ (r g b a : Byte) (bs : List Byte),
    decodeAt .chunk (0xFF :: r :: g :: b :: a :: bs) = .ok (.rgba r g b a, bs)) ∧
  (∀ (r g b a : Byte) (s : State), ChunkReadable s → s.npx.toNat < s.w.toNat * s.h.toNat →
    let px : Pixel := ⟨r, g, b, a⟩
    exec (.rgba r g b a) s = .next { s with
      ipos := s.ipos + 5, cache := cacheWrite s.cache (Machine.hash px) px, prev := px,
      pixout := s.pixout ++ (if s.ch = 3 then [r, g, b] else [r, g, b, a]), npx := s.npx + 1,
      phase := if s.npx.toNat + 1 = s.w.toNat * s.h.toNat then .trailer else .body }) ∧
  (∀ (bs : List Byte) (s : State), Undisturbed s → ChunkReadable s → s.inp.drop s.ipos = 0xFF :: bs → bs.length < 4 →
    ∃ t, step s = .next t ∧ Faulted 5 s t)

/-- 41_chunk_decoder.md R135: the operand is the tag's low 6 bits; INDEX fetches the slot and writes no slot; with no
tag byte left the step faults. -/
def Obligations.IndexReadCompletes : Prop :=
  (∀ (t : Byte) (bs : List Byte), t.toNat ≤ 0x3F →
    decodeAt .chunk (t :: bs) = .ok (.index (t.extractLsb' 0 6), bs)) ∧
  (∀ (idx : BitVec 6) (s : State), ChunkReadable s → s.npx.toNat < s.w.toNat * s.h.toNat →
    let px := cacheRead s.cache idx
    exec (.index idx) s = .next { s with
      ipos := s.ipos + 1, prev := px,
      pixout := s.pixout ++ (if s.ch = 3 then [px.r, px.g, px.b] else [px.r, px.g, px.b, px.a]), npx := s.npx + 1,
      phase := if s.npx.toNat + 1 = s.w.toNat * s.h.toNat then .trailer else .body }) ∧
  (∀ s : State, Undisturbed s → ChunkReadable s → s.inp.drop s.ipos = [] →
    ∃ t, step s = .next t ∧ Faulted 5 s t)

/-- 41_chunk_decoder.md R136: the operands are the tag's bits 5:4, 3:2 and 1:0; DIFF adds each field less 2 to its
channel modulo 256, in independent lanes, alpha unchanged; with no tag byte left the step faults. That green stands in
bits 3:2 and blue in 1:0 is a reading the spec marks as its own (N3, G5; assumption log 18). -/
def Obligations.DiffReadCompletes : Prop :=
  (∀ (t : Byte) (bs : List Byte), 0x40 ≤ t.toNat → t.toNat ≤ 0x7F →
    decodeAt .chunk (t :: bs) = .ok (.diff (t.extractLsb' 4 2) (t.extractLsb' 2 2) (t.extractLsb' 0 2), bs)) ∧
  (∀ (fr fg fb : BitVec 2) (s : State), ChunkReadable s → s.npx.toNat < s.w.toNat * s.h.toNat →
    let px : Pixel := ⟨s.prev.r + (fr.zeroExtend 8 - 2), s.prev.g + (fg.zeroExtend 8 - 2),
      s.prev.b + (fb.zeroExtend 8 - 2), s.prev.a⟩
    exec (.diff fr fg fb) s = .next { s with
      ipos := s.ipos + 1, cache := cacheWrite s.cache (Machine.hash px) px, prev := px,
      pixout := s.pixout ++ (if s.ch = 3 then [px.r, px.g, px.b] else [px.r, px.g, px.b, px.a]), npx := s.npx + 1,
      phase := if s.npx.toNat + 1 = s.w.toNat * s.h.toNat then .trailer else .body }) ∧
  (∀ s : State, Undisturbed s → ChunkReadable s → s.inp.drop s.ipos = [] →
    ∃ t, step s = .next t ∧ Faulted 5 s t)

/-- 41_chunk_decoder.md R137: the operands are the tag's low 6 bits and the two nibbles of the second byte; LUMA adds
the green field less 32 to every channel, and the other two fields less 8 to red and blue, modulo 256 after every
addition, alpha unchanged; a missing second byte is a truncated chunk. -/
def Obligations.LumaReadCompletes : Prop :=
  (∀ (t b : Byte) (bs : List Byte), 0x80 ≤ t.toNat → t.toNat ≤ 0xBF →
    decodeAt .chunk (t :: b :: bs) = .ok (.luma (t.extractLsb' 0 6) (b.extractLsb' 4 4) (b.extractLsb' 0 4), bs)) ∧
  (∀ (fg : BitVec 6) (frg fbg : BitVec 4) (s : State), ChunkReadable s → s.npx.toNat < s.w.toNat * s.h.toNat →
    let dg : Byte := fg.zeroExtend 8 - 32
    let px : Pixel := ⟨s.prev.r + (frg.zeroExtend 8 - 8 + dg), s.prev.g + dg, s.prev.b + (fbg.zeroExtend 8 - 8 + dg),
      s.prev.a⟩
    exec (.luma fg frg fbg) s = .next { s with
      ipos := s.ipos + 2, cache := cacheWrite s.cache (Machine.hash px) px, prev := px,
      pixout := s.pixout ++ (if s.ch = 3 then [px.r, px.g, px.b] else [px.r, px.g, px.b, px.a]), npx := s.npx + 1,
      phase := if s.npx.toNat + 1 = s.w.toNat * s.h.toNat then .trailer else .body }) ∧
  (∀ (t0 : Byte) (s : State), Undisturbed s → ChunkReadable s → 0x80 ≤ t0.toNat → t0.toNat ≤ 0xBF →
    s.inp.drop s.ipos = [t0] → ∃ t, step s = .next t ∧ Faulted 5 s t)

/-- 41_chunk_decoder.md R138: the operand is the tag's low 6 bits, 0 to 61; RUN outputs `prev` frun + 1 times and writes
it to its slot once, or, where that would pass the target, raises `E_RUN_OVERSHOOT`. -/
def Obligations.RunReadCompletes : Prop :=
  (∀ (t : Byte) (bs : List Byte), 0xC0 ≤ t.toNat → t.toNat ≤ 0xFD →
    decodeAt .chunk (t :: bs) = .ok (.run (t.extractLsb' 0 6), bs) ∧ (t.extractLsb' 0 6).toNat ≤ 61) ∧
  (∀ (frun : BitVec 6) (s : State), ChunkReadable s → frun.toNat ≤ 61 →
    if s.npx.toNat + (frun.toNat + 1) > s.w.toNat * s.h.toNat then
      ∃ t, exec (.run frun) s = .next t ∧ Faulted 6 s t
    else
      exec (.run frun) s = .next { s with
        ipos := s.ipos + 1, cache := cacheWrite s.cache (Machine.hash s.prev) s.prev,
        pixout := s.pixout ++ (List.replicate (frun.toNat + 1)
          (if s.ch = 3 then [s.prev.r, s.prev.g, s.prev.b] else [s.prev.r, s.prev.g, s.prev.b, s.prev.a])).flatten,
        npx := s.npx + BitVec.ofNat 64 (frun.toNat + 1),
        phase := if s.npx.toNat + (frun.toNat + 1) = s.w.toNat * s.h.toNat then .trailer else .body })

/-- 20_memory.md R54, R56: a chunk that is read stores, at most, the four bytes of the slot its pixel hashes to; an
INDEX stores nothing. -/
def Obligations.ChunkReadStoresOneSlot : Prop :=
  ∀ (i : Instr) (s t : State), positionOf i = .chunk → s.mode = .dec → exec i s = .next t →
    (∀ a, a < slotAddr (Machine.hash t.prev) ∨ slotAddr (Machine.hash t.prev) + 3 < a →
      memRead t.cache a = memRead s.cache a) ∧
    (∀ idx, i = .index idx → ∀ a, memRead t.cache a = memRead s.cache a)

/-- 41_chunk_decoder.md R130: what a chunk that is read leaves unchanged: everything but `phase`, `ipos`, `cache`,
`prev`, `npx`, PIXOUT, and `err_cause` where the step faults. -/
def Obligations.ChunkReadFrame : Prop :=
  ∀ (i : Instr) (s t : State), positionOf i = .chunk → s.mode = .dec → exec i s = .next t →
    HeaderSame s t ∧ HostSideSame s t ∧ t.run = s.run ∧ t.opos = s.opos ∧ t.out = s.out ∧ t.free = s.free ∧
      (t.phase ≠ .err → t.errCause = s.errCause)

/-- 70_reset_and_hazards.md R253, through 20_memory.md R53 and R54: a pixel stored by a chunk of any kind but INDEX (which
stores none) is what the very next INDEX of its slot fetches, and a pixel that differs from `prev` and is encoded hits
at the very next lookup. -/
def Obligations.NextIndexFetchesTheStoredPixel : Prop :=
  (∀ (i : Instr) (s : State), positionOf i = .chunk → (∀ idx, i ≠ .index idx) → ChunkReadable s →
    Memory.wf s.cache = true →
    s.npx.toNat + chunkPixels i < s.w.toNat * s.h.toNat →
    ∃ t u, exec i s = .next t ∧ t.phase = .body ∧ exec (.index (Machine.hash t.prev)) t = .next u ∧
      u.prev = t.prev ∧ u.cache = t.cache ∧ (∀ r g b a, i = .rgba r g b a → t.prev = ⟨r, g, b, a⟩)) ∧
  (∀ (s : State) (px : Pixel), Undisturbed s → ChunkWritable s → LegalLayout s → Memory.wf s.cache = true →
    nextPixel s = some px → px ≠ s.prev → ∃ t, step s = .next t ∧ t.prev = px ∧ hit t px = true)

/-! ### Emitting the six chunks -/

/-- 42_chunk_encoder.md R167 to R171, 30_encoding.md R90: the bytes each single-pixel chunk appends, and that it
changes nothing else. That green stands in bits 3:2 and blue in 1:0 of the DIFF byte is a reading the spec marks as its
own (N3, G5; assumption log 18). -/
def Obligations.ChunkEmitCompletes : Prop :=
  ∀ s : State, ChunkWritable s →
    (∀ idx : BitVec 6, exec (.index idx) s = .next { s with
      out := s.out ++ [BitVec.ofNat 8 idx.toNat], opos := s.opos + 1 }) ∧
    (∀ fr fg fb : BitVec 2, exec (.diff fr fg fb) s = .next { s with
      out := s.out ++ [BitVec.ofNat 8 (0x40 + 16 * fr.toNat + 4 * fg.toNat + fb.toNat)], opos := s.opos + 1 }) ∧
    (∀ (fg : BitVec 6) (frg fbg : BitVec 4), exec (.luma fg frg fbg) s = .next { s with
      out := s.out ++ [BitVec.ofNat 8 (0x80 + fg.toNat), BitVec.ofNat 8 (16 * frg.toNat + fbg.toNat)],
      opos := s.opos + 2 }) ∧
    (∀ r g b : Byte, exec (.rgb r g b) s = .next { s with out := s.out ++ [0xFE, r, g, b], opos := s.opos + 4 }) ∧
    (∀ r g b a : Byte, exec (.rgba r g b a) s = .next { s with
      out := s.out ++ [0xFF, r, g, b, a], opos := s.opos + 5 })

/-- 42_chunk_encoder.md R163: the RUN byte, the cache write of the repeated pixel, and the counter cleared. -/
def Obligations.RunEmitCompletes : Prop :=
  ∀ (s : State), ChunkWritable s → 1 ≤ s.run.toNat → s.run.toNat ≤ 62 →
    exec (.run (s.run - 1)) s = .next { s with
      out := s.out ++ [BitVec.ofNat 8 (0xC0 + (s.run.toNat - 1))], opos := s.opos + 1,
      cache := cacheWrite s.cache (Machine.hash s.prev) s.prev, run := 0 }

/-- 42_chunk_encoder.md R163, R167 to R171: what emitting a chunk leaves unchanged; only a RUN stores to the cache, in
the slot of `prev`, and only a RUN changes `run`. -/
def Obligations.ChunkEmitFrame : Prop :=
  ∀ (i : Instr) (s t : State), positionOf i = .chunk → s.mode = .enc → exec i s = .next t →
    HeaderSame s t ∧ HostSideSame s t ∧ t.phase = s.phase ∧ t.errCause = s.errCause ∧ t.prev = s.prev ∧
      t.npx = s.npx ∧ t.ipos = s.ipos ∧ t.pixout = s.pixout ∧ t.free = s.free ∧
      t.out = s.out ++ encode i ∧ t.opos = s.opos + recordLength i ∧
      ((∀ f, i ≠ .run f) → t.run = s.run ∧ ∀ a, memRead t.cache a = memRead s.cache a) ∧
      (∀ a, a < slotAddr (Machine.hash s.prev) ∨ slotAddr (Machine.hash s.prev) + 3 < a →
        memRead t.cache a = memRead s.cache a)

/-- 40_header_codec.md R110 to R113: what HEADER and END leave unchanged (of PIXOUT R230 lets nothing be said where the
step ends in ERR). -/
def Obligations.PositionalFrame : Prop :=
  ∀ (i : Instr) (s t : State), positionOf i ≠ .chunk → exec i s = .next t →
    HostSideSame s t ∧ t.mode = s.mode ∧ t.prev = s.prev ∧ t.run = s.run ∧ t.npx = s.npx ∧
      (t.phase ≠ .err → t.pixout = s.pixout) ∧ t.free = s.free ∧ (∀ a, memRead t.cache a = memRead s.cache a) ∧
      (t.phase ≠ .err → t.errCause = s.errCause) ∧
      (s.mode = .enc ∨ positionOf i = .trailer → t.w = s.w ∧ t.h = s.h ∧ t.ch = s.ch ∧ t.cs = s.cs) ∧
      (s.mode = .enc → t.ipos = s.ipos) ∧ (s.mode = .dec → t.out = s.out ∧ t.opos = s.opos)

/-! ### The encoder pixel step -/

/-- 42_chunk_encoder.md R161: the next `CH` bytes of PIXIN, alpha 255 when the layout is RGB. -/
def Obligations.NextPixelTakesTheLayoutsBytes : Prop :=
  ∀ (s : State) (r g b a : Byte) (rest : List Byte),
    (s.ch = 3 → s.pixin.drop (s.npx.toNat * 3) = r :: g :: b :: rest → nextPixel s = some ⟨r, g, b, 255⟩) ∧
    (s.ch = 4 → s.pixin.drop (s.npx.toNat * 4) = r :: g :: b :: a :: rest → nextPixel s = some ⟨r, g, b, a⟩)

/-- 42_chunk_encoder.md R165, 00_scope.md R7: the difference of two channels is the one number of -128 to 127 that is
congruent to it modulo 256. -/
def Obligations.DeltaIsTheSignedDifference : Prop :=
  ∀ a b : Byte, -128 ≤ delta a b ∧ delta a b ≤ 127 ∧ (delta a b - ((a.toNat : Int) - b.toNat)) % 256 = 0

/-- 42_chunk_encoder.md R162: a pixel equal to `prev` is only counted, unless the count reaches 62 or the pixel is the
last, when the run is flushed as one RUN chunk. -/
def Obligations.RepeatedPixelIsCountedOrFlushed : Prop :=
  ∀ s : State, Undisturbed s → ChunkWritable s → LegalLayout s → s.npx.toNat < s.w.toNat * s.h.toNat →
    s.run.toNat ≤ 61 → nextPixel s = some s.prev →
    if s.run.toNat + 1 = 62 ∨ s.npx.toNat + 1 = s.w.toNat * s.h.toNat then
      step s = .next { s with
        npx := s.npx + 1, run := 0, out := s.out ++ [BitVec.ofNat 8 (0xC0 + s.run.toNat)], opos := s.opos + 1,
        cache := cacheWrite s.cache (Machine.hash s.prev) s.prev,
        phase := if s.npx.toNat + 1 = s.w.toNat * s.h.toNat then .trailer else .body }
    else step s = .next { s with npx := s.npx + 1, run := s.run + 1 }

/-- 42_chunk_encoder.md R160, R164, R166: a pixel that differs from `prev` flushes the pending run and then emits one
chunk, by strict priority INDEX, DIFF, LUMA, RGB, RGBA; on a miss its slot takes the pixel; `prev` becomes the pixel.
That green stands in bits 3:2 and blue in 1:0 of the DIFF byte is a reading the spec marks as its own (N3, G5;
assumption log 18). -/
def Obligations.DifferingPixelEmitsByPriority : Prop :=
  ∀ (s : State) (px : Pixel), Undisturbed s → ChunkWritable s → LegalLayout s →
    s.npx.toNat < s.w.toNat * s.h.toNat → s.run.toNat ≤ 61 → nextPixel s = some px → px ≠ s.prev →
    let flush : List Byte := if s.run = 0 then [] else [BitVec.ofNat 8 (0xC0 + (s.run.toNat - 1))]
    let cache := if s.run = 0 then s.cache else cacheWrite s.cache (Machine.hash s.prev) s.prev
    let dr := delta px.r s.prev.r
    let dg := delta px.g s.prev.g
    let db := delta px.b s.prev.b
    let sameA := px.a = s.prev.a
    let diffOk := sameA ∧ -2 ≤ dr ∧ dr ≤ 1 ∧ -2 ≤ dg ∧ dg ≤ 1 ∧ -2 ≤ db ∧ db ≤ 1
    let lumaOk := sameA ∧ -32 ≤ dg ∧ dg ≤ 31 ∧ -8 ≤ dr - dg ∧ dr - dg ≤ 7 ∧ -8 ≤ db - dg ∧ db - dg ≤ 7
    let hit := cacheRead cache (Machine.hash px) = px
    let chunk : List Byte :=
      if hit then [BitVec.ofNat 8 (Machine.hash px).toNat]
      else if diffOk then [BitVec.ofInt 8 (0x40 + 16 * (dr + 2) + 4 * (dg + 2) + (db + 2))]
      else if lumaOk then
        [BitVec.ofInt 8 (0x80 + (dg + 32)), BitVec.ofInt 8 (16 * (dr - dg + 8) + (db - dg + 8))]
      else if sameA then [0xFE, px.r, px.g, px.b]
      else [0xFF, px.r, px.g, px.b, px.a]
    step s = .next { s with
      npx := s.npx + 1, run := 0, prev := px, out := s.out ++ flush ++ chunk,
      opos := s.opos + flush.length + chunk.length,
      cache := if hit then cache else cacheWrite cache (Machine.hash px) px,
      phase := if s.npx.toNat + 1 = s.w.toNat * s.h.toNat then .trailer else .body }

/-- 43_sequencer_and_commands.md R201, R204: in BODY without an offered pixel the sequencer has no step; it waits, and
all state is kept (assumption log 9). -/
def Obligations.EncoderWaitsWithoutAPixel : Prop :=
  ∀ s : State, Undisturbed s → ChunkWritable s → LegalLayout s →
    s.pixin.length < (s.npx.toNat + 1) * s.ch.toNat → step s = .next s

/-- 42_chunk_encoder.md R172: a pixel step emits 0 bytes, 1 byte, or up to 6 bytes. -/
def Obligations.PixelStepEmitsAtMostSixBytes : Prop :=
  ∀ s t : State, Undisturbed s → ChunkWritable s → step s = .next t →
    ∃ bs : List Byte, t.out = s.out ++ bs ∧ bs.length ≤ 6 ∧ t.opos = s.opos + bs.length

/-- 42_chunk_encoder.md R175's core: the chunk the encoder selects for a pixel is read by a decoder that holds the same
`prev` and the same cache as that very pixel, and both leave the same cache (20_memory.md R66). -/
def Obligations.SelectedChunkReadsBackThePixel : Prop :=
  ∀ (e d : State) (px : Pixel), ChunkReadable d → d.prev = e.prev → d.cache = e.cache →
    ∃ t, exec (selectChunk e px) d = .next t ∧ t.prev = px ∧ t.cache = (lookupWrite px e).cache ∧
      t.npx = d.npx + 1

/-! ### The cache -/

/-- 20_memory.md R52: the slot index of a pixel. -/
def Obligations.HashIsTheWeightedSum : Prop :=
  ∀ p : Pixel,
    (Machine.hash p).toNat = (p.r.toNat * 3 + p.g.toNat * 5 + p.b.toNat * 7 + p.a.toNat * 11) % 64 ∧
      p.r.toNat * 3 + p.g.toNat * 5 + p.b.toNat * 7 + p.a.toNat * 11 ≤ 6630

/-! ### START, reset, status -/

/-- 43_sequencer_and_commands.md R200, 10_state.md R35: the START command in the three phases that enable it. -/
def Obligations.StartInitialisesTheRun : Prop :=
  ∀ s : State, s.rst = false → s.cmdStart = true → (s.phase = .idle ∨ s.phase = .done ∨ s.phase = .err) →
    ∃ t, step s = .next t ∧ (∀ i, cacheRead t.cache i = ⟨0, 0, 0, 0⟩) ∧ t.prev = ⟨0, 0, 0, 255⟩ ∧ t.run = 0 ∧
      t.npx = 0 ∧ t.ipos = 0 ∧ t.opos = 0 ∧
      (s.cfgMode = 1 → t.mode = .dec ∧ t.phase = .hdr ∧ t.errCause = 0) ∧
      (s.cfgMode = 0 → t.mode = .enc ∧ t.w = s.cfgWidth ∧ t.h = s.cfgHeight ∧
        t.cs = s.cfgColorspace.zeroExtend 8 ∧
        if s.cfgChannels = 3 ∨ s.cfgChannels = 4 then t.ch = s.cfgChannels ∧ t.phase = .hdr ∧ t.errCause = 0
        else t.phase = .err ∧ t.errCause = 8)

/-- 43_sequencer_and_commands.md R206, 93_implementation_defined.md U12: the model has no move for a START while a run
is in progress (assumption log 10). -/
def Obligations.StartWhileBusyIsRefused : Prop :=
  ∀ s : State, s.rst = false → s.cmdStart = true → (s.phase = .hdr ∨ s.phase = .body ∨ s.phase = .trailer) →
    step s = .refused .startWhileBusy

/-- 10_state.md R34, 70_reset_and_hazards.md R250: after hardware reset, asserted in any state, `phase = IDLE` and
`err_cause = 0`, hence no status flag; so is the state the model starts from. -/
def Obligations.HardwareResetLeavesIdle : Prop :=
  (∀ s : State, s.rst = true → ∃ t, step s = .next t ∧ t.phase = .idle ∧ t.errCause = 0 ∧ stBusy t = false ∧
    stDone t = false ∧ stErr t = false) ∧
  State.reset.phase = .idle ∧ State.reset.errCause = 0

/-- 43_sequencer_and_commands.md R201, R202 (no step is enabled in IDLE, DONE and ERR) and R205, 60_exceptions.md R225,
70_reset_and_hazards.md R250 ("after reset the block does nothing until START"): without reset or START, in IDLE and
DONE all state is kept, in ERR the phase and the code are. That `step` answers a next state there, and not none, is the
model's reading (assumption log 9). -/
def Obligations.NothingRunsOutsideARun : Prop :=
  ∀ s : State, Undisturbed s →
    (s.phase = .idle ∨ s.phase = .done → step s = .next s) ∧
    (s.phase = .err → ∃ t, step s = .next t ∧ t.phase = .err ∧ t.errCause = s.errCause)

/-- 10_state.md R25, R29, R31: `st_phase` is the number of the phase, the three flags are functions of the phase and at
most one of them is set, and the ports SP2 to SP7 show `err_cause`, `W`, `H`, `CH`, `CS` and `npx`. -/
def Obligations.StatusFlagsFollowThePhase : Prop :=
  ∀ s : State,
    (s.phase = .idle → stPhase s = 0) ∧ (s.phase = .hdr → stPhase s = 1) ∧ (s.phase = .body → stPhase s = 2) ∧
    (s.phase = .trailer → stPhase s = 3) ∧ (s.phase = .done → stPhase s = 4) ∧ (s.phase = .err → stPhase s = 5) ∧
    (stBusy s = true ↔ s.phase = .hdr ∨ s.phase = .body ∨ s.phase = .trailer) ∧
    (stDone s = true ↔ s.phase = .done) ∧ (stErr s = true ↔ s.phase = .err) ∧
    ¬ (stBusy s = true ∧ stDone s = true) ∧ ¬ (stBusy s = true ∧ stErr s = true) ∧
    ¬ (stDone s = true ∧ stErr s = true) ∧ (stPhase s).toNat ≤ 5 ∧
    stErrCause s = s.errCause ∧ stWidth s = s.w ∧ stHeight s = s.h ∧ stChannels s = s.ch ∧
    stColorspace s = s.cs ∧ stNpx s = s.npx

/-! ### Faults -/

/-- 41_chunk_decoder.md R132, R130: where IN ends before the tag byte or before the last payload byte, the step raises
`E_CHUNK_TRUNC` and consumes nothing. -/
def Obligations.TruncatedChunkFaults : Prop :=
  ∀ s : State, Undisturbed s → s.mode = .dec → s.phase = .body →
    (∀ t0, (s.inp.drop s.ipos).head? = some t0 → (s.inp.drop s.ipos).length < chunkLength (classify t0)) →
    ∃ t, step s = .next t ∧ Faulted 5 s t

/-- 60_exceptions.md R222, R225: a step that ends in ERR from outside it has a code, and leaves the registers, the streams
and the cache as they were (PIXOUT apart, of which R230 lets nothing be said); the step after it stays in ERR with the
same code, registers and cache. That there is a next state after it is the model's reading (assumption log 9). -/
def Obligations.FaultingStepCommitsNothing : Prop :=
  ∀ s t : State, Undisturbed s → s.phase ≠ .err → step s = .next t → t.phase = .err →
    Faulted t.errCause s t ∧ 1 ≤ t.errCause.toNat ∧ t.errCause.toNat ≤ 7 ∧ HostSideSame s t ∧ t.opos = s.opos ∧
      t.out = s.out ∧ ∃ u, step t = .next u ∧ Faulted t.errCause t u

/-- 42_chunk_encoder.md R160, 60_exceptions.md R231 (f): no step of an encode faults. -/
def Obligations.EncoderStepsRaiseNoFault : Prop :=
  ∀ s t : State, Undisturbed s → s.mode = .enc → s.phase ≠ .err → step s = .next t →
    t.phase ≠ .err ∧ t.errCause = s.errCause

/-! ### Rules about the whole machine -/

/-- 43_sequencer_and_commands.md R203: the phases are visited in the one order IDLE, HDR, BODY, TRAILER, DONE, with ERR
reachable from START, HDR, BODY and TRAILER; BODY repeats, nothing else does. -/
def Obligations.PhasesFollowTheOrder : Prop :=
  ∀ s t : State, s.rst = false → step s = .next t →
    if s.cmdStart then
      (s.phase = .idle ∨ s.phase = .done ∨ s.phase = .err) ∧ (t.phase = .hdr ∨ t.phase = .err)
    else
      match s.phase with
      | .idle => t.phase = .idle
      | .hdr => t.phase = .body ∨ t.phase = .trailer ∨ t.phase = .err
      | .body => t.phase = .body ∨ t.phase = .trailer ∨ t.phase = .err
      | .trailer => t.phase = .done ∨ t.phase = .err
      | .done => t.phase = .done
      | .err => t.phase = .err

/-- 10_state.md R26, R24, R33: `mode` is constant for the whole run, the header registers are once the header step is
done, and no step of a run changes a port or a stream the host gives. -/
def Obligations.RunKeepsModeHeaderAndHostSide : Prop :=
  ∀ s t : State, Undisturbed s → step s = .next t →
    t.mode = s.mode ∧ HostSideSame s t ∧ (s.phase ≠ .hdr ∨ s.mode = .enc → HeaderSame s t)

/-- 10_state.md R30: the configuration ports are sampled only by START; PIXOUT is compared where the run has not faulted
(R230). -/
def Obligations.PortsAreReadByStartOnly : Prop :=
  ∀ (s t : State) (m : BitVec 1) (w h : BitVec 32) (c : BitVec 8) (cs : BitVec 1), s.cmdStart = false →
    step s = .next t →
    ∃ u, step (withPorts m w h c cs s) = .next u ∧ observed u = withPorts m w h c cs (observed t)

/-- 10_state.md R28, 20_memory.md R59, R64: in a run the positions never move backwards and the outputs only grow; an
encode neither reads IN nor writes PIXOUT, a decode writes nothing to OUT. -/
def Obligations.StreamsMoveForwardOnly : Prop :=
  ∀ s t : State, Undisturbed s → step s = .next t →
    s.ipos ≤ t.ipos ∧ s.opos ≤ t.opos ∧ s.out <+: t.out ∧ (t.phase ≠ .err → s.pixout <+: t.pixout) ∧
      (s.mode = .enc → t.ipos = s.ipos ∧ (t.phase ≠ .err → t.pixout = s.pixout)) ∧
      (s.mode = .dec → t.opos = s.opos ∧ t.out = s.out)

/-- 10_state.md R28: `ipos` advances by exactly the length of the record a step consumes; a step that faults does not
advance it. -/
def Obligations.RecordLengthMovesTheStream : Prop :=
  ∀ (s t : State) (p : Position) (i : Instr) (rest : List Byte), Undisturbed s → s.mode = .dec →
    phasePosition s.phase = some p → decodeAt p (s.inp.drop s.ipos) = .ok (i, rest) → step s = .next t →
    t.ipos = if t.phase = .err then s.ipos else s.ipos + recordLength i

/-- 41_chunk_decoder.md R142: each chunk step adds at least 1 to `npx` and does not pass the target, or faults. -/
def Obligations.ChunkStepProgressesOrFaults : Prop :=
  ∀ s : State, ControlInv s → Undisturbed s → s.mode = .dec → s.phase = .body →
    ∃ t, step s = .next t ∧
      (t.phase = .err ∨ (s.npx.toNat < t.npx.toNat ∧ t.npx.toNat ≤ s.w.toNat * s.h.toNat))

/-- 43_sequencer_and_commands.md R201, R202, R204, 60_exceptions.md R231: in every state a run can be in, a step that is
enabled answers a next state; the model never stops there. Where R201 and R202 enable no step (IDLE, DONE, ERR, and BODY
of an encode without a whole pixel), that `step` answers a next state too is the model's own reading (assumption log
9). -/
def Obligations.SequencerNeverStops : Prop :=
  ∀ s : State, ControlInv s → Undisturbed s → ∃ t, step s = .next t

/-! ### Invariants every step keeps -/

/-- The four invariants hold at the model's reset state. -/
def Obligations.InvariantsHoldAtReset : Prop :=
  ControlInv State.reset ∧ CacheInv State.reset ∧ StreamInv State.reset ∧ EncoderInv State.reset

/-- 10_state.md R22 to R27: every step keeps the bounds of `run` and `npx`, the legal layout, and the fault code's
agreement with the phase. -/
def Obligations.StepKeepsTheRegistersInRange : Prop :=
  ∀ s t : State, ControlInv s → step s = .next t → ControlInv t

/-- 20_memory.md R54 (a): every step keeps the cache in canonical form and every slot holding (0,0,0,0) or a pixel that
hashes to it. -/
def Obligations.StepKeepsTheCacheHashed : Prop :=
  ∀ s t : State, CacheInv s → step s = .next t → CacheInv t

/-- 10_state.md R28, 41_chunk_decoder.md R140, 43_sequencer_and_commands.md R205: every step keeps the positions equal
to the bytes produced and within the bytes given, and PIXOUT `CH` bytes a pixel. A START step keeps this because START
empties OUT and PIXOUT, which no rule states: it is the model's reading of R28 and R35 (assumption log 11). -/
def Obligations.StepKeepsTheStreamsCounted : Prop :=
  ∀ s t : State, ControlInv s → StreamInv s → step s = .next t → StreamInv t

/-- 42_chunk_encoder.md R173, R171, R174: every step of an encode keeps `prev` in its slot once a chunk is emitted, and
the bytes emitted within `CH + 1` a pixel. -/
def Obligations.StepKeepsTheEncoderBounded : Prop :=
  ∀ s t : State, ControlInv s → CacheInv s → EncoderInv s → step s = .next t → EncoderInv t

/-! ### The two halves agree -/

/-- 20_memory.md R66: as the encoder consumes one pixel, a decoder in step with it that is given the bytes so emitted
reads them in at most two steps and is in step again: the same cache, the same `prev`, the same pixels. -/
def Obligations.DecoderStaysInStepWithEncoder : Prop :=
  ∀ (e e' d : State) (px : Pixel) (bs rest : List Byte), ControlInv e → CacheInv e → InStep e d → e.phase = .body →
    nextPixel e = some px → step e = .next e' → e'.out = e.out ++ bs → d.inp.drop d.ipos = bs ++ rest →
    ∃ k d', k ≤ 2 ∧ runSteps k d = .next d' ∧ InStep e' d' ∧ d'.inp = d.inp ∧ d'.ipos = d.ipos + bs.length

/-- 42_chunk_encoder.md R175: decoding what an encode of an image produced gives the image back, for every size, both
layouts and every pixel buffer of the right length. -/
def Obligations.DecodeOfEncodeIsTheImage : Prop :=
  ∀ (w h : BitVec 32) (c : BitVec 8) (cs : BitVec 1) (pixels : List Byte), (c = 3 ∨ c = 4) →
    pixels.length = w.toNat * h.toNat * c.toNat →
    ∃ bytes, encodeImage w h c cs pixels = some (.ok bytes) ∧
      decodeStream bytes = some (.ok ⟨w, h, c, cs.zeroExtend 8, pixels⟩)

/-- 42_chunk_encoder.md R174: an encode gives `E_CFG_CHANNELS` when `CH` is neither 3 nor 4, else OUT, of 22 to
22 + (CH + 1) * W * H bytes. -/
def Obligations.EncodeGivesBytesWithinBounds : Prop :=
  ∀ (w h : BitVec 32) (c : BitVec 8) (cs : BitVec 1) (pixels : List Byte),
    pixels.length = w.toNat * h.toNat * c.toNat →
    if c = 3 ∨ c = 4 then
      ∃ bytes, encodeImage w h c cs pixels = some (.ok bytes) ∧ 22 ≤ bytes.length ∧
        bytes.length ≤ 22 + (c.toNat + 1) * (w.toNat * h.toNat)
    else encodeImage w h c cs pixels = some (.error 8)

/-- 41_chunk_decoder.md R142: a decode is a total function of IN: a fault code of 1 to 7, or an image whose pixel buffer
has `W * H * CH` bytes. -/
def Obligations.DecodeIsTotal : Prop :=
  ∀ bytes : List Byte,
    (∃ code : BitVec 4, decodeStream bytes = some (.error code) ∧ 1 ≤ code.toNat ∧ code.toNat ≤ 7) ∨
    (∃ im : Image, decodeStream bytes = some (.ok im) ∧ (im.channels = 3 ∨ im.channels = 4) ∧
      im.pixels.length = im.width.toNat * im.height.toNat * im.channels.toNat)
end

