-- ==== Sys2Proof/Laws/Memory.lean ====
section
/-! SUPPORT. The pixel-cache RAM: what a read gives after a write, and that every memory operation keeps the
canonical form (20_memory.md rules R51 to R55). -/

namespace Sys2Proof.Machine

open Sys2Proof

/-! ### One byte -/

/-- A write leaves every other address alone. -/
theorem memRead_memWrite_ne (m : Memory) {a b : Nat} (v : Byte) (h : b ≠ a) :
    memRead (memWrite m a v) b = memRead m b := by
  induction m with
  | nil => unfold memWrite; split <;> simp [memRead, h]
  | cons e m ih =>
    obtain ⟨c, u⟩ := e
    unfold memWrite
    split_ifs with h1 h2 h3 h4 <;> simp_all [memRead]

/-- Below a bound of the canonical form nothing is listed. -/
theorem memRead_of_lt (m : Memory) (lo a : Nat) (h : Memory.wfFrom lo m = true) (ha : a < lo) :
    memRead m a = Memory.unlisted := by
  induction m generalizing lo with
  | nil => rfl
  | cons e m ih =>
    obtain ⟨c, u⟩ := e
    simp only [Memory.wfFrom, Bool.and_eq_true, decide_eq_true_eq] at h
    have : a ≠ c := by omega
    simpa [memRead, this] using ih (c + 1) h.2 (by omega)

/-- A read of the address written gives the value written. -/
theorem memRead_memWrite_self (m : Memory) (lo a : Nat) (v : Byte) (h : Memory.wfFrom lo m = true) :
    memRead (memWrite m a v) a = v := by
  induction m generalizing lo with
  | nil => unfold memWrite; split <;> simp_all [memRead]
  | cons e m ih =>
    obtain ⟨c, u⟩ := e
    simp only [Memory.wfFrom, Bool.and_eq_true, decide_eq_true_eq] at h
    unfold memWrite
    split_ifs with h1 h2 h3 h4
    · have : a ≠ c := by omega
      simpa [memRead, this, h2] using memRead_of_lt m (c + 1) a h.2 (by omega)
    · simp [memRead]
    · subst h3
      simpa [h4] using memRead_of_lt m (a + 1) a h.2 (by omega)
    · simp [memRead]
    · simpa [memRead, h3] using ih (c + 1) h.2

/-- The canonical form above a bound holds above every lower one. -/
theorem wfFrom_mono (m : Memory) {lo lo' : Nat} (h : Memory.wfFrom lo m = true) (hl : lo' ≤ lo) :
    Memory.wfFrom lo' m = true := by
  cases m with
  | nil => rfl
  | cons e m =>
    simp only [Memory.wfFrom, Bool.and_eq_true, decide_eq_true_eq] at h ⊢
    exact ⟨⟨⟨by omega, h.1.1.2⟩, h.1.2⟩, h.2⟩

/-- Writing a byte inside the RAM keeps the canonical form. -/
theorem memWrite_wfFrom (m : Memory) (lo a : Nat) (v : Byte) (h : Memory.wfFrom lo m = true) (hlo : lo ≤ a)
    (ha : a < 4 * Config.cacheSlots) : Memory.wfFrom lo (memWrite m a v) = true := by
  induction m generalizing lo with
  | nil => unfold memWrite; split <;> simp_all [Memory.wfFrom]
  | cons e m ih =>
    obtain ⟨c, u⟩ := e
    have h' := h
    simp only [Memory.wfFrom, Bool.and_eq_true, decide_eq_true_eq] at h
    unfold memWrite
    split_ifs with h1 h2 h3 h4
    · exact h'
    · simp only [Memory.wfFrom, Bool.and_eq_true, decide_eq_true_eq]
      exact ⟨⟨⟨hlo, ha⟩, h2⟩, ⟨⟨by omega, h.1.1.2⟩, h.1.2⟩, h.2⟩
    · exact wfFrom_mono m h.2 (by omega)
    · simp only [Memory.wfFrom, Bool.and_eq_true, decide_eq_true_eq]
      exact ⟨⟨⟨hlo, ha⟩, h4⟩, by subst h3; exact h.2⟩
    · simp only [Memory.wfFrom, Bool.and_eq_true, decide_eq_true_eq]
      exact ⟨⟨⟨h.1.1.1, h.1.1.2⟩, h.1.2⟩, ih (c + 1) h.2 (by omega)⟩

/-- Writing a byte inside the RAM keeps the canonical form. -/
theorem memWrite_wf (m : Memory) (a : Nat) (v : Byte) (h : Memory.wf m = true) (ha : a < 4 * Config.cacheSlots) :
    Memory.wf (memWrite m a v) = true := memWrite_wfFrom m 0 a v h (Nat.zero_le a) ha

/-! ### One word -/

/-- The last byte of every slot lies inside the RAM (R51). -/
theorem slotAddr_lt (i : BitVec 6) : slotAddr i + 3 < 4 * Config.cacheSlots := by
  have := i.isLt
  simp only [slotAddr, Config.cacheSlots]
  omega

/-- Writing a slot keeps the canonical form. -/
theorem cacheWrite_wf (m : Memory) (i : BitVec 6) (p : Pixel) (h : Memory.wf m = true) :
    Memory.wf (cacheWrite m i p) = true := by
  have hi := slotAddr_lt i
  unfold cacheWrite writeWord
  exact memWrite_wf _ _ _ (memWrite_wf _ _ _ (memWrite_wf _ _ _ (memWrite_wf _ _ _ h (by omega)) (by omega))
    (by omega)) (by omega)

/-- The clear is in canonical form. -/
theorem cacheClear_wf : Memory.wf cacheClear = true := rfl

/-- The reset state's cache is in canonical form. -/
theorem reset_cache_wf : Memory.wf State.reset.cache = true := rfl

/-- A cache of free values is in canonical form. -/
theorem freeCache_wf (k n : Nat) : Memory.wf (freeCache k n) = true := by
  induction k with
  | zero => rfl
  | succ k ih => exact cacheWrite_wf _ _ _ ih

/-- Writing a slot leaves every byte outside its word alone. -/
theorem memRead_cacheWrite_ne (m : Memory) (i : BitVec 6) (p : Pixel) (a : Nat)
    (h : a < slotAddr i ∨ slotAddr i + 3 < a) : memRead (cacheWrite m i p) a = memRead m a := by
  unfold cacheWrite writeWord
  rw [memRead_memWrite_ne _ _ (by omega), memRead_memWrite_ne _ _ (by omega), memRead_memWrite_ne _ _ (by omega),
    memRead_memWrite_ne _ _ (by omega)]

/-- The four bytes of a slot after it is written. -/
theorem memRead_cacheWrite_self (m : Memory) (i : BitVec 6) (p : Pixel) (h : Memory.wf m = true) :
    memRead (cacheWrite m i p) (slotAddr i) = (pack p).extractLsb' 24 8 ∧
    memRead (cacheWrite m i p) (slotAddr i + 1) = (pack p).extractLsb' 16 8 ∧
    memRead (cacheWrite m i p) (slotAddr i + 2) = (pack p).extractLsb' 8 8 ∧
    memRead (cacheWrite m i p) (slotAddr i + 3) = (pack p).extractLsb' 0 8 := by
  have hi := slotAddr_lt i
  have h0 := memWrite_wf m (slotAddr i) ((pack p).extractLsb' 24 8) h (by omega)
  have h1 := memWrite_wf _ (slotAddr i + 1) ((pack p).extractLsb' 16 8) h0 (by omega)
  have h2 := memWrite_wf _ (slotAddr i + 2) ((pack p).extractLsb' 8 8) h1 (by omega)
  unfold cacheWrite writeWord
  refine ⟨?_, ?_, ?_, ?_⟩
  · rw [memRead_memWrite_ne _ _ (by omega), memRead_memWrite_ne _ _ (by omega), memRead_memWrite_ne _ _ (by omega)]
    exact memRead_memWrite_self _ 0 _ _ h
  · rw [memRead_memWrite_ne _ _ (by omega), memRead_memWrite_ne _ _ (by omega)]
    exact memRead_memWrite_self _ 0 _ _ h0
  · rw [memRead_memWrite_ne _ _ (by omega)]
    exact memRead_memWrite_self _ 0 _ _ h1
  · exact memRead_memWrite_self _ 0 _ _ h2

/-- A 32-bit word is its four bytes. -/
theorem word_of_bytes (w : BitVec 32) :
    (w.extractLsb' 24 8 ++ w.extractLsb' 16 8 ++ w.extractLsb' 8 8 ++ w.extractLsb' 0 8 : BitVec 32) = w := by
  apply BitVec.eq_of_getLsbD_eq
  intro i hi
  simp only [BitVec.getLsbD_append, BitVec.getLsbD_extractLsb']
  have h3 : 24 + (i - 8 - 8 - 8) = i ∨ i < 24 := by omega
  have h2 : 16 + (i - 8 - 8) = i ∨ i < 16 := by omega
  have h1 : 8 + (i - 8) = i ∨ i < 8 := by omega
  split_ifs <;> simp <;> try omega
  · rw [h1.resolve_right (by omega)]; simp; omega
  · rw [h2.resolve_right (by omega)]; simp; omega
  · rw [h3.resolve_right (by omega)]; simp; omega

/-- The four bytes of a word made of them (R6, R57). -/
theorem bytes_of_word (a b c d : Byte) :
    (a ++ b ++ c ++ d : BitVec 32).extractLsb' 24 8 = a ∧ (a ++ b ++ c ++ d : BitVec 32).extractLsb' 16 8 = b ∧
    (a ++ b ++ c ++ d : BitVec 32).extractLsb' 8 8 = c ∧ (a ++ b ++ c ++ d : BitVec 32).extractLsb' 0 8 = d := by
  refine ⟨?_, ?_, ?_, ?_⟩ <;>
  · apply BitVec.eq_of_getLsbD_eq
    intro i hi
    simp only [BitVec.getLsbD_extractLsb', BitVec.getLsbD_append, hi, decide_true, Bool.true_and]
    repeat (first | rw [if_pos (by omega)] | rw [if_neg (by omega)])
    first | rfl | (congr 1; omega)

/-- `unpack` is the inverse of `pack` (R6). -/
@[simp] theorem unpack_pack (p : Pixel) : unpack (pack p) = p := by
  obtain ⟨h0, h1, h2, h3⟩ := bytes_of_word p.r p.g p.b p.a
  simp only [unpack, pack, h0, h1, h2, h3]

/-- Every word is the packing of the pixel it holds (R6). -/
@[simp] theorem pack_unpack (w : BitVec 32) : pack (unpack w) = w := word_of_bytes w

/-- A read of the slot written gives the pixel written (R53, R253). -/
@[simp] theorem cacheRead_cacheWrite_self (m : Memory) (i : BitVec 6) (p : Pixel) (h : Memory.wf m = true) :
    cacheRead (cacheWrite m i p) i = p := by
  obtain ⟨h0, h1, h2, h3⟩ := memRead_cacheWrite_self m i p h
  simp only [cacheRead, readWord, h0, h1, h2, h3, word_of_bytes, unpack_pack]

/-- A write leaves every other slot alone (R53, R54). -/
theorem cacheRead_cacheWrite_ne (m : Memory) (i j : BitVec 6) (p : Pixel) (h : j ≠ i) :
    cacheRead (cacheWrite m i p) j = cacheRead m j := by
  have hn : j.toNat ≠ i.toNat := fun e => h (BitVec.eq_of_toNat_eq e)
  have hs : slotAddr j + 3 < slotAddr i ∨ slotAddr i + 3 < slotAddr j := by unfold slotAddr; omega
  simp only [cacheRead, readWord]
  rw [memRead_cacheWrite_ne _ _ _ _ (by omega), memRead_cacheWrite_ne _ _ _ _ (by omega),
    memRead_cacheWrite_ne _ _ _ _ (by omega), memRead_cacheWrite_ne _ _ _ _ (by omega)]

/-- Every slot of a cleared cache holds (0,0,0,0) (R55). -/
@[simp] theorem cacheRead_cacheClear (i : BitVec 6) : cacheRead cacheClear i = Config.cacheInit := by
  simp [cacheRead, readWord, cacheClear, memRead, Memory.unlisted, unpack, Config.cacheInit]

end Sys2Proof.Machine
end

