-- ==== Sys2Proof/Laws/State.lean ====
section
/-! SUPPORT. One lemma per field per named update of the state, each true by rfl, so that no later proof unfolds a
record update; and what closing the body can change. -/

namespace Sys2Proof.Machine

open Sys2Proof

/-! ### consume -/

@[simp] theorem consume_phase (n : Nat) (s : State) : (consume n s).phase = s.phase := rfl
@[simp] theorem consume_mode (n : Nat) (s : State) : (consume n s).mode = s.mode := rfl
@[simp] theorem consume_errCause (n : Nat) (s : State) : (consume n s).errCause = s.errCause := rfl
@[simp] theorem consume_prev (n : Nat) (s : State) : (consume n s).prev = s.prev := rfl
@[simp] theorem consume_run (n : Nat) (s : State) : (consume n s).run = s.run := rfl
@[simp] theorem consume_npx (n : Nat) (s : State) : (consume n s).npx = s.npx := rfl
@[simp] theorem consume_w (n : Nat) (s : State) : (consume n s).w = s.w := rfl
@[simp] theorem consume_h (n : Nat) (s : State) : (consume n s).h = s.h := rfl
@[simp] theorem consume_ch (n : Nat) (s : State) : (consume n s).ch = s.ch := rfl
@[simp] theorem consume_cs (n : Nat) (s : State) : (consume n s).cs = s.cs := rfl
@[simp] theorem consume_ipos (n : Nat) (s : State) : (consume n s).ipos = s.ipos + n := rfl
@[simp] theorem consume_opos (n : Nat) (s : State) : (consume n s).opos = s.opos := rfl
@[simp] theorem consume_cache (n : Nat) (s : State) : (consume n s).cache = s.cache := rfl
@[simp] theorem consume_cfgMode (n : Nat) (s : State) : (consume n s).cfgMode = s.cfgMode := rfl
@[simp] theorem consume_cfgWidth (n : Nat) (s : State) : (consume n s).cfgWidth = s.cfgWidth := rfl
@[simp] theorem consume_cfgHeight (n : Nat) (s : State) : (consume n s).cfgHeight = s.cfgHeight := rfl
@[simp] theorem consume_cfgChannels (n : Nat) (s : State) : (consume n s).cfgChannels = s.cfgChannels := rfl
@[simp] theorem consume_cfgColorspace (n : Nat) (s : State) : (consume n s).cfgColorspace = s.cfgColorspace := rfl
@[simp] theorem consume_cmdStart (n : Nat) (s : State) : (consume n s).cmdStart = s.cmdStart := rfl
@[simp] theorem consume_rst (n : Nat) (s : State) : (consume n s).rst = s.rst := rfl
@[simp] theorem consume_inp (n : Nat) (s : State) : (consume n s).inp = s.inp := rfl
@[simp] theorem consume_out (n : Nat) (s : State) : (consume n s).out = s.out := rfl
@[simp] theorem consume_pixin (n : Nat) (s : State) : (consume n s).pixin = s.pixin := rfl
@[simp] theorem consume_pixout (n : Nat) (s : State) : (consume n s).pixout = s.pixout := rfl
@[simp] theorem consume_free (n : Nat) (s : State) : (consume n s).free = s.free := rfl
@[simp] theorem consume_target (n : Nat) (s : State) : target (consume n s) = target s := rfl

/-! ### outBytes -/

@[simp] theorem outBytes_phase (bs : List Byte) (s : State) : (outBytes bs s).phase = s.phase := rfl
@[simp] theorem outBytes_mode (bs : List Byte) (s : State) : (outBytes bs s).mode = s.mode := rfl
@[simp] theorem outBytes_errCause (bs : List Byte) (s : State) : (outBytes bs s).errCause = s.errCause := rfl
@[simp] theorem outBytes_prev (bs : List Byte) (s : State) : (outBytes bs s).prev = s.prev := rfl
@[simp] theorem outBytes_run (bs : List Byte) (s : State) : (outBytes bs s).run = s.run := rfl
@[simp] theorem outBytes_npx (bs : List Byte) (s : State) : (outBytes bs s).npx = s.npx := rfl
@[simp] theorem outBytes_w (bs : List Byte) (s : State) : (outBytes bs s).w = s.w := rfl
@[simp] theorem outBytes_h (bs : List Byte) (s : State) : (outBytes bs s).h = s.h := rfl
@[simp] theorem outBytes_ch (bs : List Byte) (s : State) : (outBytes bs s).ch = s.ch := rfl
@[simp] theorem outBytes_cs (bs : List Byte) (s : State) : (outBytes bs s).cs = s.cs := rfl
@[simp] theorem outBytes_ipos (bs : List Byte) (s : State) : (outBytes bs s).ipos = s.ipos := rfl
@[simp] theorem outBytes_opos (bs : List Byte) (s : State) : (outBytes bs s).opos = s.opos + bs.length := rfl
@[simp] theorem outBytes_cache (bs : List Byte) (s : State) : (outBytes bs s).cache = s.cache := rfl
@[simp] theorem outBytes_cfgMode (bs : List Byte) (s : State) : (outBytes bs s).cfgMode = s.cfgMode := rfl
@[simp] theorem outBytes_cfgWidth (bs : List Byte) (s : State) : (outBytes bs s).cfgWidth = s.cfgWidth := rfl
@[simp] theorem outBytes_cfgHeight (bs : List Byte) (s : State) : (outBytes bs s).cfgHeight = s.cfgHeight := rfl
@[simp] theorem outBytes_cfgChannels (bs : List Byte) (s : State) : (outBytes bs s).cfgChannels = s.cfgChannels := rfl
@[simp] theorem outBytes_cfgColorspace (bs : List Byte) (s : State) : (outBytes bs s).cfgColorspace = s.cfgColorspace := rfl
@[simp] theorem outBytes_cmdStart (bs : List Byte) (s : State) : (outBytes bs s).cmdStart = s.cmdStart := rfl
@[simp] theorem outBytes_rst (bs : List Byte) (s : State) : (outBytes bs s).rst = s.rst := rfl
@[simp] theorem outBytes_inp (bs : List Byte) (s : State) : (outBytes bs s).inp = s.inp := rfl
@[simp] theorem outBytes_out (bs : List Byte) (s : State) : (outBytes bs s).out = s.out ++ bs := rfl
@[simp] theorem outBytes_pixin (bs : List Byte) (s : State) : (outBytes bs s).pixin = s.pixin := rfl
@[simp] theorem outBytes_pixout (bs : List Byte) (s : State) : (outBytes bs s).pixout = s.pixout := rfl
@[simp] theorem outBytes_free (bs : List Byte) (s : State) : (outBytes bs s).free = s.free := rfl
@[simp] theorem outBytes_target (bs : List Byte) (s : State) : target (outBytes bs s) = target s := rfl

/-! ### outPixels -/

@[simp] theorem outPixels_phase (bs : List Byte) (s : State) : (outPixels bs s).phase = s.phase := rfl
@[simp] theorem outPixels_mode (bs : List Byte) (s : State) : (outPixels bs s).mode = s.mode := rfl
@[simp] theorem outPixels_errCause (bs : List Byte) (s : State) : (outPixels bs s).errCause = s.errCause := rfl
@[simp] theorem outPixels_prev (bs : List Byte) (s : State) : (outPixels bs s).prev = s.prev := rfl
@[simp] theorem outPixels_run (bs : List Byte) (s : State) : (outPixels bs s).run = s.run := rfl
@[simp] theorem outPixels_npx (bs : List Byte) (s : State) : (outPixels bs s).npx = s.npx := rfl
@[simp] theorem outPixels_w (bs : List Byte) (s : State) : (outPixels bs s).w = s.w := rfl
@[simp] theorem outPixels_h (bs : List Byte) (s : State) : (outPixels bs s).h = s.h := rfl
@[simp] theorem outPixels_ch (bs : List Byte) (s : State) : (outPixels bs s).ch = s.ch := rfl
@[simp] theorem outPixels_cs (bs : List Byte) (s : State) : (outPixels bs s).cs = s.cs := rfl
@[simp] theorem outPixels_ipos (bs : List Byte) (s : State) : (outPixels bs s).ipos = s.ipos := rfl
@[simp] theorem outPixels_opos (bs : List Byte) (s : State) : (outPixels bs s).opos = s.opos := rfl
@[simp] theorem outPixels_cache (bs : List Byte) (s : State) : (outPixels bs s).cache = s.cache := rfl
@[simp] theorem outPixels_cfgMode (bs : List Byte) (s : State) : (outPixels bs s).cfgMode = s.cfgMode := rfl
@[simp] theorem outPixels_cfgWidth (bs : List Byte) (s : State) : (outPixels bs s).cfgWidth = s.cfgWidth := rfl
@[simp] theorem outPixels_cfgHeight (bs : List Byte) (s : State) : (outPixels bs s).cfgHeight = s.cfgHeight := rfl
@[simp] theorem outPixels_cfgChannels (bs : List Byte) (s : State) : (outPixels bs s).cfgChannels = s.cfgChannels := rfl
@[simp] theorem outPixels_cfgColorspace (bs : List Byte) (s : State) : (outPixels bs s).cfgColorspace = s.cfgColorspace := rfl
@[simp] theorem outPixels_cmdStart (bs : List Byte) (s : State) : (outPixels bs s).cmdStart = s.cmdStart := rfl
@[simp] theorem outPixels_rst (bs : List Byte) (s : State) : (outPixels bs s).rst = s.rst := rfl
@[simp] theorem outPixels_inp (bs : List Byte) (s : State) : (outPixels bs s).inp = s.inp := rfl
@[simp] theorem outPixels_out (bs : List Byte) (s : State) : (outPixels bs s).out = s.out := rfl
@[simp] theorem outPixels_pixin (bs : List Byte) (s : State) : (outPixels bs s).pixin = s.pixin := rfl
@[simp] theorem outPixels_pixout (bs : List Byte) (s : State) : (outPixels bs s).pixout = s.pixout ++ bs := rfl
@[simp] theorem outPixels_free (bs : List Byte) (s : State) : (outPixels bs s).free = s.free := rfl
@[simp] theorem outPixels_target (bs : List Byte) (s : State) : target (outPixels bs s) = target s := rfl

/-! ### storePixel -/

@[simp] theorem storePixel_phase (p : Pixel) (s : State) : (storePixel p s).phase = s.phase := rfl
@[simp] theorem storePixel_mode (p : Pixel) (s : State) : (storePixel p s).mode = s.mode := rfl
@[simp] theorem storePixel_errCause (p : Pixel) (s : State) : (storePixel p s).errCause = s.errCause := rfl
@[simp] theorem storePixel_prev (p : Pixel) (s : State) : (storePixel p s).prev = s.prev := rfl
@[simp] theorem storePixel_run (p : Pixel) (s : State) : (storePixel p s).run = s.run := rfl
@[simp] theorem storePixel_npx (p : Pixel) (s : State) : (storePixel p s).npx = s.npx := rfl
@[simp] theorem storePixel_w (p : Pixel) (s : State) : (storePixel p s).w = s.w := rfl
@[simp] theorem storePixel_h (p : Pixel) (s : State) : (storePixel p s).h = s.h := rfl
@[simp] theorem storePixel_ch (p : Pixel) (s : State) : (storePixel p s).ch = s.ch := rfl
@[simp] theorem storePixel_cs (p : Pixel) (s : State) : (storePixel p s).cs = s.cs := rfl
@[simp] theorem storePixel_ipos (p : Pixel) (s : State) : (storePixel p s).ipos = s.ipos := rfl
@[simp] theorem storePixel_opos (p : Pixel) (s : State) : (storePixel p s).opos = s.opos := rfl
@[simp] theorem storePixel_cache (p : Pixel) (s : State) : (storePixel p s).cache = cacheWrite s.cache (hash p) p := rfl
@[simp] theorem storePixel_cfgMode (p : Pixel) (s : State) : (storePixel p s).cfgMode = s.cfgMode := rfl
@[simp] theorem storePixel_cfgWidth (p : Pixel) (s : State) : (storePixel p s).cfgWidth = s.cfgWidth := rfl
@[simp] theorem storePixel_cfgHeight (p : Pixel) (s : State) : (storePixel p s).cfgHeight = s.cfgHeight := rfl
@[simp] theorem storePixel_cfgChannels (p : Pixel) (s : State) : (storePixel p s).cfgChannels = s.cfgChannels := rfl
@[simp] theorem storePixel_cfgColorspace (p : Pixel) (s : State) : (storePixel p s).cfgColorspace = s.cfgColorspace := rfl
@[simp] theorem storePixel_cmdStart (p : Pixel) (s : State) : (storePixel p s).cmdStart = s.cmdStart := rfl
@[simp] theorem storePixel_rst (p : Pixel) (s : State) : (storePixel p s).rst = s.rst := rfl
@[simp] theorem storePixel_inp (p : Pixel) (s : State) : (storePixel p s).inp = s.inp := rfl
@[simp] theorem storePixel_out (p : Pixel) (s : State) : (storePixel p s).out = s.out := rfl
@[simp] theorem storePixel_pixin (p : Pixel) (s : State) : (storePixel p s).pixin = s.pixin := rfl
@[simp] theorem storePixel_pixout (p : Pixel) (s : State) : (storePixel p s).pixout = s.pixout := rfl
@[simp] theorem storePixel_free (p : Pixel) (s : State) : (storePixel p s).free = s.free := rfl
@[simp] theorem storePixel_target (p : Pixel) (s : State) : target (storePixel p s) = target s := rfl

/-! ### setPrev -/

@[simp] theorem setPrev_phase (p : Pixel) (s : State) : (setPrev p s).phase = s.phase := rfl
@[simp] theorem setPrev_mode (p : Pixel) (s : State) : (setPrev p s).mode = s.mode := rfl
@[simp] theorem setPrev_errCause (p : Pixel) (s : State) : (setPrev p s).errCause = s.errCause := rfl
@[simp] theorem setPrev_prev (p : Pixel) (s : State) : (setPrev p s).prev = p := rfl
@[simp] theorem setPrev_run (p : Pixel) (s : State) : (setPrev p s).run = s.run := rfl
@[simp] theorem setPrev_npx (p : Pixel) (s : State) : (setPrev p s).npx = s.npx := rfl
@[simp] theorem setPrev_w (p : Pixel) (s : State) : (setPrev p s).w = s.w := rfl
@[simp] theorem setPrev_h (p : Pixel) (s : State) : (setPrev p s).h = s.h := rfl
@[simp] theorem setPrev_ch (p : Pixel) (s : State) : (setPrev p s).ch = s.ch := rfl
@[simp] theorem setPrev_cs (p : Pixel) (s : State) : (setPrev p s).cs = s.cs := rfl
@[simp] theorem setPrev_ipos (p : Pixel) (s : State) : (setPrev p s).ipos = s.ipos := rfl
@[simp] theorem setPrev_opos (p : Pixel) (s : State) : (setPrev p s).opos = s.opos := rfl
@[simp] theorem setPrev_cache (p : Pixel) (s : State) : (setPrev p s).cache = s.cache := rfl
@[simp] theorem setPrev_cfgMode (p : Pixel) (s : State) : (setPrev p s).cfgMode = s.cfgMode := rfl
@[simp] theorem setPrev_cfgWidth (p : Pixel) (s : State) : (setPrev p s).cfgWidth = s.cfgWidth := rfl
@[simp] theorem setPrev_cfgHeight (p : Pixel) (s : State) : (setPrev p s).cfgHeight = s.cfgHeight := rfl
@[simp] theorem setPrev_cfgChannels (p : Pixel) (s : State) : (setPrev p s).cfgChannels = s.cfgChannels := rfl
@[simp] theorem setPrev_cfgColorspace (p : Pixel) (s : State) : (setPrev p s).cfgColorspace = s.cfgColorspace := rfl
@[simp] theorem setPrev_cmdStart (p : Pixel) (s : State) : (setPrev p s).cmdStart = s.cmdStart := rfl
@[simp] theorem setPrev_rst (p : Pixel) (s : State) : (setPrev p s).rst = s.rst := rfl
@[simp] theorem setPrev_inp (p : Pixel) (s : State) : (setPrev p s).inp = s.inp := rfl
@[simp] theorem setPrev_out (p : Pixel) (s : State) : (setPrev p s).out = s.out := rfl
@[simp] theorem setPrev_pixin (p : Pixel) (s : State) : (setPrev p s).pixin = s.pixin := rfl
@[simp] theorem setPrev_pixout (p : Pixel) (s : State) : (setPrev p s).pixout = s.pixout := rfl
@[simp] theorem setPrev_free (p : Pixel) (s : State) : (setPrev p s).free = s.free := rfl
@[simp] theorem setPrev_target (p : Pixel) (s : State) : target (setPrev p s) = target s := rfl

/-! ### countPixels -/

@[simp] theorem countPixels_phase (n : Nat) (s : State) : (countPixels n s).phase = s.phase := rfl
@[simp] theorem countPixels_mode (n : Nat) (s : State) : (countPixels n s).mode = s.mode := rfl
@[simp] theorem countPixels_errCause (n : Nat) (s : State) : (countPixels n s).errCause = s.errCause := rfl
@[simp] theorem countPixels_prev (n : Nat) (s : State) : (countPixels n s).prev = s.prev := rfl
@[simp] theorem countPixels_run (n : Nat) (s : State) : (countPixels n s).run = s.run := rfl
@[simp] theorem countPixels_npx (n : Nat) (s : State) : (countPixels n s).npx = s.npx + BitVec.ofNat 64 n := rfl
@[simp] theorem countPixels_w (n : Nat) (s : State) : (countPixels n s).w = s.w := rfl
@[simp] theorem countPixels_h (n : Nat) (s : State) : (countPixels n s).h = s.h := rfl
@[simp] theorem countPixels_ch (n : Nat) (s : State) : (countPixels n s).ch = s.ch := rfl
@[simp] theorem countPixels_cs (n : Nat) (s : State) : (countPixels n s).cs = s.cs := rfl
@[simp] theorem countPixels_ipos (n : Nat) (s : State) : (countPixels n s).ipos = s.ipos := rfl
@[simp] theorem countPixels_opos (n : Nat) (s : State) : (countPixels n s).opos = s.opos := rfl
@[simp] theorem countPixels_cache (n : Nat) (s : State) : (countPixels n s).cache = s.cache := rfl
@[simp] theorem countPixels_cfgMode (n : Nat) (s : State) : (countPixels n s).cfgMode = s.cfgMode := rfl
@[simp] theorem countPixels_cfgWidth (n : Nat) (s : State) : (countPixels n s).cfgWidth = s.cfgWidth := rfl
@[simp] theorem countPixels_cfgHeight (n : Nat) (s : State) : (countPixels n s).cfgHeight = s.cfgHeight := rfl
@[simp] theorem countPixels_cfgChannels (n : Nat) (s : State) : (countPixels n s).cfgChannels = s.cfgChannels := rfl
@[simp] theorem countPixels_cfgColorspace (n : Nat) (s : State) : (countPixels n s).cfgColorspace = s.cfgColorspace := rfl
@[simp] theorem countPixels_cmdStart (n : Nat) (s : State) : (countPixels n s).cmdStart = s.cmdStart := rfl
@[simp] theorem countPixels_rst (n : Nat) (s : State) : (countPixels n s).rst = s.rst := rfl
@[simp] theorem countPixels_inp (n : Nat) (s : State) : (countPixels n s).inp = s.inp := rfl
@[simp] theorem countPixels_out (n : Nat) (s : State) : (countPixels n s).out = s.out := rfl
@[simp] theorem countPixels_pixin (n : Nat) (s : State) : (countPixels n s).pixin = s.pixin := rfl
@[simp] theorem countPixels_pixout (n : Nat) (s : State) : (countPixels n s).pixout = s.pixout := rfl
@[simp] theorem countPixels_free (n : Nat) (s : State) : (countPixels n s).free = s.free := rfl
@[simp] theorem countPixels_target (n : Nat) (s : State) : target (countPixels n s) = target s := rfl

/-! ### setRun -/

@[simp] theorem setRun_phase (r : BitVec 6) (s : State) : (setRun r s).phase = s.phase := rfl
@[simp] theorem setRun_mode (r : BitVec 6) (s : State) : (setRun r s).mode = s.mode := rfl
@[simp] theorem setRun_errCause (r : BitVec 6) (s : State) : (setRun r s).errCause = s.errCause := rfl
@[simp] theorem setRun_prev (r : BitVec 6) (s : State) : (setRun r s).prev = s.prev := rfl
@[simp] theorem setRun_run (r : BitVec 6) (s : State) : (setRun r s).run = r := rfl
@[simp] theorem setRun_npx (r : BitVec 6) (s : State) : (setRun r s).npx = s.npx := rfl
@[simp] theorem setRun_w (r : BitVec 6) (s : State) : (setRun r s).w = s.w := rfl
@[simp] theorem setRun_h (r : BitVec 6) (s : State) : (setRun r s).h = s.h := rfl
@[simp] theorem setRun_ch (r : BitVec 6) (s : State) : (setRun r s).ch = s.ch := rfl
@[simp] theorem setRun_cs (r : BitVec 6) (s : State) : (setRun r s).cs = s.cs := rfl
@[simp] theorem setRun_ipos (r : BitVec 6) (s : State) : (setRun r s).ipos = s.ipos := rfl
@[simp] theorem setRun_opos (r : BitVec 6) (s : State) : (setRun r s).opos = s.opos := rfl
@[simp] theorem setRun_cache (r : BitVec 6) (s : State) : (setRun r s).cache = s.cache := rfl
@[simp] theorem setRun_cfgMode (r : BitVec 6) (s : State) : (setRun r s).cfgMode = s.cfgMode := rfl
@[simp] theorem setRun_cfgWidth (r : BitVec 6) (s : State) : (setRun r s).cfgWidth = s.cfgWidth := rfl
@[simp] theorem setRun_cfgHeight (r : BitVec 6) (s : State) : (setRun r s).cfgHeight = s.cfgHeight := rfl
@[simp] theorem setRun_cfgChannels (r : BitVec 6) (s : State) : (setRun r s).cfgChannels = s.cfgChannels := rfl
@[simp] theorem setRun_cfgColorspace (r : BitVec 6) (s : State) : (setRun r s).cfgColorspace = s.cfgColorspace := rfl
@[simp] theorem setRun_cmdStart (r : BitVec 6) (s : State) : (setRun r s).cmdStart = s.cmdStart := rfl
@[simp] theorem setRun_rst (r : BitVec 6) (s : State) : (setRun r s).rst = s.rst := rfl
@[simp] theorem setRun_inp (r : BitVec 6) (s : State) : (setRun r s).inp = s.inp := rfl
@[simp] theorem setRun_out (r : BitVec 6) (s : State) : (setRun r s).out = s.out := rfl
@[simp] theorem setRun_pixin (r : BitVec 6) (s : State) : (setRun r s).pixin = s.pixin := rfl
@[simp] theorem setRun_pixout (r : BitVec 6) (s : State) : (setRun r s).pixout = s.pixout := rfl
@[simp] theorem setRun_free (r : BitVec 6) (s : State) : (setRun r s).free = s.free := rfl
@[simp] theorem setRun_target (r : BitVec 6) (s : State) : target (setRun r s) = target s := rfl

/-! ### setPhase -/

@[simp] theorem setPhase_phase (p : Phase) (s : State) : (setPhase p s).phase = p := rfl
@[simp] theorem setPhase_mode (p : Phase) (s : State) : (setPhase p s).mode = s.mode := rfl
@[simp] theorem setPhase_errCause (p : Phase) (s : State) : (setPhase p s).errCause = s.errCause := rfl
@[simp] theorem setPhase_prev (p : Phase) (s : State) : (setPhase p s).prev = s.prev := rfl
@[simp] theorem setPhase_run (p : Phase) (s : State) : (setPhase p s).run = s.run := rfl
@[simp] theorem setPhase_npx (p : Phase) (s : State) : (setPhase p s).npx = s.npx := rfl
@[simp] theorem setPhase_w (p : Phase) (s : State) : (setPhase p s).w = s.w := rfl
@[simp] theorem setPhase_h (p : Phase) (s : State) : (setPhase p s).h = s.h := rfl
@[simp] theorem setPhase_ch (p : Phase) (s : State) : (setPhase p s).ch = s.ch := rfl
@[simp] theorem setPhase_cs (p : Phase) (s : State) : (setPhase p s).cs = s.cs := rfl
@[simp] theorem setPhase_ipos (p : Phase) (s : State) : (setPhase p s).ipos = s.ipos := rfl
@[simp] theorem setPhase_opos (p : Phase) (s : State) : (setPhase p s).opos = s.opos := rfl
@[simp] theorem setPhase_cache (p : Phase) (s : State) : (setPhase p s).cache = s.cache := rfl
@[simp] theorem setPhase_cfgMode (p : Phase) (s : State) : (setPhase p s).cfgMode = s.cfgMode := rfl
@[simp] theorem setPhase_cfgWidth (p : Phase) (s : State) : (setPhase p s).cfgWidth = s.cfgWidth := rfl
@[simp] theorem setPhase_cfgHeight (p : Phase) (s : State) : (setPhase p s).cfgHeight = s.cfgHeight := rfl
@[simp] theorem setPhase_cfgChannels (p : Phase) (s : State) : (setPhase p s).cfgChannels = s.cfgChannels := rfl
@[simp] theorem setPhase_cfgColorspace (p : Phase) (s : State) : (setPhase p s).cfgColorspace = s.cfgColorspace := rfl
@[simp] theorem setPhase_cmdStart (p : Phase) (s : State) : (setPhase p s).cmdStart = s.cmdStart := rfl
@[simp] theorem setPhase_rst (p : Phase) (s : State) : (setPhase p s).rst = s.rst := rfl
@[simp] theorem setPhase_inp (p : Phase) (s : State) : (setPhase p s).inp = s.inp := rfl
@[simp] theorem setPhase_out (p : Phase) (s : State) : (setPhase p s).out = s.out := rfl
@[simp] theorem setPhase_pixin (p : Phase) (s : State) : (setPhase p s).pixin = s.pixin := rfl
@[simp] theorem setPhase_pixout (p : Phase) (s : State) : (setPhase p s).pixout = s.pixout := rfl
@[simp] theorem setPhase_free (p : Phase) (s : State) : (setPhase p s).free = s.free := rfl
@[simp] theorem setPhase_target (p : Phase) (s : State) : target (setPhase p s) = target s := rfl

/-! ### loadHeader -/

@[simp] theorem loadHeader_phase (w h : BitVec 32) (c cs : BitVec 8) (s : State) : (loadHeader w h c cs s).phase = s.phase := rfl
@[simp] theorem loadHeader_mode (w h : BitVec 32) (c cs : BitVec 8) (s : State) : (loadHeader w h c cs s).mode = s.mode := rfl
@[simp] theorem loadHeader_errCause (w h : BitVec 32) (c cs : BitVec 8) (s : State) : (loadHeader w h c cs s).errCause = s.errCause := rfl
@[simp] theorem loadHeader_prev (w h : BitVec 32) (c cs : BitVec 8) (s : State) : (loadHeader w h c cs s).prev = s.prev := rfl
@[simp] theorem loadHeader_run (w h : BitVec 32) (c cs : BitVec 8) (s : State) : (loadHeader w h c cs s).run = s.run := rfl
@[simp] theorem loadHeader_npx (w h : BitVec 32) (c cs : BitVec 8) (s : State) : (loadHeader w h c cs s).npx = s.npx := rfl
@[simp] theorem loadHeader_w (w h : BitVec 32) (c cs : BitVec 8) (s : State) : (loadHeader w h c cs s).w = w := rfl
@[simp] theorem loadHeader_h (w h : BitVec 32) (c cs : BitVec 8) (s : State) : (loadHeader w h c cs s).h = h := rfl
@[simp] theorem loadHeader_ch (w h : BitVec 32) (c cs : BitVec 8) (s : State) : (loadHeader w h c cs s).ch = c := rfl
@[simp] theorem loadHeader_cs (w h : BitVec 32) (c cs : BitVec 8) (s : State) : (loadHeader w h c cs s).cs = cs := rfl
@[simp] theorem loadHeader_ipos (w h : BitVec 32) (c cs : BitVec 8) (s : State) : (loadHeader w h c cs s).ipos = s.ipos := rfl
@[simp] theorem loadHeader_opos (w h : BitVec 32) (c cs : BitVec 8) (s : State) : (loadHeader w h c cs s).opos = s.opos := rfl
@[simp] theorem loadHeader_cache (w h : BitVec 32) (c cs : BitVec 8) (s : State) : (loadHeader w h c cs s).cache = s.cache := rfl
@[simp] theorem loadHeader_cfgMode (w h : BitVec 32) (c cs : BitVec 8) (s : State) : (loadHeader w h c cs s).cfgMode = s.cfgMode := rfl
@[simp] theorem loadHeader_cfgWidth (w h : BitVec 32) (c cs : BitVec 8) (s : State) : (loadHeader w h c cs s).cfgWidth = s.cfgWidth := rfl
@[simp] theorem loadHeader_cfgHeight (w h : BitVec 32) (c cs : BitVec 8) (s : State) : (loadHeader w h c cs s).cfgHeight = s.cfgHeight := rfl
@[simp] theorem loadHeader_cfgChannels (w h : BitVec 32) (c cs : BitVec 8) (s : State) : (loadHeader w h c cs s).cfgChannels = s.cfgChannels := rfl
@[simp] theorem loadHeader_cfgColorspace (w h : BitVec 32) (c cs : BitVec 8) (s : State) : (loadHeader w h c cs s).cfgColorspace = s.cfgColorspace := rfl
@[simp] theorem loadHeader_cmdStart (w h : BitVec 32) (c cs : BitVec 8) (s : State) : (loadHeader w h c cs s).cmdStart = s.cmdStart := rfl
@[simp] theorem loadHeader_rst (w h : BitVec 32) (c cs : BitVec 8) (s : State) : (loadHeader w h c cs s).rst = s.rst := rfl
@[simp] theorem loadHeader_inp (w h : BitVec 32) (c cs : BitVec 8) (s : State) : (loadHeader w h c cs s).inp = s.inp := rfl
@[simp] theorem loadHeader_out (w h : BitVec 32) (c cs : BitVec 8) (s : State) : (loadHeader w h c cs s).out = s.out := rfl
@[simp] theorem loadHeader_pixin (w h : BitVec 32) (c cs : BitVec 8) (s : State) : (loadHeader w h c cs s).pixin = s.pixin := rfl
@[simp] theorem loadHeader_pixout (w h : BitVec 32) (c cs : BitVec 8) (s : State) : (loadHeader w h c cs s).pixout = s.pixout := rfl
@[simp] theorem loadHeader_free (w h : BitVec 32) (c cs : BitVec 8) (s : State) : (loadHeader w h c cs s).free = s.free := rfl
@[simp] theorem loadHeader_target (w h : BitVec 32) (c cs : BitVec 8) (s : State) : target (loadHeader w h c cs s) = w.toNat * h.toNat := rfl

/-! ### raise -/

@[simp] theorem raise_phase (c : Cause) (s : State) : (raise c s).phase = .err := rfl
@[simp] theorem raise_mode (c : Cause) (s : State) : (raise c s).mode = s.mode := rfl
@[simp] theorem raise_errCause (c : Cause) (s : State) : (raise c s).errCause = causeCode c := rfl
@[simp] theorem raise_prev (c : Cause) (s : State) : (raise c s).prev = s.prev := rfl
@[simp] theorem raise_run (c : Cause) (s : State) : (raise c s).run = s.run := rfl
@[simp] theorem raise_npx (c : Cause) (s : State) : (raise c s).npx = s.npx := rfl
@[simp] theorem raise_w (c : Cause) (s : State) : (raise c s).w = s.w := rfl
@[simp] theorem raise_h (c : Cause) (s : State) : (raise c s).h = s.h := rfl
@[simp] theorem raise_ch (c : Cause) (s : State) : (raise c s).ch = s.ch := rfl
@[simp] theorem raise_cs (c : Cause) (s : State) : (raise c s).cs = s.cs := rfl
@[simp] theorem raise_ipos (c : Cause) (s : State) : (raise c s).ipos = s.ipos := rfl
@[simp] theorem raise_opos (c : Cause) (s : State) : (raise c s).opos = s.opos := rfl
@[simp] theorem raise_cache (c : Cause) (s : State) : (raise c s).cache = s.cache := rfl
@[simp] theorem raise_cfgMode (c : Cause) (s : State) : (raise c s).cfgMode = s.cfgMode := rfl
@[simp] theorem raise_cfgWidth (c : Cause) (s : State) : (raise c s).cfgWidth = s.cfgWidth := rfl
@[simp] theorem raise_cfgHeight (c : Cause) (s : State) : (raise c s).cfgHeight = s.cfgHeight := rfl
@[simp] theorem raise_cfgChannels (c : Cause) (s : State) : (raise c s).cfgChannels = s.cfgChannels := rfl
@[simp] theorem raise_cfgColorspace (c : Cause) (s : State) : (raise c s).cfgColorspace = s.cfgColorspace := rfl
@[simp] theorem raise_cmdStart (c : Cause) (s : State) : (raise c s).cmdStart = s.cmdStart := rfl
@[simp] theorem raise_rst (c : Cause) (s : State) : (raise c s).rst = s.rst := rfl
@[simp] theorem raise_inp (c : Cause) (s : State) : (raise c s).inp = s.inp := rfl
@[simp] theorem raise_out (c : Cause) (s : State) : (raise c s).out = s.out := rfl
@[simp] theorem raise_pixin (c : Cause) (s : State) : (raise c s).pixin = s.pixin := rfl
@[simp] theorem raise_pixout (c : Cause) (s : State) : (raise c s).pixout = s.pixout := rfl
@[simp] theorem raise_free (c : Cause) (s : State) : (raise c s).free = s.free := rfl
@[simp] theorem raise_target (c : Cause) (s : State) : target (raise c s) = target s := rfl

/-! ### closeBody -/

@[simp] theorem closeBody_mode (s : State) : (closeBody s).mode = s.mode := by unfold closeBody; split <;> rfl
@[simp] theorem closeBody_errCause (s : State) : (closeBody s).errCause = s.errCause := by unfold closeBody; split <;> rfl
@[simp] theorem closeBody_prev (s : State) : (closeBody s).prev = s.prev := by unfold closeBody; split <;> rfl
@[simp] theorem closeBody_run (s : State) : (closeBody s).run = s.run := by unfold closeBody; split <;> rfl
@[simp] theorem closeBody_npx (s : State) : (closeBody s).npx = s.npx := by unfold closeBody; split <;> rfl
@[simp] theorem closeBody_w (s : State) : (closeBody s).w = s.w := by unfold closeBody; split <;> rfl
@[simp] theorem closeBody_h (s : State) : (closeBody s).h = s.h := by unfold closeBody; split <;> rfl
@[simp] theorem closeBody_ch (s : State) : (closeBody s).ch = s.ch := by unfold closeBody; split <;> rfl
@[simp] theorem closeBody_cs (s : State) : (closeBody s).cs = s.cs := by unfold closeBody; split <;> rfl
@[simp] theorem closeBody_ipos (s : State) : (closeBody s).ipos = s.ipos := by unfold closeBody; split <;> rfl
@[simp] theorem closeBody_opos (s : State) : (closeBody s).opos = s.opos := by unfold closeBody; split <;> rfl
@[simp] theorem closeBody_cache (s : State) : (closeBody s).cache = s.cache := by unfold closeBody; split <;> rfl
@[simp] theorem closeBody_cfgMode (s : State) : (closeBody s).cfgMode = s.cfgMode := by unfold closeBody; split <;> rfl
@[simp] theorem closeBody_cfgWidth (s : State) : (closeBody s).cfgWidth = s.cfgWidth := by unfold closeBody; split <;> rfl
@[simp] theorem closeBody_cfgHeight (s : State) : (closeBody s).cfgHeight = s.cfgHeight := by unfold closeBody; split <;> rfl
@[simp] theorem closeBody_cfgChannels (s : State) : (closeBody s).cfgChannels = s.cfgChannels := by unfold closeBody; split <;> rfl
@[simp] theorem closeBody_cfgColorspace (s : State) : (closeBody s).cfgColorspace = s.cfgColorspace := by unfold closeBody; split <;> rfl
@[simp] theorem closeBody_cmdStart (s : State) : (closeBody s).cmdStart = s.cmdStart := by unfold closeBody; split <;> rfl
@[simp] theorem closeBody_rst (s : State) : (closeBody s).rst = s.rst := by unfold closeBody; split <;> rfl
@[simp] theorem closeBody_inp (s : State) : (closeBody s).inp = s.inp := by unfold closeBody; split <;> rfl
@[simp] theorem closeBody_out (s : State) : (closeBody s).out = s.out := by unfold closeBody; split <;> rfl
@[simp] theorem closeBody_pixin (s : State) : (closeBody s).pixin = s.pixin := by unfold closeBody; split <;> rfl
@[simp] theorem closeBody_pixout (s : State) : (closeBody s).pixout = s.pixout := by unfold closeBody; split <;> rfl
@[simp] theorem closeBody_free (s : State) : (closeBody s).free = s.free := by unfold closeBody; split <;> rfl
@[simp] theorem closeBody_target (s : State) : target (closeBody s) = target s := by unfold closeBody; split <;> rfl

/-- `npx = target` moves the phase to TRAILER, and nothing else moves it (R130, R160). -/
theorem closeBody_phase (s : State) : (closeBody s).phase = if s.npx.toNat = target s then .trailer else s.phase := by
  unfold closeBody
  split <;> rfl

end Sys2Proof.Machine
end

