-- ==== Sys2Proof/Laws/Ops.lean ====
section
/-! SUPPORT. What each shared operation can do, said once: outcomes, records in their phase, the common part of a
decoded chunk, the emission of a record, the arms of exec, and the step by mode and phase. -/

namespace Sys2Proof.Machine

open Sys2Proof

/-! ### Outcomes -/

@[simp] theorem andThen_next (s : State) (f : State → Result State) : andThen (.next s) f = f s := rfl

/-- A next state behind `andThen` comes from a next state before it. -/
theorem andThen_eq_next {r : Result State} {f : State → Result State} {t : State} :
    andThen r f = .next t ↔ ∃ s, r = .next s ∧ f s = .next t := by
  cases r <;> simp [andThen]

@[simp] theorem nextOf_next (s : State) : nextOf (.next s) = some s := rfl

/-! ### Records in their phase -/

/-- In its phase and in DEC mode a record is read. -/
theorem recordIn_dec {p : Phase} {dec enc : State → Result State} {s : State} (hp : s.phase = p)
    (hm : s.mode = .dec) : recordIn p dec enc s = dec s := by
  simp [recordIn, hp, hm]

/-- In its phase and in ENC mode a record is written. -/
theorem recordIn_enc {p : Phase} {dec enc : State → Result State} {s : State} (hp : s.phase = p)
    (hm : s.mode = .enc) : recordIn p dec enc s = enc s := by
  simp [recordIn, hp, hm]

/-- A record that answers a next state stands in its phase, and its half for the mode answered it. -/
theorem recordIn_eq_next {p : Phase} {dec enc : State → Result State} {s t : State}
    (h : recordIn p dec enc s = .next t) :
    s.phase = p ∧ ((s.mode = .dec ∧ dec s = .next t) ∨ (s.mode = .enc ∧ enc s = .next t)) := by
  unfold recordIn at h
  split at h
  · next hp =>
    refine ⟨hp, ?_⟩
    cases hm : s.mode <;> simp_all
  · cases h

/-! ### The common part of a decoded chunk -/

/-- In a legal layout the pixel has bytes, as many as the layout says (R24, R140). -/
theorem pixelBytes_of_legal {ch : BitVec 8} (h : legalChannels ch = true) (p : Pixel) :
    ∃ bs, pixelBytes ch p = some bs ∧ bs.length = ch.toNat := by
  simp only [legalChannels, Config.chRgb, Config.chRgba, Bool.or_eq_true, beq_iff_eq] at h
  rcases h with rfl | rfl
  · exact ⟨_, rfl, rfl⟩
  · exact ⟨_, rfl, rfl⟩

/-- A chunk that answers a next state has been carried out whole. -/
theorem commitChunk_eq_next {len count : Nat} {px : Pixel} {write : Bool} {s t : State}
    (h : commitChunk len px count write s = .next t) :
    ∃ bs, pixelBytes s.ch px = some bs ∧ t = chunkDone len px count write bs s := by
  unfold commitChunk at h
  split at h
  · next bs hb => exact ⟨bs, hb, (Host.Outcome.next.inj h).symm⟩
  · cases h

/-- In a legal layout a chunk is carried out. -/
theorem commitChunk_of_legal {len count : Nat} {px : Pixel} {write : Bool} {s : State} {bs : List Byte}
    (h : pixelBytes s.ch px = some bs) : commitChunk len px count write s = .next (chunkDone len px count write bs s) := by
  simp [commitChunk, h]

section
variable (len : Nat) (px : Pixel) (count : Nat) (write : Bool) (bs : List Byte) (s : State)

@[simp] theorem chunkDone_ipos : (chunkDone len px count write bs s).ipos = s.ipos + len := by
  cases write <;> simp [chunkDone]

@[simp] theorem chunkDone_prev : (chunkDone len px count write bs s).prev = px := by
  cases write <;> simp [chunkDone]

@[simp] theorem chunkDone_cache : (chunkDone len px count write bs s).cache =
    if write then cacheWrite s.cache (hash px) px else s.cache := by
  cases write <;> simp [chunkDone]

@[simp] theorem chunkDone_pixout : (chunkDone len px count write bs s).pixout = s.pixout ++ repeatBytes count bs := by
  cases write <;> simp [chunkDone]

@[simp] theorem chunkDone_npx : (chunkDone len px count write bs s).npx = s.npx + BitVec.ofNat 64 count := by
  cases write <;> simp [chunkDone]

@[simp] theorem chunkDone_target : target (chunkDone len px count write bs s) = target s := by
  cases write <;> simp [chunkDone]

theorem chunkDone_phase : (chunkDone len px count write bs s).phase =
    if (s.npx + BitVec.ofNat 64 count).toNat = target s then .trailer else s.phase := by
  cases write <;> simp [chunkDone, closeBody_phase]

/-- What a decoded chunk leaves alone (R130). -/
theorem chunkDone_frame :
    (chunkDone len px count write bs s).mode = s.mode ∧ (chunkDone len px count write bs s).errCause = s.errCause ∧
    (chunkDone len px count write bs s).run = s.run ∧ (chunkDone len px count write bs s).w = s.w ∧
    (chunkDone len px count write bs s).h = s.h ∧ (chunkDone len px count write bs s).ch = s.ch ∧
    (chunkDone len px count write bs s).cs = s.cs ∧ (chunkDone len px count write bs s).opos = s.opos ∧
    (chunkDone len px count write bs s).out = s.out ∧ (chunkDone len px count write bs s).inp = s.inp ∧
    (chunkDone len px count write bs s).pixin = s.pixin ∧ (chunkDone len px count write bs s).rst = s.rst ∧
    (chunkDone len px count write bs s).cmdStart = s.cmdStart ∧ (chunkDone len px count write bs s).free = s.free ∧
    (chunkDone len px count write bs s).cfgMode = s.cfgMode ∧
    (chunkDone len px count write bs s).cfgWidth = s.cfgWidth ∧
    (chunkDone len px count write bs s).cfgHeight = s.cfgHeight ∧
    (chunkDone len px count write bs s).cfgChannels = s.cfgChannels ∧
    (chunkDone len px count write bs s).cfgColorspace = s.cfgColorspace := by
  cases write <;> simp [chunkDone]

end

/-! ### Reading and emitting a chunk -/

/-- The pixel a chunk denotes over the state it is read in (R133 to R138). -/
def readPixel (i : Instr) (s : State) : Pixel :=
  match i with
  | .header _ _ _ _ => s.prev
  | .rgb r g b => ⟨r, g, b, s.prev.a⟩
  | .rgba r g b a => ⟨r, g, b, a⟩
  | .index idx => cacheRead s.cache idx
  | .diff fr fg fb => diffPixel fr fg fb s.prev
  | .luma fg frg fbg => lumaPixel fg frg fbg s.prev
  | .run _ => s.prev
  | .endMarker => s.prev

/-- How many pixels a chunk produces (R9). -/
def readCount (i : Instr) : Nat :=
  match i with
  | .run f => runLength f
  | _ => 1

/-- Whether a chunk writes the cache: every kind but INDEX (R139). -/
def readWrites (i : Instr) : Bool :=
  match i with
  | .index _ => false
  | _ => true

/-- Whether a chunk would pass the pixel target: only a RUN can (R138). -/
def overshoots (i : Instr) (s : State) : Bool :=
  match i with
  | .run f => decide (s.npx.toNat + runLength f > target s)
  | _ => false

/-- A chunk produces at least one pixel. -/
theorem readCount_pos (i : Instr) : 1 ≤ readCount i := by
  cases i <;> simp [readCount, runLength, Config.runBias]

/-- A chunk produces at most 64 pixels, whatever its field. -/
theorem readCount_le (i : Instr) : readCount i ≤ 64 := by
  cases i <;> simp [readCount, runLength, Config.runBias]
  omega

/-- In DEC mode and phase BODY a chunk takes the overshoot fault or is committed (R130, R138). -/
theorem exec_dec {i : Instr} {s : State} (hi : positionOf i = .chunk) (hm : s.mode = .dec) (hp : s.phase = .body) :
    exec i s = if overshoots i s then .next (raise .eRunOvershoot s)
      else commitChunk (recordLength i) (readPixel i s) (readCount i) (readWrites i) s := by
  cases i with
  | header w h c cs => cases hi
  | endMarker => cases hi
  | rgb r g b => exact recordIn_dec hp hm
  | rgba r g b a => exact recordIn_dec hp hm
  | index idx => exact recordIn_dec hp hm
  | diff fr fg fb => exact recordIn_dec hp hm
  | luma fg frg fbg => exact recordIn_dec hp hm
  | run f =>
    refine (recordIn_dec hp hm).trans ?_
    by_cases h : s.npx.toNat + runLength f > target s <;>
      simp [decodeRun, overshoots, h, recordLength, chunkLength, readPixel, readCount, readWrites]

/-- A chunk answers a next state only in phase BODY. -/
theorem exec_chunk_phase {i : Instr} {s t : State} (hi : positionOf i = .chunk) (h : exec i s = .next t) :
    s.phase = .body := by
  cases i with
  | header w h c cs => cases hi
  | endMarker => cases hi
  | rgb r g b => exact (recordIn_eq_next h).1
  | rgba r g b a => exact (recordIn_eq_next h).1
  | index idx => exact (recordIn_eq_next h).1
  | diff fr fg fb => exact (recordIn_eq_next h).1
  | luma fg frg fbg => exact (recordIn_eq_next h).1
  | run f => exact (recordIn_eq_next h).1

/-- Everything a chunk read in DEC mode can answer (R130). -/
theorem exec_dec_cases {i : Instr} {s t : State} (hi : positionOf i = .chunk) (hm : s.mode = .dec)
    (h : exec i s = .next t) :
    (overshoots i s = true ∧ t = raise .eRunOvershoot s) ∨
    (overshoots i s = false ∧ ∃ bs, pixelBytes s.ch (readPixel i s) = some bs ∧
      t = chunkDone (recordLength i) (readPixel i s) (readCount i) (readWrites i) bs s) := by
  rw [exec_dec hi hm (exec_chunk_phase hi h)] at h
  split at h
  · next ho => exact .inl ⟨ho, (Host.Outcome.next.inj h).symm⟩
  · next ho => exact .inr ⟨by simpa using ho, commitChunk_eq_next h⟩

/-- The state after a chunk is emitted: its bytes, and for a RUN the cache write and the cleared counter (R163, R167 to
R171). -/
def emitted (i : Instr) (s : State) : State :=
  match i with
  | .run _ => setRun 0 (storePixel s.prev (packRecord i s))
  | _ => packRecord i s

/-- In ENC mode and phase BODY every chunk is emitted. -/
theorem exec_enc {i : Instr} {s : State} (hi : positionOf i = .chunk) (hm : s.mode = .enc) (hp : s.phase = .body) :
    exec i s = .next (emitted i s) := by
  cases i with
  | header w h c cs => cases hi
  | endMarker => cases hi
  | rgb r g b => exact recordIn_enc hp hm
  | rgba r g b a => exact recordIn_enc hp hm
  | index idx => exact recordIn_enc hp hm
  | diff fr fg fb => exact recordIn_enc hp hm
  | luma fg frg fbg => exact recordIn_enc hp hm
  | run frun => exact recordIn_enc hp hm

@[simp] theorem packRecord_out (i : Instr) (s : State) : (packRecord i s).out = s.out ++ encode i := rfl

@[simp] theorem packRecord_opos (i : Instr) (s : State) : (packRecord i s).opos = s.opos + (encode i).length := rfl

/-- What emitting a chunk leaves alone (R163, R167 to R171). -/
theorem emitted_frame (i : Instr) (s : State) :
    (emitted i s).out = s.out ++ encode i ∧ (emitted i s).opos = s.opos + (encode i).length ∧
    (emitted i s).prev = s.prev ∧ (emitted i s).npx = s.npx ∧ (emitted i s).phase = s.phase ∧
    (emitted i s).mode = s.mode ∧ (emitted i s).errCause = s.errCause ∧ (emitted i s).w = s.w ∧
    (emitted i s).h = s.h ∧ (emitted i s).ch = s.ch ∧ (emitted i s).cs = s.cs ∧ (emitted i s).ipos = s.ipos ∧
    (emitted i s).inp = s.inp ∧ (emitted i s).pixin = s.pixin ∧ (emitted i s).pixout = s.pixout ∧
    (emitted i s).rst = s.rst ∧ (emitted i s).cmdStart = s.cmdStart ∧ (emitted i s).free = s.free := by
  cases i <;> exact ⟨rfl, rfl, rfl, rfl, rfl, rfl, rfl, rfl, rfl, rfl, rfl, rfl, rfl, rfl, rfl, rfl, rfl, rfl⟩

/-! ### What the host may take (R230) -/

/-- A faulted run gives no pixel. -/
theorem takenPixels_of_err {s : State} (h : s.phase = .err) : takenPixels s = [] := by
  simp [takenPixels, stErr, h]

/-- A run that has not faulted gives all of PIXOUT. -/
theorem takenPixels_of_ne_err {s : State} (h : s.phase ≠ .err) : takenPixels s = s.pixout := by
  simp [takenPixels, stErr, h]

/-- Outside ERR a state is observed whole. -/
theorem observed_of_ne_err {s : State} (h : s.phase ≠ .err) : observed s = s := by
  simp [observed, takenPixels_of_ne_err h]

/-! ### Hardware reset -/

/-- The cache after hardware reset: 64 free words (R34). -/
theorem hardReset_cache (s : State) : (hardReset s).cache = freeCache Config.cacheSlots (s.free + 3) := by
  simp only [hardReset]

/-- The cache after hardware reset is in canonical form. -/
theorem hardReset_cache_wf (s : State) : Memory.wf (hardReset s).cache = true := by
  rw [hardReset_cache]
  exact freeCache_wf _ _

/-! ### The step -/

/-- Without reset or START the step is the sequencer's. -/
theorem step_sequencer {s : State} (hr : s.rst = false) (hc : s.cmdStart = false) : step s = sequencerStep s := by
  simp [step, blockStep, hr, hc]

/-- The step of a decode. -/
theorem step_dec {s : State} (hr : s.rst = false) (hc : s.cmdStart = false) (hm : s.mode = .dec) :
    step s = decoderStep s := by
  simp [step_sequencer hr hc, sequencerStep, hm]

/-- The step of an encode. -/
theorem step_enc {s : State} (hr : s.rst = false) (hc : s.cmdStart = false) (hm : s.mode = .enc) :
    step s = encoderStep s := by
  simp [step_sequencer hr hc, sequencerStep, hm]

/-- Everything a step is: a reset, a START, or the sequencer's own step. -/
theorem step_cases {s t : State} (h : step s = .next t) :
    (s.rst = true ∧ t = hardReset s) ∨
    (s.rst = false ∧ s.cmdStart = true ∧ startEnabled s = true ∧ t = startRun s) ∨
    (s.rst = false ∧ s.cmdStart = false ∧ sequencerStep s = .next t) := by
  unfold step blockStep at h
  split at h
  · next hr => exact .inl ⟨hr, (Host.Outcome.next.inj h).symm⟩
  · next hr =>
    have hr : s.rst = false := by simpa using hr
    split at h
    · next hc =>
      unfold startCommand at h
      split at h
      · next he => exact .inr (.inl ⟨hr, hc, he, (Host.Outcome.next.inj h).symm⟩)
      · cases h
    · next hc => exact .inr (.inr ⟨hr, by simpa using hc, h⟩)

end Sys2Proof.Machine
end

