-- ==== Sys2Proof/Laws/Encoder.lean ====
section
/-! SUPPORT. What one encoder pixel step and one sequencer step can do, each said once (42_chunk_encoder.md rules R160
to R173, 43_sequencer_and_commands.md rules R201 and R202). -/

namespace Sys2Proof.Machine

open Sys2Proof

/-! ### The cost selector -/

/-- The selector gives a chunk. -/
@[simp] theorem positionOf_selectChunk (s : State) (px : Pixel) : positionOf (selectChunk s px) = .chunk := by
  unfold selectChunk
  split_ifs <;> rfl

/-- The selector never gives a RUN (R166). -/
theorem selectChunk_ne_run (s : State) (px : Pixel) (f : BitVec 6) : selectChunk s px ≠ .run f := by
  unfold selectChunk
  split_ifs <;> simp

/-- The chunk the selector gives is well formed. -/
theorem selectChunk_wf (s : State) (px : Pixel) : (selectChunk s px).wf = true := by
  unfold selectChunk
  split_ifs <;> rfl

/-- A chunk other than RUN only appends its bytes. -/
theorem emitted_of_ne_run {i : Instr} (h : ∀ f, i ≠ .run f) (s : State) : emitted i s = packRecord i s := by
  cases i <;> first | rfl | exact absurd rfl (h _)

/-- The cache lookup touches the cache alone (R164). -/
theorem lookupWrite_eq (px : Pixel) (s : State) :
    lookupWrite px s = { s with cache := (lookupWrite px s).cache } := by
  unfold lookupWrite
  split <;> rfl

/-- `emit_single` answers a next state (R164, R166). -/
theorem emitSingle_eq {px : Pixel} {s : State} (hm : s.mode = .enc) (hp : s.phase = .body) :
    emitSingle px s = .next (packRecord (selectChunk s px) (lookupWrite px s)) := by
  unfold emitSingle
  rw [exec_enc (positionOf_selectChunk s px), emitted_of_ne_run (selectChunk_ne_run s px)] <;>
    rw [lookupWrite_eq] <;> assumption

/-- `flush_run` answers a next state (R163). -/
theorem flushRun_eq {s : State} (hm : s.mode = .enc) (hp : s.phase = .body) :
    flushRun s = .next (emitted (.run (s.run - 1)) s) :=
  exec_enc (i := .run (s.run - 1)) rfl hm hp

/-! ### The pixel step -/

/-- The state after a pixel equal to `prev`, counted already (R162). -/
def repeatDone (s : State) : State :=
  let s := setRun (s.run + 1) s
  closeBody (if s.run = 62 ∨ AtTarget s then emitted (.run (s.run - 1)) s else s)

/-- The pending run flushed, where there is one (R162). -/
def flushed (s : State) : State := if s.run ≠ 0 then emitted (.run (s.run - 1)) s else s

/-- The state after a pixel that differs from `prev`, counted already (R160, R162). -/
def newDone (px : Pixel) (s : State) : State :=
  closeBody (setPrev px (packRecord (selectChunk (flushed s) px) (lookupWrite px (flushed s))))

/-- The state after a pixel is taken (R160). -/
def pixelDone (px : Pixel) (s : State) : State :=
  if px = s.prev then repeatDone (countPixels 1 s) else newDone px (countPixels 1 s)

/-- A repeated pixel always answers a next state. -/
theorem repeatPixel_eq {s : State} (hm : s.mode = .enc) (hp : s.phase = .body) :
    repeatPixel s = .next (repeatDone s) := by
  unfold repeatPixel repeatDone
  dsimp only
  split
  · rw [flushRun_eq (by simpa using hm) (by simpa using hp), andThen_next, endPixel]
  · rw [endPixel]

/-- A differing pixel always answers a next state. -/
theorem newPixel_eq {px : Pixel} {s : State} (hm : s.mode = .enc) (hp : s.phase = .body) :
    newPixel px s = .next (newDone px s) := by
  have hf := emitted_frame (.run (s.run - 1)) s
  unfold newPixel newDone flushed
  split
  · rw [flushRun_eq hm hp, andThen_next, emitSingle_eq (hf.2.2.2.2.2.1.trans hm) (hf.2.2.2.2.1.trans hp),
      andThen_next, endPixel]
  · rw [andThen_next, emitSingle_eq hm hp, andThen_next, endPixel]

/-- In an encode's BODY the pixel step always answers a next state (R160). -/
theorem takePixel_eq {px : Pixel} {s : State} (hm : s.mode = .enc) (hp : s.phase = .body) :
    takePixel px s = .next (pixelDone px s) := by
  by_cases h : px = s.prev
  · rw [pixelDone, if_pos h]
    exact (if_pos h).trans (repeatPixel_eq (s := countPixels 1 s) hm hp)
  · rw [pixelDone, if_neg h]
    exact (if_neg h).trans (newPixel_eq (s := countPixels 1 s) hm hp)

@[simp] theorem emitted_run (f : BitVec 6) (s : State) :
    emitted (.run f) s = setRun 0 (storePixel s.prev (packRecord (.run f) s)) := rfl

/-- What the cache lookup leaves alone: all but the cache (R164). -/
theorem lookupWrite_frame (px : Pixel) (s : State) :
    { lookupWrite px s with cache := s.cache } = s := by
  unfold lookupWrite
  split <;> rfl

/-- The fields a pixel step never writes (R160). -/
structure PixelFrame (s t : State) : Prop where
  mode : t.mode = s.mode
  errCause : t.errCause = s.errCause
  w : t.w = s.w
  h : t.h = s.h
  ch : t.ch = s.ch
  cs : t.cs = s.cs
  ipos : t.ipos = s.ipos
  cfgMode : t.cfgMode = s.cfgMode
  cfgWidth : t.cfgWidth = s.cfgWidth
  cfgHeight : t.cfgHeight = s.cfgHeight
  cfgChannels : t.cfgChannels = s.cfgChannels
  cfgColorspace : t.cfgColorspace = s.cfgColorspace
  cmdStart : t.cmdStart = s.cmdStart
  rst : t.rst = s.rst
  inp : t.inp = s.inp
  pixin : t.pixin = s.pixin
  pixout : t.pixout = s.pixout
  free : t.free = s.free

theorem PixelFrame.refl (s : State) : PixelFrame s s := by constructor <;> rfl

theorem PixelFrame.trans {s t u : State} (h : PixelFrame s t) (k : PixelFrame t u) : PixelFrame s u := by
  cases h
  cases k
  constructor <;> simp_all

/-- Emitting a chunk, the cache lookup, the counts and the close stay inside the frame. -/
theorem pixelFrame_closeBody (s : State) : PixelFrame s (closeBody s) := by
  constructor <;> simp

theorem pixelFrame_emitted (i : Instr) (s : State) : PixelFrame s (emitted i s) := by
  cases i <;> constructor <;> rfl

theorem pixelFrame_flushed (s : State) : PixelFrame s (flushed s) := by
  unfold flushed
  split
  · exact pixelFrame_emitted _ s
  · exact .refl s

theorem pixelFrame_lookupWrite (px : Pixel) (s : State) : PixelFrame s (lookupWrite px s) := by
  unfold lookupWrite
  split <;> constructor <;> rfl

/-- A pixel step stays inside the frame (R160). -/
theorem pixelFrame_pixelDone (px : Pixel) (s : State) : PixelFrame s (pixelDone px s) := by
  have hc : PixelFrame s (countPixels 1 s) := by constructor <;> rfl
  unfold pixelDone
  split
  · refine hc.trans (PixelFrame.trans ?_ (pixelFrame_closeBody _))
    refine PixelFrame.trans (t := setRun ((countPixels 1 s).run + 1) (countPixels 1 s)) (by constructor <;> rfl) ?_
    split
    · exact pixelFrame_emitted _ _
    · exact .refl _
  · refine hc.trans (PixelFrame.trans ?_ (pixelFrame_closeBody _))
    refine (pixelFrame_flushed _).trans ((pixelFrame_lookupWrite px _).trans ?_)
    constructor <;> rfl

/-- The pixel is the next `prev` (R173). -/
theorem pixelDone_prev (px : Pixel) (s : State) : (pixelDone px s).prev = px := by
  unfold pixelDone
  split
  · next h =>
    unfold repeatDone
    dsimp only
    rw [closeBody_prev]
    split <;> simp [packRecord, h]
  · unfold newDone
    simp

/-- The phase stays, or becomes TRAILER (R160). -/
theorem pixelDone_phase (px : Pixel) (s : State) :
    (pixelDone px s).phase = s.phase ∨ (pixelDone px s).phase = .trailer := by
  have hc : ∀ t : State, t.phase = s.phase → (closeBody t).phase = s.phase ∨ (closeBody t).phase = .trailer := by
    intro t ht
    rw [closeBody_phase]
    split
    · exact .inr rfl
    · exact .inl ht
  have hf : (flushed (countPixels 1 s)).phase = s.phase := by
    unfold flushed
    split
    · exact (emitted_frame _ _).2.2.2.2.1
    · rfl
  unfold pixelDone
  split
  · refine hc _ ?_
    split
    · exact (emitted_frame _ _).2.2.2.2.1
    · rfl
  · refine hc _ (Eq.trans ?_ hf)
    unfold lookupWrite
    split <;> rfl

/-- A pixel step appends at most 6 bytes to OUT, and `opos` counts them (R172). -/
theorem pixelDone_out (px : Pixel) (s : State) :
    ∃ bs, (pixelDone px s).out = s.out ++ bs ∧ bs.length ≤ 6 ∧ (pixelDone px s).opos = s.opos + bs.length := by
  unfold pixelDone
  split
  · unfold repeatDone
    dsimp only
    rw [closeBody_out, closeBody_opos]
    split
    · exact ⟨encode (.run _), rfl, by simp [encode], rfl⟩
    · exact ⟨[], by simp, by simp, by simp⟩
  · unfold newDone
    rw [closeBody_out, closeBody_opos]
    simp only [setPrev_out, setPrev_opos, packRecord_out, packRecord_opos, lookupWrite]
    have hl : (encode (selectChunk (flushed (countPixels 1 s)) px)).length ≤ 5 := by
      unfold selectChunk
      split_ifs <;> simp [encode]
    refine ⟨(if (countPixels 1 s).run ≠ 0 then encode (.run ((countPixels 1 s).run - 1)) else []) ++
      encode (selectChunk (flushed (countPixels 1 s)) px), ?_, ?_, ?_⟩
    · unfold flushed
      split <;> split <;> simp [packRecord]
    · split <;> simp [encode] at * <;> omega
    · unfold flushed
      split <;> split <;> simp [packRecord] <;> omega

/-! ### The sequencer's step -/

/-- Everything the step of an encode can do in BODY: wait, or take a pixel (R160, R201). -/
theorem encodePixel_cases {s t : State} (hm : s.mode = .enc) (hp : s.phase = .body)
    (h : encodePixel s = .next t) :
    t = s ∨ (legalChannels s.ch = true ∧ ∃ px, nextPixel s = some px ∧
      t = pixelDone px s) := by
  unfold encodePixel at h
  split at h
  · next hl =>
    split at h
    · next px hn => exact .inr ⟨hl, px, hn, (Host.Outcome.next.inj ((takePixel_eq hm hp).symm.trans h)).symm⟩
    · exact .inl (Host.Outcome.next.inj h).symm
  · cases h

/-- HEADER write (R110). -/
theorem exec_header_enc {s : State} (hm : s.mode = .enc) (hp : s.phase = .hdr) (w h : BitVec 32) (c cs : BitVec 8) :
    exec (.header w h c cs) s = .next (setPhase (bodyPhase s) (packRecord (.header w h c cs) s)) :=
  recordIn_enc hp hm

/-- END write (R112). -/
theorem exec_end_enc {s : State} (hm : s.mode = .enc) (hp : s.phase = .trailer) :
    exec .endMarker s = .next (setPhase .done (packRecord .endMarker s)) :=
  recordIn_enc hp hm

/-- Everything the step of an encode can do (R201). -/
theorem encoderStep_cases {s t : State} (hm : s.mode = .enc) (h : encoderStep s = .next t) :
    t = s ∨
    (s.phase = .hdr ∧ t = setPhase (bodyPhase s) (packRecord (.header s.w s.h s.ch s.cs) s)) ∨
    (s.phase = .body ∧ legalChannels s.ch = true ∧ ∃ px, nextPixel s = some px ∧
      t = pixelDone px s) ∨
    (s.phase = .trailer ∧ t = setPhase .done (packRecord .endMarker s)) := by
  unfold encoderStep at h
  split at h
  · exact .inl (Host.Outcome.next.inj h).symm
  · next hp =>
    rw [exec_header_enc hm hp] at h
    exact .inr (.inl ⟨hp, (Host.Outcome.next.inj h).symm⟩)
  · next hp =>
    rcases encodePixel_cases hm hp h with h | h
    · exact .inl h
    · exact .inr (.inr (.inl ⟨hp, h⟩))
  · next hp =>
    rw [exec_end_enc hm hp] at h
    exact .inr (.inr (.inr ⟨hp, (Host.Outcome.next.inj h).symm⟩))
  · exact .inl (Host.Outcome.next.inj h).symm
  · exact .inl (Host.Outcome.next.inj h).symm

/-- Everything the step of a decode can do (R202). -/
theorem decoderStep_cases {s t : State} (h : decoderStep s = .next t) :
    (phasePosition s.phase = none ∧ t = s) ∨
    ∃ p, phasePosition s.phase = some p ∧
      ((∃ c, fetchAt p s = .error c ∧ t = raise c s) ∨ ∃ i, fetchAt p s = .ok i ∧ exec i s = .next t) := by
  unfold decoderStep at h
  split at h
  · next p hp =>
    refine .inr ⟨p, hp, ?_⟩
    split at h
    · next i hi => exact .inr ⟨i, hi, h⟩
    · next c hc => exact .inl ⟨c, hc, (Host.Outcome.next.inj h).symm⟩
  · next hp => exact .inl ⟨hp, (Host.Outcome.next.inj h).symm⟩

end Sys2Proof.Machine
end

