-- ==== Sys2Proof/Laws/PerInstr.lean ====
section
/-! SUPPORT. One fact per record of the syntax: its encoding has the record's length, and a chunk's encoding starts with
a tag byte of the chunk's own class (30_encoding.md rules R80, R83, R91). -/

namespace Sys2Proof.Laws.RecordShape

open Sys2Proof

/-- The encoding has the record's length; the first byte of a well-formed chunk's encoding selects, by its class, that
very length. -/
def Statement (i : Instr) : Prop :=
  (encode i).length = recordLength i ∧
    (positionOf i = .chunk → i.wf = true → ∀ t bs, encode i = t :: bs → chunkLength (classify t) = recordLength i)

theorem header (w h : BitVec 32) (c s : BitVec 8) : Statement (.header w h c s) :=
  ⟨rfl, fun hp => by cases hp⟩

theorem rgb (r g b : BitVec 8) : Statement (.rgb r g b) :=
  ⟨rfl, fun _ _ t bs h => by cases h; rfl⟩

theorem rgba (r g b a : BitVec 8) : Statement (.rgba r g b a) :=
  ⟨rfl, fun _ _ t bs h => by cases h; rfl⟩

theorem index (idx : BitVec 6) : Statement (.index idx) :=
  ⟨rfl, fun _ _ t bs h => by
    cases h
    revert idx
    decide⟩

theorem diff (fr fg fb : BitVec 2) : Statement (.diff fr fg fb) :=
  ⟨rfl, fun _ _ t bs h => by
    cases h
    revert fr fg fb
    decide⟩

theorem luma (fg : BitVec 6) (frg fbg : BitVec 4) : Statement (.luma fg frg fbg) :=
  ⟨rfl, fun _ _ t bs h => by
    cases h
    have tag : ∀ g : BitVec 6, chunkLength (classify (0b10#2 ++ g)) = 2 := by decide
    exact tag fg⟩

theorem run (frun : BitVec 6) : Statement (.run frun) :=
  ⟨rfl, fun _ hw t bs h => by
    cases h
    revert frun
    decide⟩

theorem endMarker : Statement .endMarker :=
  ⟨rfl, fun hp => by cases hp⟩

end Sys2Proof.Laws.RecordShape
end

