-- ==== Sys2Proof/Tests/Slice0.lean ====
section
/-! SUPPORT. Tests: ill-formed records refused, words of the spec's encodings decoded, one step of every record against
spec/95_test_vectors.md, and for every obligation with hypotheses a state that meets them. -/

namespace Sys2Proof.Tests

open Sys2Proof Sys2Proof.Machine

/-! ### Well-formedness: one ill-formed term for each check (R81, R87) -/

theorem test_wf_channels : (Instr.header 1 1 5 0).wf = false ∧ (Instr.header 1 1 3 0).wf = true := by decide

theorem test_wf_colorspace : (Instr.header 1 1 4 2).wf = false ∧ (Instr.header 1 1 4 1).wf = true := by decide

theorem test_wf_run : (Instr.run 62).wf = false ∧ (Instr.run 63).wf = false ∧ (Instr.run 61).wf = true := by decide

/-! ### Words written out from the encodings of 30_encoding.md -/

/-- Vector V-HD2: 16909060 by 168496141, RGBA, all-linear. -/
theorem test_decode_header :
    decodeAt .header [0b01110001, 0b01101111, 0b01101001, 0b01100110, 0x01, 0x02, 0x03, 0x04, 0x0A, 0x0B, 0x0C, 0x0D,
      0b00000100, 0b00000001] = .ok (.header 16909060 168496141 4 1, []) := by decide

/-- Vector V-D2. -/
theorem test_decode_rgb : decodeAt .chunk [0b11111110, 0x01, 0x02, 0x03, 0xAA] = .ok (.rgb 1 2 3, [0xAA]) := by decide

/-- Vector V-D4. -/
theorem test_decode_rgba : decodeAt .chunk [0b11111111, 0x15, 0x23, 0x28, 0x80] = .ok (.rgba 21 35 40 128, []) := by decide

/-- Vectors V-D6 and V-D9. -/
theorem test_decode_index :
    decodeAt .chunk [0b00110101] = .ok (.index 53, []) ∧ decodeAt .chunk [0b00111111] = .ok (.index 63, []) := by decide

/-- Vectors V-D10 and V-D16: red in bits 5:4, green in 3:2, blue in 1:0. -/
theorem test_decode_diff :
    decodeAt .chunk [0b01111010] = .ok (.diff 3 2 2, []) ∧ decodeAt .chunk [0b01001110] = .ok (.diff 0 3 2, []) := by decide

/-- Vectors V-D17 and V-D22: green in the tag, red in the high nibble, blue in the low nibble. -/
theorem test_decode_luma :
    decodeAt .chunk [0b10101111, 0b00110100] = .ok (.luma 47 3 4, []) ∧
    decodeAt .chunk [0b10100000, 0b00001111] = .ok (.luma 32 0 15, []) := by decide

/-- Vectors V-D24 and V-D25; the next two tags are RGB and RGBA (R83). -/
theorem test_decode_run :
    decodeAt .chunk [0b11000000] = .ok (.run 0, []) ∧ decodeAt .chunk [0b11111101] = .ok (.run 61, []) ∧
    decodeAt .chunk [0b11111110] = .error .eChunkTrunc ∧ decodeAt .chunk [0b11111111] = .error .eChunkTrunc := by decide

/-- Vectors V-HD9 and V-F11d. -/
theorem test_decode_end :
    decodeAt .trailer [0, 0, 0, 0, 0, 0, 0, 1] = .ok (.endMarker, []) ∧
    decodeAt .trailer [0, 0, 0, 1, 0, 0, 0, 1] = .error .eEndMarker := by decide

/-- Vectors V-F1a, V-F5c and V-F6d: the header's checks in order. -/
theorem test_decode_header_faults :
    decodeAt .header [0x71, 0x6F, 0x69, 0x67, 0, 0, 0, 1, 0, 0, 0, 1, 3, 0] = .error .eMagic ∧
    decodeAt .header [0x71, 0x6F, 0x69, 0x66, 0, 0, 0, 1, 0, 0, 0, 1, 3] = .error .eHdrTrunc ∧
    decodeAt .header [0x71, 0x6F, 0x69, 0x66, 0, 0, 0, 1, 0, 0, 0, 1, 5] = .error .eChannels := by decide

/-! ### Words as the opcode table numbers them -/

theorem test_table_words :
    decodeTableWord 32 0x716F6966 = some (.header 0 0 0 0) ∧ decodeTableWord 112 0x716F6966 = some (.header 0 0 0 0) ∧
    decodeTableWord 8 0xFE = some (.rgb 0 0 0) ∧ decodeTableWord 40 0xFF = some (.rgba 0 0 0 0) ∧
    decodeTableWord 8 0x3F = some (.index 63) ∧ decodeTableWord 8 0x40 = some (.diff 0 0 0) ∧
    decodeTableWord 16 0x3481 = some (.luma 1 3 4) ∧ decodeTableWord 8 0xC0 = some (.run 0) ∧
    decodeTableWord 64 1 = some .endMarker := by decide

/-- Right after reset each of the table's words runs as the first record: HEADER (whose channel byte is then 0,
`E_CHANNELS`), the six chunks, END. -/
theorem test_fetch_word :
    (nextOf (step (State.reset.withFetchWord 32 0x716F6966))).map stErrCause = some 3 ∧
    (nextOf (step (State.reset.withFetchWord 32 0xFE))).map stNpx = some 1 ∧
    (nextOf (step (State.reset.withFetchWord 40 0xFF))).map stNpx = some 1 ∧
    (nextOf (step (State.reset.withFetchWord 8 0x00))).map stNpx = some 1 ∧
    (nextOf (step (State.reset.withFetchWord 8 0x40))).map stNpx = some 1 ∧
    (nextOf (step (State.reset.withFetchWord 16 0x80))).map stNpx = some 1 ∧
    (nextOf (step (State.reset.withFetchWord 8 0xC0))).map stNpx = some 1 ∧
    (nextOf (step (State.reset.withFetchWord 64 1))).map stDone = some true := by decide

/-! ### Small states -/

/-- A decode in BODY: a w by 1 image, nothing decoded yet, the bytes of IN from position 0. -/
def bodyDec (w : BitVec 32) (ch : Byte) (prev : Pixel) (inp : List Byte) : State :=
  { State.reset with mode := .dec, phase := .body, w := w, h := 1, ch := ch, prev := prev, inp := inp }

/-- An encode in BODY: a w by 1 image, n pixels consumed, r of them pending, and the bytes of the next pixel. -/
def bodyEnc (w : BitVec 32) (ch : Byte) (prev : Pixel) (n : Nat) (r : BitVec 6) (px : List Byte) : State :=
  { State.reset with
    mode := .enc, phase := .body, w := w, h := 1, ch := ch, prev := prev, npx := BitVec.ofNat 64 n, run := r,
    pixin := List.replicate (n * ch.toNat) 0 ++ px }

/-- A run in a phase before or after BODY. -/
def inPhase (m : Mode) (p : Phase) (inp : List Byte) : State :=
  { State.reset with mode := m, phase := p, inp := inp }

/-- What a decoded chunk did: `prev`, `npx`, `ipos`, PIXOUT. -/
def read (r : Result State) : Option (Pixel × BitVec 64 × Nat × List Byte) :=
  (nextOf r).map fun t => (t.prev, t.npx, t.ipos, t.pixout)

/-- What an encoder pixel step did: `prev`, `run`, `npx`, OUT, `phase`. -/
def wrote (r : Result State) : Option (Pixel × BitVec 6 × BitVec 64 × List Byte × Phase) :=
  (nextOf r).map fun t => (t.prev, t.run, t.npx, t.out, t.phase)

/-- The cache slot of an outcome. -/
def slot (i : BitVec 6) (r : Result State) : Option Pixel := (nextOf r).map fun t => cacheRead t.cache i

/-! ### One step of every record (spec/95_test_vectors.md) -/

/-- V-HD7. -/
theorem test_header_read :
    (nextOf (step (inPhase .dec .hdr [0x71, 0x6F, 0x69, 0x66, 0, 0, 0, 2, 0, 0, 0, 1, 3, 0]))).map
      (fun t => (t.w, t.h, t.ch, t.cs, t.ipos, t.phase)) = some (2, 1, 3, 0, 14, .body) := by decide

/-- V-HD2. -/
theorem test_header_write :
    (nextOf (step { inPhase .enc .hdr [] with w := 16909060, h := 168496141, ch := 4, cs := 1 })).map
      (fun t => (t.out, t.opos)) =
      some ([0x71, 0x6F, 0x69, 0x66, 0x01, 0x02, 0x03, 0x04, 0x0A, 0x0B, 0x0C, 0x0D, 0x04, 0x01], 14) := by decide

/-- V-D2. -/
theorem test_rgb_read :
    read (step (bodyDec 4 4 ⟨9, 9, 9, 128⟩ [0xFE, 1, 2, 3])) = some (⟨1, 2, 3, 128⟩, 1, 4, [1, 2, 3, 0x80]) ∧
    slot 34 (step (bodyDec 4 4 ⟨9, 9, 9, 128⟩ [0xFE, 1, 2, 3])) = some ⟨1, 2, 3, 128⟩ := by decide

/-- V-D5. -/
theorem test_rgba_read :
    read (step (bodyDec 4 3 ⟨0, 0, 0, 255⟩ [0xFF, 1, 2, 3, 0x80])) = some (⟨1, 2, 3, 128⟩, 1, 5, [1, 2, 3]) ∧
    slot 34 (step (bodyDec 4 3 ⟨0, 0, 0, 255⟩ [0xFF, 1, 2, 3, 0x80])) = some ⟨1, 2, 3, 128⟩ := by decide

/-- V-D7. -/
theorem test_index_read :
    read (step (bodyDec 4 4 ⟨0, 0, 0, 255⟩ [0x05])) = some (⟨0, 0, 0, 0⟩, 1, 1, [0, 0, 0, 0]) ∧
    slot 0 (step (bodyDec 4 4 ⟨0, 0, 0, 255⟩ [0x05])) = some ⟨0, 0, 0, 0⟩ := by decide

/-- V-D11. -/
theorem test_diff_read :
    read (step (bodyDec 4 3 ⟨128, 255, 0, 255⟩ [0x6D])) = some (⟨128, 0, 255, 255⟩, 1, 1, [0x80, 0x00, 0xFF]) ∧
    slot 46 (step (bodyDec 4 3 ⟨128, 255, 0, 255⟩ [0x6D])) = some ⟨128, 0, 255, 255⟩ := by decide

/-- V-D20 and V-D23. -/
theorem test_luma_read :
    read (step (bodyDec 4 3 ⟨250, 250, 250, 255⟩ [0xBF, 0xFF])) = some (⟨32, 25, 32, 255⟩, 1, 2, [0x20, 0x19, 0x20]) ∧
    slot 10 (step (bodyDec 4 4 ⟨100, 100, 100, 255⟩ [0x9F, 0x80])) = some ⟨99, 99, 91, 255⟩ := by decide

/-- V-F13c and V-F10a: a RUN of 3 meets a target of 3 and passes a target of 2. -/
theorem test_run_read :
    read (step (bodyDec 3 3 ⟨0, 0, 0, 255⟩ [0xC2])) = some (⟨0, 0, 0, 255⟩, 3, 1, [0, 0, 0, 0, 0, 0, 0, 0, 0]) ∧
    slot 53 (step (bodyDec 3 3 ⟨0, 0, 0, 255⟩ [0xC2])) = some ⟨0, 0, 0, 255⟩ ∧
    (nextOf (step (bodyDec 2 3 ⟨0, 0, 0, 255⟩ [0xC2]))).map (fun t => (t.phase, t.errCause, t.ipos)) =
      some (.err, 6, 0) := by decide

/-- V-HD9 and V-F11b. -/
theorem test_end_read :
    (nextOf (step (inPhase .dec .trailer [0, 0, 0, 0, 0, 0, 0, 1]))).map (fun t => (t.ipos, t.phase)) =
      some (8, .done) ∧
    (nextOf (step (inPhase .dec .trailer [0, 0, 0, 0, 0, 0, 0]))).map (fun t => (t.ipos, t.phase, t.errCause)) =
      some (0, .err, 7) := by decide

/-- V-HD8. -/
theorem test_end_write :
    (nextOf (step (inPhase .enc .trailer []))).map (fun t => (t.out, t.phase)) =
      some ([0, 0, 0, 0, 0, 0, 0, 1], .done) := by decide

/-- V-E12. -/
theorem test_rgb_write :
    wrote (step (bodyEnc 9 3 ⟨100, 100, 100, 255⟩ 1 0 [67, 67, 67])) =
      some (⟨67, 67, 67, 255⟩, 0, 2, [0xFE, 0x43, 0x43, 0x43], .body) := by decide

/-- V-E18. -/
theorem test_rgba_write :
    wrote (step (bodyEnc 9 4 ⟨100, 100, 100, 255⟩ 1 0 [100, 100, 100, 254])) =
      some (⟨100, 100, 100, 254⟩, 0, 2, [0xFF, 0x64, 0x64, 0x64, 0xFE], .body) := by decide

/-- V-E27. -/
theorem test_index_write :
    wrote (step (bodyEnc 9 4 ⟨0, 0, 0, 255⟩ 1 0 [0, 0, 0, 0])) = some (⟨0, 0, 0, 0⟩, 0, 2, [0x00], .body) := by decide

/-- V-E3. -/
theorem test_diff_write :
    wrote (step (bodyEnc 9 3 ⟨128, 255, 0, 255⟩ 1 0 [128, 0, 255])) =
      some (⟨128, 0, 255, 255⟩, 0, 2, [0x6D], .body) := by decide

/-- V-E11. -/
theorem test_luma_write :
    wrote (step (bodyEnc 9 3 ⟨100, 100, 100, 255⟩ 1 0 [138, 131, 123])) =
      some (⟨138, 131, 123, 255⟩, 0, 2, [0xBF, 0xF0], .body) := by decide

/-- V-E25: a pending run is flushed before the differing pixel's own chunk. -/
theorem test_run_write :
    wrote (step (bodyEnc 9 3 ⟨100, 100, 100, 255⟩ 5 5 [101, 100, 100])) =
      some (⟨101, 100, 100, 255⟩, 0, 6, [0xC4, 0x7A], .body) := by decide

/-- V-E26: the largest step, 6 bytes, at the last pixel. -/
theorem test_run_write_last :
    wrote (step (bodyEnc 8 4 ⟨100, 100, 100, 255⟩ 7 7 [1, 1, 1, 7])) =
      some (⟨1, 1, 1, 7⟩, 0, 8, [0xC6, 0xFF, 1, 1, 1, 7], .trailer) := by decide

/-- V-F12. -/
theorem test_start_bad_channels :
    (nextOf (step { State.reset with cmdStart := true, cfgChannels := 5 })).map
      (fun t => (t.phase, t.errCause, t.opos)) = some (.err, 8, 0) := by decide

/-- V-H5, V-H6 and V-H8. -/
theorem test_hash :
    Machine.hash ⟨255, 255, 255, 255⟩ = 38 ∧ Machine.hash ⟨1, 2, 3, 255⟩ = 23 ∧ Machine.hash ⟨21, 35, 40, 128⟩ = 6 := by
  decide

/-- The numbers of the phases on SP0 (R25). -/
theorem test_phase_numbers :
    [Phase.idle, .hdr, .body, .trailer, .done, .err].map (fun p => (stPhase (inPhase .dec p [])).toNat) =
      [0, 1, 2, 3, 4, 5] := by decide

/-- Of a run that ends in ERR the host takes no pixel (R230). -/
theorem test_void_pixels :
    (nextOf (step { inPhase .dec .trailer [] with pixout := [1, 2, 3] })).map takenPixels = some [] ∧
    takenPixels { inPhase .dec .done [] with pixout := [1, 2, 3] } = [1, 2, 3] := by decide

/-! ### Witnesses: for every obligation with hypotheses, states and operands that meet all of them

Where an obligation has several clauses, each has its own conjunct here, at the edge of its range. -/

/-- A black opaque decode in BODY with the bytes of IN. -/
def dec2 (w : BitVec 32) (inp : List Byte) : State := bodyDec w 3 ⟨0, 0, 0, 255⟩ inp

/-- The same in RGBA layout, one pixel and two pixels owed. -/
def one4 : State := bodyDec 1 4 ⟨0, 0, 0, 255⟩ []

def two4 : State := bodyDec 2 4 ⟨0, 0, 0, 255⟩ []

/-- A phase in which START is pulsed. -/
def starting (p : Phase) (m : BitVec 1) (c : Byte) : State :=
  { State.reset with phase := p, cmdStart := true, cfgMode := m, cfgChannels := c }

theorem starting_pulsed (p : Phase) (m : BitVec 1) (c : Byte) :
    (starting p m c).rst = false ∧ (starting p m c).cmdStart = true ∧ (starting p m c).phase = p := ⟨rfl, rfl, rfl⟩

theorem witness_DecodeOfEncodeIsTheRecord :
    (Instr.header 0 0 3 0).wf = true ∧ (Instr.header 1 2 4 1).wf = true ∧ (Instr.rgb 0 0 0).wf = true ∧
    (Instr.rgba 0 0 0 0).wf = true ∧ (Instr.index 63).wf = true ∧ (Instr.diff 3 3 3).wf = true ∧
    (Instr.luma 63 15 15).wf = true ∧ (Instr.run 0).wf = true ∧ (Instr.run 61).wf = true ∧
    Instr.endMarker.wf = true := by decide

theorem witness_DecodedBytesAreTheEncoding :
    decodeAt .header [0x71, 0x6F, 0x69, 0x66, 0, 0, 0, 0, 0, 0, 0, 0, 7, 9] = .ok (.header 0 0 7 9, []) ∧
    decodeAt .chunk [0xFD, 5] = .ok (.run 61, [5]) ∧
    decodeAt .trailer [0, 0, 0, 0, 0, 0, 0, 1] = .ok (.endMarker, []) := by decide

/-- Each length at its edge: one byte short, and just enough. -/
theorem witness_TagAloneGivesTheLength :
    (decodeAt .chunk [0xFE, 1, 2] = .error .eChunkTrunc ∧ decodeAt .chunk [0xFE, 1, 2, 3] = .ok (.rgb 1 2 3, [])) ∧
    (decodeAt .chunk [0xFF, 1, 2, 3] = .error .eChunkTrunc ∧
      decodeAt .chunk [0xFF, 1, 2, 3, 4] = .ok (.rgba 1 2 3 4, [])) ∧
    (decodeAt .chunk [0x80] = .error .eChunkTrunc ∧ decodeAt .chunk [0xBF, 0] = .ok (.luma 63 0 0, [])) ∧
    (decodeAt .chunk [0x7F] = .ok (.diff 3 3 3, []) ∧ decodeAt .chunk [0xC0] = .ok (.run 0, [])) := by decide

theorem quiet_dec2 (w : BitVec 32) (inp : List Byte) : Undisturbed (dec2 w inp) := ⟨rfl, rfl⟩

theorem readable_dec2 (w : BitVec 32) (inp : List Byte) : ChunkReadable (dec2 w inp) := ⟨rfl, rfl, .inl rfl⟩

theorem readable_rgba (w : BitVec 32) (inp : List Byte) : ChunkReadable (bodyDec w 4 ⟨0, 0, 0, 255⟩ inp) :=
  ⟨rfl, rfl, .inr rfl⟩

theorem witness_StepRunsTheFetchedRecord :
    (∃ s : State, Undisturbed s ∧ s.mode = .dec ∧ phasePosition s.phase = some .header ∧
      decodeAt .header (s.inp.drop s.ipos) = .ok (.header 0 0 3 0, [])) ∧
    (∃ s : State, Undisturbed s ∧ s.mode = .dec ∧ phasePosition s.phase = some .chunk ∧
      decodeAt .chunk (s.inp.drop s.ipos) = .ok (.run 61, [])) ∧
    (∃ s : State, Undisturbed s ∧ s.mode = .dec ∧ phasePosition s.phase = some .trailer ∧
      decodeAt .trailer (s.inp.drop s.ipos) = .ok (.endMarker, [])) :=
  ⟨⟨inPhase .dec .hdr [0x71, 0x6F, 0x69, 0x66, 0, 0, 0, 0, 0, 0, 0, 0, 3, 0], ⟨rfl, rfl⟩, rfl, rfl, rfl⟩,
    ⟨dec2 4 [0xFD], ⟨rfl, rfl⟩, rfl, rfl, rfl⟩,
    ⟨inPhase .dec .trailer [0, 0, 0, 0, 0, 0, 0, 1], ⟨rfl, rfl⟩, rfl, rfl, rfl⟩⟩

theorem witness_StepTakesTheFetchFault :
    (∃ s : State, Undisturbed s ∧ s.mode = .dec ∧ phasePosition s.phase = some .header ∧
      decodeAt .header (s.inp.drop s.ipos) = .error .eMagic) ∧
    (∃ s : State, Undisturbed s ∧ s.mode = .dec ∧ phasePosition s.phase = some .chunk ∧
      decodeAt .chunk (s.inp.drop s.ipos) = .error .eChunkTrunc) ∧
    (∃ s : State, Undisturbed s ∧ s.mode = .dec ∧ phasePosition s.phase = some .trailer ∧
      decodeAt .trailer (s.inp.drop s.ipos) = .error .eEndMarker) :=
  ⟨⟨inPhase .dec .hdr [], ⟨rfl, rfl⟩, rfl, rfl, rfl⟩, ⟨dec2 4 [0xFE], ⟨rfl, rfl⟩, rfl, rfl, rfl⟩,
    ⟨inPhase .dec .trailer [0], ⟨rfl, rfl⟩, rfl, rfl, rfl⟩⟩

theorem witness_EncoderRunsHeaderAndEnd :
    (Undisturbed (inPhase .enc .hdr []) ∧ (inPhase .enc .hdr []).mode = .enc ∧ (inPhase .enc .hdr []).phase = .hdr) ∧
    (Undisturbed (inPhase .enc .trailer []) ∧ (inPhase .enc .trailer []).mode = .enc ∧
      (inPhase .enc .trailer []).phase = .trailer) :=
  ⟨⟨⟨rfl, rfl⟩, rfl, rfl⟩, ⟨rfl, rfl⟩, rfl, rfl⟩

theorem quiet_inPhase (m : Mode) (p : Phase) (inp : List Byte) :
    Undisturbed (inPhase m p inp) ∧ (inPhase m p inp).mode = m ∧ (inPhase m p inp).phase = p := ⟨⟨rfl, rfl⟩, rfl, rfl⟩

/-- The six outcomes of the header's chain, each at its edge; the state is `inPhase .dec .hdr` of the bytes, which
`quiet_inPhase` shows to meet the hypotheses. -/
theorem witness_HeaderReadJudgesInStreamOrder :
    (nextOf (step (inPhase .dec .hdr [0x71, 0x6F, 0x69]))).map stErrCause = some 1 ∧
    (nextOf (step (inPhase .dec .hdr [0x71, 0x6F, 0x69, 0x66, 0, 0, 0, 0, 0, 0, 0, 0]))).map stErrCause = some 2 ∧
    (nextOf (step (inPhase .dec .hdr [0x71, 0x6F, 0x69, 0x66, 0, 0, 0, 0, 0, 0, 0, 0, 2]))).map stErrCause = some 3 ∧
    (nextOf (step (inPhase .dec .hdr [0x71, 0x6F, 0x69, 0x66, 0, 0, 0, 0, 0, 0, 0, 0, 3]))).map stErrCause = some 2 ∧
    (nextOf (step (inPhase .dec .hdr [0x71, 0x6F, 0x69, 0x66, 0, 0, 0, 0, 0, 0, 0, 0, 4, 2]))).map stErrCause =
      some 4 ∧
    (nextOf (step (inPhase .dec .hdr [0x71, 0x6F, 0x69, 0x66, 0, 0, 0, 0, 0, 0, 0, 0, 4, 1]))).map stPhase =
      some 3 := by decide

theorem witness_HeaderReadCompletes :
    (inPhase .dec .hdr []).mode = .dec ∧ (inPhase .dec .hdr []).phase = .hdr ∧
    ((3 : BitVec 8) = 3 ∨ (3 : BitVec 8) = 4) ∧ ((4 : BitVec 8) = 3 ∨ (4 : BitVec 8) = 4) ∧
    ((0 : BitVec 8) = 0 ∨ (0 : BitVec 8) = 1) ∧ ((1 : BitVec 8) = 0 ∨ (1 : BitVec 8) = 1) := by decide

theorem witness_HeaderWriteCompletes :
    (inPhase .enc .hdr []).mode = .enc ∧ (inPhase .enc .hdr []).phase = .hdr := ⟨rfl, rfl⟩

/-- Both outcomes, on states that `quiet_inPhase` shows to meet the hypotheses. -/
theorem witness_EndReadJudgesEightBytes :
    (nextOf (step (inPhase .dec .trailer [0, 0, 0, 0, 0, 0, 0, 1, 9]))).map stDone = some true ∧
    (nextOf (step (inPhase .dec .trailer [0, 0, 0, 0, 0, 0, 1]))).map stErrCause = some 7 := by decide

theorem witness_EndReadCompletes :
    (inPhase .dec .trailer []).mode = .dec ∧ (inPhase .dec .trailer []).phase = .trailer := ⟨rfl, rfl⟩

theorem witness_EndWriteCompletes :
    (inPhase .enc .trailer []).mode = .enc ∧ (inPhase .enc .trailer []).phase = .trailer := ⟨rfl, rfl⟩

/-- A first clause's state at the last pixel and one with room, in both layouts; a second clause's state one byte
short. -/
theorem witness_RgbReadCompletes :
    (ChunkReadable (dec2 1 []) ∧ (dec2 1 []).npx.toNat < (dec2 1 []).w.toNat * (dec2 1 []).h.toNat) ∧
    (ChunkReadable two4 ∧
      two4.npx.toNat < two4.w.toNat * two4.h.toNat) ∧
    (Undisturbed (dec2 1 [0xFE, 1, 2]) ∧ ChunkReadable (dec2 1 [0xFE, 1, 2]) ∧
      (dec2 1 [0xFE, 1, 2]).inp.drop (dec2 1 [0xFE, 1, 2]).ipos = 0xFE :: [1, 2] ∧ [(1 : Byte), 2].length < 3) :=
  ⟨⟨readable_dec2 _ _, by decide⟩, ⟨readable_rgba _ _, by decide⟩, quiet_dec2 _ _, readable_dec2 _ _, rfl, by decide⟩

theorem witness_RgbaReadCompletes :
    (ChunkReadable one4 ∧
      one4.npx.toNat < one4.w.toNat * one4.h.toNat) ∧
    (ChunkReadable (dec2 2 []) ∧ (dec2 2 []).npx.toNat < (dec2 2 []).w.toNat * (dec2 2 []).h.toNat) ∧
    (Undisturbed (dec2 1 [0xFF, 1, 2, 3]) ∧ ChunkReadable (dec2 1 [0xFF, 1, 2, 3]) ∧
      (dec2 1 [0xFF, 1, 2, 3]).inp.drop (dec2 1 [0xFF, 1, 2, 3]).ipos = 0xFF :: [1, 2, 3] ∧
      [(1 : Byte), 2, 3].length < 4) :=
  ⟨⟨readable_rgba _ _, by decide⟩, ⟨readable_dec2 _ _, by decide⟩, quiet_dec2 _ _, readable_dec2 _ _, rfl, by decide⟩

theorem witness_IndexReadCompletes :
    ((0x3F : Byte).toNat ≤ 0x3F) ∧
    (ChunkReadable (dec2 1 []) ∧ (dec2 1 []).npx.toNat < (dec2 1 []).w.toNat * (dec2 1 []).h.toNat) ∧
    (Undisturbed (dec2 1 []) ∧ ChunkReadable (dec2 1 []) ∧ (dec2 1 []).inp.drop (dec2 1 []).ipos = []) :=
  ⟨by decide, ⟨readable_dec2 _ _, by decide⟩, quiet_dec2 _ _, readable_dec2 _ _, rfl⟩

/-- The first and the last DIFF tag. -/
theorem witness_DiffReadCompletes :
    (0x40 ≤ (0x40 : Byte).toNat ∧ (0x40 : Byte).toNat ≤ 0x7F ∧ 0x40 ≤ (0x7F : Byte).toNat ∧ (0x7F : Byte).toNat ≤ 0x7F) ∧
    (ChunkReadable two4 ∧
      two4.npx.toNat < two4.w.toNat * two4.h.toNat) ∧
    (Undisturbed (dec2 1 []) ∧ ChunkReadable (dec2 1 []) ∧ (dec2 1 []).inp.drop (dec2 1 []).ipos = []) :=
  ⟨by decide, ⟨readable_rgba _ _, by decide⟩, quiet_dec2 _ _, readable_dec2 _ _, rfl⟩

/-- The first and the last clause at both ends of the LUMA tags. -/
theorem witness_LumaReadCompletes :
    (0x80 ≤ (0x80 : Byte).toNat ∧ (0x80 : Byte).toNat ≤ 0xBF ∧ 0x80 ≤ (0xBF : Byte).toNat ∧ (0xBF : Byte).toNat ≤ 0xBF) ∧
    (ChunkReadable (dec2 1 []) ∧ (dec2 1 []).npx.toNat < (dec2 1 []).w.toNat * (dec2 1 []).h.toNat) ∧
    (Undisturbed (dec2 1 [0x80]) ∧ ChunkReadable (dec2 1 [0x80]) ∧
      (dec2 1 [0x80]).inp.drop (dec2 1 [0x80]).ipos = [0x80]) ∧
    (Undisturbed (dec2 1 [0xBF]) ∧ ChunkReadable (dec2 1 [0xBF]) ∧
      (dec2 1 [0xBF]).inp.drop (dec2 1 [0xBF]).ipos = [0xBF]) :=
  ⟨by decide, ⟨readable_dec2 _ _, by decide⟩, ⟨quiet_dec2 _ _, readable_dec2 _ _, rfl⟩, quiet_dec2 _ _, readable_dec2 _ _, rfl⟩

/-- The first and the last RUN tag; the longest RUN one pixel past the target, at the target, and one pixel short of it. -/
theorem witness_RunReadCompletes :
    (0xC0 ≤ (0xC0 : Byte).toNat ∧ (0xC0 : Byte).toNat ≤ 0xFD ∧ 0xC0 ≤ (0xFD : Byte).toNat ∧ (0xFD : Byte).toNat ≤ 0xFD) ∧
    (ChunkReadable (dec2 61 []) ∧ (61 : BitVec 6).toNat ≤ 61 ∧
      (dec2 61 []).npx.toNat + ((61 : BitVec 6).toNat + 1) > (dec2 61 []).w.toNat * (dec2 61 []).h.toNat) ∧
    (ChunkReadable (dec2 62 []) ∧
      (dec2 62 []).npx.toNat + ((61 : BitVec 6).toNat + 1) = (dec2 62 []).w.toNat * (dec2 62 []).h.toNat) ∧
    (ChunkReadable (dec2 63 []) ∧
      (dec2 63 []).npx.toNat + ((61 : BitVec 6).toNat + 1) < (dec2 63 []).w.toNat * (dec2 63 []).h.toNat) :=
  ⟨by decide, ⟨readable_dec2 _ _, by decide, by decide⟩, ⟨readable_dec2 _ _, by decide⟩, readable_dec2 _ _, by decide⟩

theorem witness_ChunkReadStoresOneSlot :
    (positionOf (.rgb 1 2 3) = .chunk ∧ (dec2 2 []).mode = .dec ∧ ∃ t, exec (.rgb 1 2 3) (dec2 2 []) = .next t) ∧
    (positionOf (.index 0) = .chunk ∧ (dec2 2 []).mode = .dec ∧ ∃ t, exec (.index 0) (dec2 2 []) = .next t) :=
  ⟨⟨rfl, rfl, _, rfl⟩, rfl, rfl, _, rfl⟩

/-- A chunk that is carried out, and one that faults. -/
theorem witness_ChunkReadFrame :
    (positionOf (.run 1) = .chunk ∧ (dec2 2 []).mode = .dec ∧
      ∃ t, exec (.run 1) (dec2 2 []) = .next t ∧ t.phase ≠ .err) ∧
    (∃ t, exec (.run 2) (dec2 2 []) = .next t ∧ t.phase = .err) :=
  ⟨⟨rfl, rfl, _, rfl, by decide⟩, _, rfl, rfl⟩

/-- An encode in BODY of a 9 by 1 image, in RGB, with r pixels pending. -/
def enc9 (r : BitVec 6) (px : List Byte) : State := bodyEnc 9 3 ⟨0, 0, 0, 255⟩ 2 r px

theorem writable_enc9 (r : BitVec 6) (px : List Byte) : ChunkWritable (enc9 r px) := ⟨rfl, rfl⟩

theorem quiet_enc9 (r : BitVec 6) (px : List Byte) : Undisturbed (enc9 r px) ∧ LegalLayout (enc9 r px) :=
  ⟨⟨rfl, rfl⟩, .inl rfl⟩

theorem witness_ChunkEmitCompletes : ChunkWritable (enc9 0 []) := writable_enc9 0 []

/-- The shortest and the longest run. -/
theorem witness_RunEmitCompletes :
    (ChunkWritable (enc9 1 []) ∧ 1 ≤ (enc9 1 []).run.toNat ∧ (enc9 1 []).run.toNat ≤ 62) ∧
    (ChunkWritable (enc9 62 []) ∧ 1 ≤ (enc9 62 []).run.toNat ∧ (enc9 62 []).run.toNat ≤ 62) :=
  ⟨⟨writable_enc9 _ _, by decide, by decide⟩, writable_enc9 _ _, by decide, by decide⟩

theorem witness_ChunkEmitFrame :
    (positionOf (.luma 1 2 3) = .chunk ∧ (enc9 0 []).mode = .enc ∧ ∃ t, exec (.luma 1 2 3) (enc9 0 []) = .next t) ∧
    (positionOf (.run 0) = .chunk ∧ (enc9 1 []).mode = .enc ∧ ∃ t, exec (.run 0) (enc9 1 []) = .next t) :=
  ⟨⟨rfl, rfl, _, rfl⟩, rfl, rfl, _, rfl⟩

/-- HEADER read well and badly, HEADER written, END read and written. -/
theorem witness_PositionalFrame :
    (∃ t, exec (.header 1 1 3 0) (inPhase .dec .hdr []) = .next t ∧ t.phase ≠ .err) ∧
    (∃ t, exec (.header 1 1 5 0) (inPhase .dec .hdr []) = .next t ∧ t.phase = .err) ∧
    (∃ t, exec (.header 1 1 3 0) (inPhase .enc .hdr []) = .next t) ∧
    (∃ t, exec .endMarker (inPhase .dec .trailer []) = .next t) ∧
    (∃ t, exec .endMarker (inPhase .enc .trailer []) = .next t) ∧
    positionOf (.header 1 1 3 0) ≠ .chunk ∧ positionOf .endMarker ≠ .chunk :=
  ⟨⟨_, rfl, by decide⟩, ⟨_, rfl, rfl⟩, ⟨_, rfl⟩, ⟨_, rfl⟩, ⟨_, rfl⟩, by decide, by decide⟩

theorem witness_NextPixelTakesTheLayoutsBytes :
    ((enc9 0 [1, 2, 3]).ch = 3 ∧ (enc9 0 [1, 2, 3]).pixin.drop ((enc9 0 [1, 2, 3]).npx.toNat * 3) = 1 :: 2 :: 3 :: []) ∧
    ((bodyEnc 9 4 ⟨0, 0, 0, 255⟩ 1 0 [1, 2, 3, 4]).ch = 4 ∧
      (bodyEnc 9 4 ⟨0, 0, 0, 255⟩ 1 0 [1, 2, 3, 4]).pixin.drop
        ((bodyEnc 9 4 ⟨0, 0, 0, 255⟩ 1 0 [1, 2, 3, 4]).npx.toNat * 4) = 1 :: 2 :: 3 :: 4 :: []) := by decide

/-- The conditions of the pixel step on a state and its next pixel. -/
def PixelReady (s : State) (px : Pixel) : Prop :=
  Undisturbed s ∧ ChunkWritable s ∧ LegalLayout s ∧ s.npx.toNat < s.w.toNat * s.h.toNat ∧ s.run.toNat ≤ 61 ∧
    nextPixel s = some px

/-- The count reaches 62; the pixel is the last; neither. -/
theorem witness_RepeatedPixelIsCountedOrFlushed :
    PixelReady (enc9 61 [0, 0, 0]) (enc9 61 [0, 0, 0]).prev ∧
    PixelReady (bodyEnc 3 3 ⟨0, 0, 0, 255⟩ 2 2 [0, 0, 0]) (bodyEnc 3 3 ⟨0, 0, 0, 255⟩ 2 2 [0, 0, 0]).prev ∧
    PixelReady (enc9 60 [0, 0, 0]) (enc9 60 [0, 0, 0]).prev :=
  ⟨⟨⟨rfl, rfl⟩, ⟨rfl, rfl⟩, .inl rfl, by decide, by decide, by decide⟩,
    ⟨⟨rfl, rfl⟩, ⟨rfl, rfl⟩, .inl rfl, by decide, by decide, by decide⟩,
    ⟨⟨rfl, rfl⟩, ⟨rfl, rfl⟩, .inl rfl, by decide, by decide, by decide⟩⟩

/-- A chunk of one pixel and the longest RUN, each with one pixel owed after it; a pixel to encode that differs from
`prev`. -/
theorem witness_NextIndexFetchesTheStoredPixel :
    (positionOf (.diff 3 3 3) = .chunk ∧ (∀ idx, Instr.diff 3 3 3 ≠ .index idx) ∧ ChunkReadable (dec2 2 []) ∧
      Memory.wf (dec2 2 []).cache = true ∧
      (dec2 2 []).npx.toNat + chunkPixels (.diff 3 3 3) < (dec2 2 []).w.toNat * (dec2 2 []).h.toNat) ∧
    (positionOf (.run 61) = .chunk ∧ (∀ idx, Instr.run 61 ≠ .index idx) ∧ ChunkReadable (dec2 63 []) ∧
      Memory.wf (dec2 63 []).cache = true ∧
      (dec2 63 []).npx.toNat + chunkPixels (.run 61) < (dec2 63 []).w.toNat * (dec2 63 []).h.toNat) ∧
    (PixelReady (enc9 2 [1, 0, 0]) ⟨1, 0, 0, 255⟩ ∧ Memory.wf (enc9 2 [1, 0, 0]).cache = true ∧
      (⟨1, 0, 0, 255⟩ : Pixel) ≠ (enc9 2 [1, 0, 0]).prev) :=
  ⟨⟨rfl, by decide, readable_dec2 _ _, rfl, by decide⟩, ⟨rfl, by decide, readable_dec2 _ _, rfl, by decide⟩,
    ⟨⟨rfl, rfl⟩, ⟨rfl, rfl⟩, .inl rfl, by decide, by decide, by decide⟩, rfl, by decide⟩

/-- Without and with a pending run, and for each of the five chunks: INDEX (a fresh slot holds (0,0,0,0)), DIFF, LUMA,
RGB, RGBA. -/
theorem witness_DifferingPixelEmitsByPriority :
    PixelReady (bodyEnc 9 4 ⟨0, 0, 0, 255⟩ 2 0 [0, 0, 0, 0]) ⟨0, 0, 0, 0⟩ ∧
    PixelReady (enc9 2 [1, 0, 0]) ⟨1, 0, 0, 255⟩ ∧ PixelReady (enc9 0 [7, 7, 7]) ⟨7, 7, 7, 255⟩ ∧
    PixelReady (enc9 61 [128, 0, 0]) ⟨128, 0, 0, 255⟩ ∧
    PixelReady (bodyEnc 9 4 ⟨0, 0, 0, 255⟩ 2 0 [1, 1, 1, 7]) ⟨1, 1, 1, 7⟩ ∧
    (⟨0, 0, 0, 0⟩ : Pixel) ≠ ⟨0, 0, 0, 255⟩ ∧ (⟨1, 0, 0, 255⟩ : Pixel) ≠ ⟨0, 0, 0, 255⟩ :=
  ⟨⟨⟨rfl, rfl⟩, ⟨rfl, rfl⟩, .inr rfl, by decide, by decide, by decide⟩,
    ⟨⟨rfl, rfl⟩, ⟨rfl, rfl⟩, .inl rfl, by decide, by decide, by decide⟩,
    ⟨⟨rfl, rfl⟩, ⟨rfl, rfl⟩, .inl rfl, by decide, by decide, by decide⟩,
    ⟨⟨rfl, rfl⟩, ⟨rfl, rfl⟩, .inl rfl, by decide, by decide, by decide⟩,
    ⟨⟨rfl, rfl⟩, ⟨rfl, rfl⟩, .inr rfl, by decide, by decide, by decide⟩, by decide, by decide⟩

/-- One byte short of a pixel. -/
theorem witness_EncoderWaitsWithoutAPixel :
    Undisturbed (enc9 0 [1, 2]) ∧ ChunkWritable (enc9 0 [1, 2]) ∧ LegalLayout (enc9 0 [1, 2]) ∧
    (enc9 0 [1, 2]).pixin.length < ((enc9 0 [1, 2]).npx.toNat + 1) * (enc9 0 [1, 2]).ch.toNat :=
  ⟨⟨rfl, rfl⟩, ⟨rfl, rfl⟩, .inl rfl, by decide⟩

/-- The largest step, 6 bytes. -/
theorem witness_PixelStepEmitsAtMostSixBytes :
    Undisturbed (bodyEnc 9 4 ⟨0, 0, 0, 255⟩ 2 2 [1, 1, 1, 7]) ∧ ChunkWritable (bodyEnc 9 4 ⟨0, 0, 0, 255⟩ 2 2 [1, 1, 1, 7]) ∧
    ∃ t, step (bodyEnc 9 4 ⟨0, 0, 0, 255⟩ 2 2 [1, 1, 1, 7]) = .next t ∧ t.out.length = 6 :=
  ⟨⟨rfl, rfl⟩, ⟨rfl, rfl⟩, _, rfl, by decide⟩

theorem witness_SelectedChunkReadsBackThePixel :
    ChunkReadable (dec2 9 []) ∧ (dec2 9 []).prev = (enc9 0 []).prev ∧ (dec2 9 []).cache = (enc9 0 []).cache :=
  ⟨readable_dec2 _ _, rfl, rfl⟩

/-- A decode from IDLE, an encode with each legal layout from DONE and ERR, an encode with an illegal one; the pulse is
there in each (`starting_pulsed`). -/
theorem witness_StartInitialisesTheRun :
    ((starting .idle 1 0).rst = false ∧ (starting .idle 1 0).cmdStart = true ∧ (starting .idle 1 0).phase = .idle ∧
      (starting .idle 1 0).cfgMode = 1) ∧
    ((starting .done 0 3).phase = .done ∧ (starting .done 0 3).cfgMode = 0 ∧ (starting .done 0 3).cfgChannels = 3) ∧
    ((starting .err 0 4).phase = .err ∧ (starting .err 0 4).cfgMode = 0 ∧ (starting .err 0 4).cfgChannels = 4) ∧
    ((starting .idle 0 5).cfgMode = 0 ∧
      ¬ ((starting .idle 0 5).cfgChannels = 3 ∨ (starting .idle 0 5).cfgChannels = 4)) := by decide

/-- The three busy phases; the pulse is there in each (`starting_pulsed`). -/
theorem witness_StartWhileBusyIsRefused :
    (starting .hdr 0 3).rst = false ∧ (starting .hdr 0 3).cmdStart = true ∧ (starting .hdr 0 3).phase = .hdr ∧
    (starting .body 0 3).phase = .body ∧ (starting .trailer 0 3).phase = .trailer := by decide

/-- A reset in the middle of a run. -/
theorem witness_HardwareResetLeavesIdle : ({ dec2 2 [] with rst := true } : State).rst = true := rfl

theorem witness_NothingRunsOutsideARun :
    Undisturbed (inPhase .enc .idle []) ∧ (inPhase .enc .idle []).phase = .idle ∧
    Undisturbed (inPhase .dec .done []) ∧ (inPhase .dec .done []).phase = .done ∧
    Undisturbed (inPhase .dec .err []) ∧ (inPhase .dec .err []).phase = .err :=
  ⟨⟨rfl, rfl⟩, rfl, ⟨rfl, rfl⟩, rfl, ⟨rfl, rfl⟩, rfl⟩

/-- No tag byte, and a payload one byte short. -/
theorem witness_TruncatedChunkFaults :
    (Undisturbed (dec2 2 []) ∧ (dec2 2 []).mode = .dec ∧ (dec2 2 []).phase = .body ∧
      ∀ t0, ((dec2 2 []).inp.drop (dec2 2 []).ipos).head? = some t0 →
        ((dec2 2 []).inp.drop (dec2 2 []).ipos).length < chunkLength (classify t0)) ∧
    (Undisturbed (dec2 2 [0xFF, 1, 2, 3]) ∧ (dec2 2 [0xFF, 1, 2, 3]).mode = .dec ∧
      (dec2 2 [0xFF, 1, 2, 3]).phase = .body ∧
      ∀ t0, ((dec2 2 [0xFF, 1, 2, 3]).inp.drop (dec2 2 [0xFF, 1, 2, 3]).ipos).head? = some t0 →
        ((dec2 2 [0xFF, 1, 2, 3]).inp.drop (dec2 2 [0xFF, 1, 2, 3]).ipos).length < chunkLength (classify t0)) :=
  ⟨⟨⟨rfl, rfl⟩, rfl, rfl, fun _ h => by cases h⟩, ⟨rfl, rfl⟩, rfl, rfl, fun _ h => by cases h; decide⟩

theorem witness_FaultingStepCommitsNothing :
    Undisturbed (dec2 2 []) ∧ (dec2 2 []).phase ≠ .err ∧ ∃ t, step (dec2 2 []) = .next t ∧ t.phase = .err :=
  ⟨⟨rfl, rfl⟩, by decide, _, rfl, rfl⟩

theorem witness_EncoderStepsRaiseNoFault :
    Undisturbed (enc9 0 [1, 2, 3]) ∧ (enc9 0 [1, 2, 3]).mode = .enc ∧ (enc9 0 [1, 2, 3]).phase ≠ .err ∧
    ∃ t, step (enc9 0 [1, 2, 3]) = .next t := ⟨⟨rfl, rfl⟩, rfl, by decide, _, rfl⟩

/-- A START, and a step from each of the six phases. -/
theorem witness_PhasesFollowTheOrder :
    (∃ t, step (starting .done 0 3) = .next t ∧ t.phase = .hdr) ∧
    (∃ t, step (inPhase .dec .idle []) = .next t ∧ t.phase = .idle) ∧
    (∃ t, step (inPhase .enc .hdr []) = .next t ∧ t.phase = .trailer) ∧
    (∃ t, step (dec2 1 [0xC0]) = .next t ∧ t.phase = .trailer) ∧
    (∃ t, step (inPhase .enc .trailer []) = .next t ∧ t.phase = .done) ∧
    (∃ t, step (inPhase .dec .done []) = .next t ∧ t.phase = .done) ∧
    (∃ t, step (inPhase .dec .err []) = .next t ∧ t.phase = .err) ∧ (dec2 1 [0xC0]).rst = false :=
  ⟨⟨_, rfl, rfl⟩, ⟨_, rfl, rfl⟩, ⟨_, rfl, by decide⟩, ⟨_, rfl, by decide⟩, ⟨_, rfl, rfl⟩, ⟨_, rfl, rfl⟩, ⟨_, rfl, rfl⟩,
    rfl⟩

theorem witness_RunKeepsModeHeaderAndHostSide :
    (Undisturbed (dec2 2 [0xC0]) ∧ (dec2 2 [0xC0]).phase ≠ .hdr ∧ ∃ t, step (dec2 2 [0xC0]) = .next t) ∧
    (Undisturbed (inPhase .enc .hdr []) ∧ (inPhase .enc .hdr []).mode = .enc ∧
      ∃ t, step (inPhase .enc .hdr []) = .next t) :=
  ⟨⟨⟨rfl, rfl⟩, by decide, _, rfl⟩, ⟨rfl, rfl⟩, rfl, _, rfl⟩

theorem witness_PortsAreReadByStartOnly :
    (enc9 0 [1, 2, 3]).cmdStart = false ∧ ∃ t, step (enc9 0 [1, 2, 3]) = .next t := ⟨rfl, _, rfl⟩

/-- A step of an encode and a step of a decode, neither of which ends in ERR. -/
theorem witness_StreamsMoveForwardOnly :
    (Undisturbed (enc9 0 [1, 2, 3]) ∧ (enc9 0 [1, 2, 3]).mode = .enc ∧
      ∃ t, step (enc9 0 [1, 2, 3]) = .next t ∧ t.phase ≠ .err) ∧
    (Undisturbed (dec2 2 [0xC0]) ∧ (dec2 2 [0xC0]).mode = .dec ∧
      ∃ t, step (dec2 2 [0xC0]) = .next t ∧ t.phase ≠ .err) :=
  ⟨⟨⟨rfl, rfl⟩, rfl, _, rfl, by decide⟩, ⟨rfl, rfl⟩, rfl, _, rfl, by decide⟩

/-- A record consumed, and one that faults. -/
theorem witness_RecordLengthMovesTheStream :
    (Undisturbed (dec2 2 [0xC0]) ∧ (dec2 2 [0xC0]).mode = .dec ∧ phasePosition (dec2 2 [0xC0]).phase = some .chunk ∧
      decodeAt .chunk ((dec2 2 [0xC0]).inp.drop (dec2 2 [0xC0]).ipos) = .ok (.run 0, []) ∧
      ∃ t, step (dec2 2 [0xC0]) = .next t ∧ t.ipos = 1) ∧
    (Undisturbed (dec2 2 [0xC2]) ∧ (dec2 2 [0xC2]).mode = .dec ∧ phasePosition (dec2 2 [0xC2]).phase = some .chunk ∧
      decodeAt .chunk ((dec2 2 [0xC2]).inp.drop (dec2 2 [0xC2]).ipos) = .ok (.run 2, []) ∧
      ∃ t, step (dec2 2 [0xC2]) = .next t ∧ t.phase = .err) :=
  ⟨⟨⟨rfl, rfl⟩, rfl, rfl, rfl, _, rfl, rfl⟩, ⟨rfl, rfl⟩, rfl, rfl, rfl, _, rfl, rfl⟩

/-- A decode that owes its last pixel is in the invariant of the registers. -/
theorem control_dec1 : ControlInv (dec2 1 [0xC0]) where
  run_le := by decide
  run_dec := by decide
  npx_le := by decide
  hdr_fresh := by decide
  body_owes := by decide
  body_over := by decide
  layout := by decide
  cause := by decide

/-- An encode that has a pixel pending is in the invariant of the registers. -/
theorem control_enc9 : ControlInv (enc9 2 [1, 0, 0]) where
  run_le := by decide
  run_dec := by decide
  npx_le := by decide
  hdr_fresh := by decide
  body_owes := by decide
  body_over := by decide
  layout := by decide
  cause := by decide

theorem cache_enc9 : CacheInv (enc9 2 [1, 0, 0]) where
  wf := rfl
  slots := fun _ _ => .inl (cacheRead_cacheClear _)

theorem witness_ChunkStepProgressesOrFaults :
    ControlInv (dec2 1 [0xC0]) ∧ Undisturbed (dec2 1 [0xC0]) ∧ (dec2 1 [0xC0]).mode = .dec ∧
    (dec2 1 [0xC0]).phase = .body := ⟨control_dec1, ⟨rfl, rfl⟩, rfl, rfl⟩

theorem witness_SequencerNeverStops :
    (ControlInv (dec2 1 [0xC0]) ∧ Undisturbed (dec2 1 [0xC0])) ∧
    (ControlInv (enc9 2 [1, 0, 0]) ∧ Undisturbed (enc9 2 [1, 0, 0])) :=
  ⟨⟨control_dec1, rfl, rfl⟩, control_enc9, rfl, rfl⟩

theorem witness_StepKeepsTheRegistersInRange :
    (ControlInv (dec2 1 [0xC0]) ∧ ∃ t, step (dec2 1 [0xC0]) = .next t) ∧
    (ControlInv (enc9 2 [1, 0, 0]) ∧ ∃ t, step (enc9 2 [1, 0, 0]) = .next t) :=
  ⟨⟨control_dec1, _, rfl⟩, control_enc9, _, rfl⟩

theorem witness_StepKeepsTheCacheHashed :
    CacheInv (enc9 2 [1, 0, 0]) ∧ ∃ t, step (enc9 2 [1, 0, 0]) = .next t := ⟨cache_enc9, _, rfl⟩

theorem stream_dec1 : StreamInv (dec2 1 [0xC0]) where
  opos_eq := by decide
  ipos_le := by decide
  hdr_empty := by decide
  pixout_len := by decide

theorem witness_StepKeepsTheStreamsCounted :
    ControlInv (dec2 1 [0xC0]) ∧ StreamInv (dec2 1 [0xC0]) ∧ ∃ t, step (dec2 1 [0xC0]) = .next t :=
  ⟨control_dec1, stream_dec1, _, rfl⟩

/-- The encode after its header and two pending pixels. -/
def encAfterHeader : State := { enc9 2 [1, 0, 0] with opos := 14 }

theorem control_encAfterHeader : ControlInv encAfterHeader := ⟨by decide, by decide, by decide, by decide, by decide,
  by decide, by decide, by decide⟩

theorem encoder_encAfterHeader : EncoderInv encAfterHeader where
  hdr_fresh := by decide
  prev_cached := fun _ _ => .inl ⟨rfl, rfl⟩
  rgb_alpha := by decide
  body_cost := by decide
  trailer_cost := by decide
  done_cost := by decide

theorem witness_StepKeepsTheEncoderBounded :
    ControlInv encAfterHeader ∧ CacheInv encAfterHeader ∧ EncoderInv encAfterHeader ∧
    ∃ t, step encAfterHeader = .next t :=
  ⟨control_encAfterHeader, ⟨rfl, fun _ _ => .inl (cacheRead_cacheClear _)⟩, encoder_encAfterHeader, _, rfl⟩

/-- A decoder in step with an encoder that has two pixels pending, whose next pixel takes the two bytes C1 7A
(vector V-E29). -/
theorem witness_DecoderStaysInStepWithEncoder :
    ControlInv (enc9 2 [1, 0, 0]) ∧ CacheInv (enc9 2 [1, 0, 0]) ∧
    InStep (enc9 2 [1, 0, 0]) (dec2 9 [0xC1, 0x7A]) ∧ (enc9 2 [1, 0, 0]).phase = .body ∧
    nextPixel (enc9 2 [1, 0, 0]) = some ⟨1, 0, 0, 255⟩ ∧
    (∃ e', step (enc9 2 [1, 0, 0]) = .next e' ∧ e'.out = (enc9 2 [1, 0, 0]).out ++ [0xC1, 0x7A]) ∧
    (dec2 9 [0xC1, 0x7A]).inp.drop (dec2 9 [0xC1, 0x7A]).ipos = [0xC1, 0x7A] ++ [] :=
  ⟨control_enc9, cache_enc9,
    ⟨rfl, rfl, ⟨rfl, rfl⟩, ⟨rfl, rfl⟩, rfl, ⟨rfl, rfl, rfl, rfl⟩, rfl, rfl, rfl, fun _ h => by cases h; rfl⟩, rfl,
    by decide, ⟨_, rfl, by decide⟩, rfl⟩

/-- A 2 by 1 RGB image, and the empty one. -/
theorem witness_DecodeOfEncodeIsTheImage :
    ([1, 2, 3, 4, 5, 6] : List Byte).length = (2 : BitVec 32).toNat * (1 : BitVec 32).toNat * (3 : BitVec 8).toNat ∧
    ([] : List Byte).length = (0 : BitVec 32).toNat * (1 : BitVec 32).toNat * (4 : BitVec 8).toNat := by decide

/-- A legal layout and an illegal one. -/
theorem witness_EncodeGivesBytesWithinBounds :
    ([1, 2, 3, 4] : List Byte).length = (1 : BitVec 32).toNat * (1 : BitVec 32).toNat * (4 : BitVec 8).toNat ∧
    ([] : List Byte).length = (9 : BitVec 32).toNat * (9 : BitVec 32).toNat * (0 : BitVec 8).toNat := by decide

end Sys2Proof.Tests
end

/-! SUPPORT. What the sequencer's step can do in either mode, said once as a relation that `step` is equivalent to
(43_sequencer_and_commands.md rules R201 and R202); the statements about 10_state.md are settled by cases on it. -/

namespace Sys2Proof.Machine

open Sys2Proof

/-! ### The record at the stream position -/

/-- A chunk read is a chunk, and it has taken the bytes its kind says (R91). -/
theorem decodeChunk_ok {bs rest : List Byte} {i : Instr} (h : decodeChunk bs = .ok (i, rest)) :
    positionOf i = .chunk ∧ bs.length = recordLength i + rest.length := by
  unfold decodeChunk at h
  split at h
  · cases h
  · split at h
    · next hp =>
      cases h
      unfold payload at hp
      split at hp <;> cases hp <;>
        exact ⟨rfl, by simp only [List.length_cons, recordLength, chunkLength]; omega⟩
    · cases h

/-- A header read is a HEADER of 14 bytes (R81). -/
theorem decodeHeader_ok {bs rest : List Byte} {i : Instr} (h : decodeHeader bs = .ok (i, rest)) :
    positionOf i = .header ∧ bs.length = recordLength i + rest.length := by
  unfold decodeHeader at h
  split at h
  · split at h
    · unfold decodeHeaderFields at h
      split at h
      · cases h
        exact ⟨rfl, by simp only [List.length_cons, recordLength, Config.hdrLen]; omega⟩
      · split at h <;> cases h
      · cases h
    · cases h
  · cases h

/-- An end marker read is an END of 8 bytes (R82). -/
theorem decodeEnd_ok {bs rest : List Byte} {i : Instr} (h : decodeEnd bs = .ok (i, rest)) :
    positionOf i = .trailer ∧ bs.length = recordLength i + rest.length := by
  unfold decodeEnd at h
  split at h
  · split at h
    · cases h
      exact ⟨rfl, by simp only [List.length_cons, recordLength, Config.endLen]; omega⟩
    · cases h
  · cases h

/-- The record decoded at a position stands there, and it has taken exactly its own length (R80). -/
theorem decodeAt_ok {p : Position} {bs rest : List Byte} {i : Instr} (h : decodeAt p bs = .ok (i, rest)) :
    positionOf i = p ∧ bs.length = recordLength i + rest.length := by
  cases p with
  | header => exact decodeHeader_ok h
  | chunk => exact decodeChunk_ok h
  | trailer => exact decodeEnd_ok h

theorem fetchAt_eq_ok {p : Position} {s : State} {i : Instr} :
    fetchAt p s = .ok i ↔ ∃ rest, decodeAt p (remaining s) = .ok (i, rest) := by
  unfold fetchAt
  split <;> simp_all

theorem positionOf_of_fetchAt {p : Position} {s : State} {i : Instr} (h : fetchAt p s = .ok i) : positionOf i = p := by
  obtain ⟨rest, hd⟩ := fetchAt_eq_ok.mp h
  exact (decodeAt_ok hd).1

theorem recordLength_pos (i : Instr) : 0 < recordLength i := by
  cases i <;> simp [recordLength, chunkLength, Config.hdrLen, Config.endLen]

/-- The record fetched lies inside IN (R28). -/
theorem ipos_add_recordLength_le {p : Position} {s : State} {i : Instr} (h : fetchAt p s = .ok i) :
    s.ipos + recordLength i ≤ s.inp.length := by
  obtain ⟨rest, hd⟩ := fetchAt_eq_ok.mp h
  have hl := (decodeAt_ok hd).2
  have hpos := recordLength_pos i
  rw [remaining, List.length_drop] at hl
  omega

/-- The phase that reads a position is the only one. -/
theorem phasePosition_eq_some {q : Phase} {p : Position} : phasePosition q = some p ↔ q = positionPhase p := by
  cases q <;> cases p <;> simp [phasePosition, positionPhase]

/-! ### HEADER -/

/-- The state after a legal HEADER is read (R111). -/
def headerDone (w h : BitVec 32) (c cs : BitVec 8) (s : State) : State :=
  let t := loadHeader w h c cs (consume Config.hdrLen s)
  setPhase (bodyPhase t) t

/-- The header step leads to BODY where a pixel is owed, else to TRAILER (R110, R111). -/
theorem bodyPhase_cases (s : State) :
    (bodyPhase s = .body ∧ 0 < target s) ∨ (bodyPhase s = .trailer ∧ target s = 0) := by
  unfold bodyPhase
  split
  · next ht => exact .inl ⟨rfl, ht⟩
  · next ht => exact .inr ⟨rfl, Nat.eq_zero_of_not_pos ht⟩

/-- HEADER read, its two code bytes judged in order (R111, R223). -/
theorem exec_header_dec {s : State} (hm : s.mode = .dec) (hp : s.phase = .hdr) (w h : BitVec 32) (c cs : BitVec 8) :
    exec (.header w h c cs) s =
      if legalChannels c = false then .next (raise .eChannels s)
      else if legalColorspace cs = false then .next (raise .eColorspace s)
      else .next (headerDone w h c cs s) := by
  refine (recordIn_dec hp hm).trans ?_
  simp only [readHeader, headerDone, Bool.not_eq_true']

/-- END read (R113). -/
theorem exec_end_dec {s : State} (hm : s.mode = .dec) (hp : s.phase = .trailer) :
    exec .endMarker s = .next (setPhase .done (consume Config.endLen s)) :=
  recordIn_dec hp hm

/-! ### The moves of the sequencer -/

/-- Why a step of a decode faults: no record at the stream position, a code byte of HEADER, or a run past the target
(R220). -/
inductive DecodeFault (s : State) : Cause → Prop
  | recordMissing {p : Position} {c : Cause} (hp : phasePosition s.phase = some p) (hf : fetchAt p s = .error c) :
    DecodeFault s c
  | channels {w h : BitVec 32} {c cs : BitVec 8} (hp : s.phase = .hdr) (hf : fetchAt .header s = .ok (.header w h c cs))
    (hc : legalChannels c = false) : DecodeFault s .eChannels
  | colorspace {w h : BitVec 32} {c cs : BitVec 8} (hp : s.phase = .hdr)
    (hf : fetchAt .header s = .ok (.header w h c cs)) (hc : legalChannels c = true)
    (hs : legalColorspace cs = false) : DecodeFault s .eColorspace
  | overshoot {i : Instr} (hp : s.phase = .body) (hf : fetchAt .chunk s = .ok i) (ho : overshoots i s = true) :
    DecodeFault s .eRunOvershoot

/-- No step is enabled: no run is in progress, or an encode is offered no pixel (R201, R204; assumption log 9). -/
def Waits (s : State) : Prop :=
  phasePosition s.phase = none ∨
    (s.mode = .enc ∧ s.phase = .body ∧ legalChannels s.ch = true ∧ nextPixel s = none)

/-- The sequencer's step from s to t, one constructor for each step R201 and R202 enable. -/
inductive Move (s : State) : State → Prop
  | waits (hw : Waits s) : Move s s
  | faults {c : Cause} (hm : s.mode = .dec) (hf : DecodeFault s c) : Move s (raise c s)
  | readsHeader {w h : BitVec 32} {c cs : BitVec 8} (hm : s.mode = .dec) (hp : s.phase = .hdr)
    (hf : fetchAt .header s = .ok (.header w h c cs)) (hc : legalChannels c = true)
    (hs : legalColorspace cs = true) : Move s (headerDone w h c cs s)
  | readsChunk {i : Instr} {bs : List Byte} (hm : s.mode = .dec) (hp : s.phase = .body)
    (hf : fetchAt .chunk s = .ok i) (ho : overshoots i s = false) (hb : pixelBytes s.ch (readPixel i s) = some bs) :
    Move s (chunkDone (recordLength i) (readPixel i s) (readCount i) (readWrites i) bs s)
  | readsEnd (hm : s.mode = .dec) (hp : s.phase = .trailer) (hf : fetchAt .trailer s = .ok .endMarker) :
    Move s (setPhase .done (consume Config.endLen s))
  | writesHeader (hm : s.mode = .enc) (hp : s.phase = .hdr) :
    Move s (setPhase (bodyPhase s) (packRecord (.header s.w s.h s.ch s.cs) s))
  | takesPixel {px : Pixel} (hm : s.mode = .enc) (hp : s.phase = .body) (hl : legalChannels s.ch = true)
    (hn : nextPixel s = some px) : Move s (pixelDone px s)
  | writesEnd (hm : s.mode = .enc) (hp : s.phase = .trailer) :
    Move s (setPhase .done (packRecord .endMarker s))

/-- A fault is taken in a run. -/
theorem DecodeFault.phase_ne_idle {s : State} {c : Cause} (h : DecodeFault s c) : s.phase ≠ .idle := by
  cases h with
  | recordMissing hp hf => exact fun hi => by simp [hi, phasePosition] at hp
  | channels hp | colorspace hp | overshoot hp => simp [hp]

/-- A record that is there is run (R202). -/
theorem decoderStep_of_fetchAt {s : State} {p : Position} {i : Instr} (hp : phasePosition s.phase = some p)
    (hf : fetchAt p s = .ok i) : decoderStep s = exec i s := by
  simp [decoderStep, hp, hf]

theorem decoderStep_of_fault {s : State} {c : Cause} (hm : s.mode = .dec) (h : DecodeFault s c) :
    decoderStep s = .next (raise c s) := by
  cases h with
  | recordMissing hp hf => simp [decoderStep, hp, hf]
  | channels hp hf hc =>
    rw [decoderStep_of_fetchAt (by rw [hp]; rfl) hf, exec_header_dec hm hp, if_pos hc]
  | colorspace hp hf hc hs =>
    rw [decoderStep_of_fetchAt (by rw [hp]; rfl) hf, exec_header_dec hm hp, if_neg (by simp [hc]), if_pos hs]
  | overshoot hp hf ho =>
    rw [decoderStep_of_fetchAt (by rw [hp]; rfl) hf, exec_dec (positionOf_of_fetchAt hf) hm hp, if_pos ho]

theorem sequencerStep_dec {s : State} (hm : s.mode = .dec) : sequencerStep s = decoderStep s := by
  simp [sequencerStep, hm]

theorem sequencerStep_enc {s : State} (hm : s.mode = .enc) : sequencerStep s = encoderStep s := by
  simp [sequencerStep, hm]

theorem sequencerStep_of_waits {s : State} (h : Waits s) : sequencerStep s = .next s := by
  rcases h with hp | ⟨hm, hp, hl, hn⟩
  · cases hm : s.mode with
    | dec => simp [sequencerStep_dec hm, decoderStep, hp]
    | enc =>
      rw [sequencerStep_enc hm, encoderStep]
      cases hq : s.phase <;> simp_all [phasePosition]
  · simp [sequencerStep_enc hm, encoderStep, hp, encodePixel, hl, hn]

/-- Each move is what the sequencer answers. -/
theorem Move.sequencerStep_eq {s t : State} (h : Move s t) : sequencerStep s = .next t := by
  cases h with
  | waits hw => exact sequencerStep_of_waits hw
  | faults hm hf => rw [sequencerStep_dec hm, decoderStep_of_fault hm hf]
  | readsHeader hm hp hf hc hs =>
    rw [sequencerStep_dec hm, decoderStep_of_fetchAt (by rw [hp]; rfl) hf, exec_header_dec hm hp]
    simp [hc, hs]
  | readsChunk hm hp hf ho hb =>
    rw [sequencerStep_dec hm, decoderStep_of_fetchAt (by rw [hp]; rfl) hf, exec_dec (positionOf_of_fetchAt hf) hm hp,
      if_neg (by simp [ho]), commitChunk_of_legal hb]
  | readsEnd hm hp hf =>
    rw [sequencerStep_dec hm, decoderStep_of_fetchAt (by rw [hp]; rfl) hf, exec_end_dec hm hp]
  | writesHeader hm hp => simp [sequencerStep_enc hm, encoderStep, hp, exec_header_enc hm hp]
  | takesPixel hm hp hl hn =>
    simp [sequencerStep_enc hm, encoderStep, hp, encodePixel, hl, hn, takePixel_eq hm hp]
  | writesEnd hm hp => simp [sequencerStep_enc hm, encoderStep, hp, exec_end_enc hm hp]

/-- A record read by a decode is a move (R202). -/
theorem move_of_exec {s t : State} {p : Position} {i : Instr} (hm : s.mode = .dec)
    (hp : phasePosition s.phase = some p) (hf : fetchAt p s = .ok i) (h : exec i s = .next t) : Move s t := by
  have hi : positionOf i = p := positionOf_of_fetchAt hf
  rw [phasePosition_eq_some] at hp
  cases p with
  | header =>
    cases i with
    | header w h' c cs =>
      rw [exec_header_dec hm hp] at h
      split_ifs at h with hc hs <;> cases h
      · exact .faults hm (.channels hp hf hc)
      · exact .faults hm (.colorspace hp hf (by simpa using hc) hs)
      · exact .readsHeader hm hp hf (by simpa using hc) (by simpa using hs)
    | _ => cases hi
  | chunk =>
    rcases exec_dec_cases hi hm h with ⟨ho, rfl⟩ | ⟨ho, bs, hb, rfl⟩
    · exact .faults hm (.overshoot hp hf ho)
    · exact .readsChunk hm hp hf ho hb
  | trailer =>
    cases i with
    | endMarker =>
      rw [exec_end_dec hm hp] at h
      cases h
      exact .readsEnd hm hp hf
    | _ => cases hi

/-- The step of a decode is a move (R202). -/
theorem move_of_decoderStep {s t : State} (hm : s.mode = .dec) (h : decoderStep s = .next t) : Move s t := by
  rcases decoderStep_cases h with ⟨hp, rfl⟩ | ⟨p, hp, ⟨c, hf, rfl⟩ | ⟨i, hf, he⟩⟩
  · exact .waits (.inl hp)
  · exact .faults hm (.recordMissing hp hf)
  · exact move_of_exec hm hp hf he

/-- The step of an encode is a move (R201). -/
theorem move_of_encoderStep {s t : State} (hm : s.mode = .enc) (h : encoderStep s = .next t) : Move s t := by
  unfold encoderStep at h
  split at h
  · next hp =>
    cases h
    exact .waits (.inl (by rw [hp]; rfl))
  · next hp =>
    rw [exec_header_enc hm hp] at h
    cases h
    exact .writesHeader hm hp
  · next hp =>
    unfold encodePixel at h
    split_ifs at h with hl
    split at h
    · next px hn =>
      rw [takePixel_eq hm hp] at h
      cases h
      exact .takesPixel hm hp hl hn
    · next hn =>
      cases h
      exact .waits (.inr ⟨hm, hp, hl, hn⟩)
  · next hp =>
    rw [exec_end_enc hm hp] at h
    cases h
    exact .writesEnd hm hp
  · next hp =>
    cases h
    exact .waits (.inl (by rw [hp]; rfl))
  · next hp =>
    cases h
    exact .waits (.inl (by rw [hp]; rfl))

/-- The sequencer answers exactly its moves (R201, R202). -/
theorem sequencerStep_eq_next {s t : State} : sequencerStep s = .next t ↔ Move s t := by
  refine ⟨fun h => ?_, Move.sequencerStep_eq⟩
  cases hm : s.mode with
  | dec => exact move_of_decoderStep hm (sequencerStep_dec hm ▸ h)
  | enc => exact move_of_encoderStep hm (sequencerStep_enc hm ▸ h)

/-- Without reset or START a step is a move. -/
theorem step_eq_next_of_undisturbed {s t : State} (hu : Undisturbed s) : step s = .next t ↔ Move s t := by
  rw [step_sequencer hu.1 hu.2, sequencerStep_eq_next]

end Sys2Proof.Machine

/-! SUPPORT. The fields after each move, and the statements of 10_state.md: what a run leaves alone, the streams, the
ports, the status ports and reset. -/

namespace Sys2Proof.Machine

open Sys2Proof

/-! ### The counts after a pixel is taken -/

theorem PixelFrame.hostSideSame {s t : State} (f : PixelFrame s t) : HostSideSame s t :=
  ⟨f.cfgMode, f.cfgWidth, f.cfgHeight, f.cfgChannels, f.cfgColorspace, f.cmdStart, f.rst, f.inp, f.pixin⟩

theorem PixelFrame.headerSame {s t : State} (f : PixelFrame s t) : HeaderSame s t :=
  ⟨f.mode, f.w, f.h, f.ch, f.cs⟩

theorem HeaderSame.target {s t : State} (f : HeaderSame s t) : target t = target s := by
  obtain ⟨-, hw, hh, -, -⟩ := f
  simp [Machine.target, hw, hh]

/-- After the flush no run is pending (R163). -/
@[simp] theorem flushed_run (s : State) : (flushed s).run = 0 := by
  unfold flushed
  split
  · rfl
  · next h => simpa using h

@[simp] theorem flushed_npx (s : State) : (flushed s).npx = s.npx := by
  unfold flushed
  split <;> rfl

@[simp] theorem lookupWrite_run (px : Pixel) (s : State) : (lookupWrite px s).run = s.run := by
  rw [lookupWrite_eq]

@[simp] theorem lookupWrite_npx (px : Pixel) (s : State) : (lookupWrite px s).npx = s.npx := by
  rw [lookupWrite_eq]

/-- A pixel step counts its pixel (R160). -/
@[simp] theorem pixelDone_npx (px : Pixel) (s : State) : (pixelDone px s).npx = s.npx + 1 := by
  unfold pixelDone
  split
  · unfold repeatDone
    dsimp only
    rw [closeBody_npx]
    split <;> rfl
  · simp [newDone, packRecord]

/-- The run after a pixel step: one longer for a repeated pixel unless it is flushed, else none (R162, R163). -/
theorem pixelDone_run (px : Pixel) (s : State) :
    (pixelDone px s).run =
      if px = s.prev ∧ ¬ (s.run + 1 = 62 ∨ (s.npx + 1).toNat = target s) then s.run + 1 else 0 := by
  unfold pixelDone
  by_cases hp : px = s.prev
  · have ht : AtTarget (setRun (s.run + 1) (countPixels 1 s)) ↔ (s.npx + 1).toNat = target s := Iff.rfl
    simp only [hp, if_true, true_and, repeatDone, closeBody_run, countPixels_run, setRun_run, ht]
    split_ifs <;> rfl
  · simp [hp, newDone, packRecord]

@[simp] theorem pixelDone_target (px : Pixel) (s : State) : target (pixelDone px s) = target s :=
  (pixelFrame_pixelDone px s).headerSame.target

/-- A pixel step ends by closing the body of a state whose phase has not moved (R160). -/
theorem pixelDone_eq_closeBody (px : Pixel) (s : State) :
    ∃ u, pixelDone px s = closeBody u ∧ u.phase = s.phase := by
  have hf : (flushed (countPixels 1 s)).phase = s.phase := by
    unfold flushed
    split <;> rfl
  unfold pixelDone
  split
  · refine ⟨_, rfl, ?_⟩
    split <;> rfl
  · refine ⟨_, rfl, Eq.trans ?_ hf⟩
    rw [lookupWrite_eq]
    rfl

/-- With the last pixel taken the phase is TRAILER, else it stays (R160). -/
theorem pixelDone_phase_eq (px : Pixel) (s : State) :
    (pixelDone px s).phase = if (s.npx + 1).toNat = target s then .trailer else s.phase := by
  obtain ⟨u, hu, hp⟩ := pixelDone_eq_closeBody px s
  have hn : u.npx = s.npx + 1 := by rw [← closeBody_npx, ← hu, pixelDone_npx]
  have ht : target u = target s := by rw [← closeBody_target, ← hu, pixelDone_target]
  rw [hu, closeBody_phase, hn, ht, hp]

/-! ### The bytes of a pixel -/

@[simp] theorem repeatBytes_length (n : Nat) (bs : List Byte) : (repeatBytes n bs).length = n * bs.length := by
  simp [repeatBytes]

/-- In a legal layout a pixel has `CH` bytes (R140). -/
theorem pixelBytes_length {ch : BitVec 8} {p : Pixel} {bs : List Byte} (hl : legalChannels ch = true)
    (hb : pixelBytes ch p = some bs) : bs.length = ch.toNat := by
  obtain ⟨bs', hb', hlen⟩ := pixelBytes_of_legal hl p
  cases hb.symm.trans hb'
  exact hlen

/-! ### The count never wraps below the target (R23) -/

theorem target_lt (s : State) : target s < 2 ^ 64 :=
  calc target s < 2 ^ 32 * 2 ^ 32 := Nat.mul_lt_mul'' s.w.isLt s.h.isLt
    _ = 2 ^ 64 := by norm_num

theorem npx_add_toNat {s : State} {n : Nat} (h : s.npx.toNat + n ≤ target s) :
    (s.npx + BitVec.ofNat 64 n).toNat = s.npx.toNat + n := by
  have ht := target_lt s
  rw [BitVec.toNat_add, BitVec.toNat_ofNat, Nat.add_mod_mod, Nat.mod_eq_of_lt (by omega)]

/-- A chunk that does not overshoot keeps the count within the target (R130, R138). -/
theorem npx_add_readCount_le {s : State} {i : Instr} (hn : s.npx.toNat < target s) (ho : overshoots i s = false) :
    s.npx.toNat + readCount i ≤ target s := by
  cases i with
  | run f => simpa [overshoots, readCount] using ho
  | _ => exact hn

/-! ### What a run leaves alone (R24, R26, R33) -/

theorem headerSame_chunkDone (len : Nat) (px : Pixel) (n : Nat) (write : Bool) (bs : List Byte) (s : State) :
    HeaderSame s (chunkDone len px n write bs s) := by
  simp [HeaderSame, chunkDone_frame]

/-- The host's side of the state is the host's in every move. -/
theorem Move.hostSideSame {s t : State} (h : Move s t) : HostSideSame s t := by
  cases h with
  | takesPixel hm hp hl hn => exact (pixelFrame_pixelDone _ s).hostSideSame
  | readsChunk hm hp hf ho hb => simp [HostSideSame, chunkDone_frame]
  | _ => simp [HostSideSame, headerDone, packRecord]

/-- The mode and the header registers stay, but for the header step of a decode. -/
theorem Move.headerSame {s t : State} (h : Move s t) (hs : s.phase ≠ .hdr ∨ s.mode = .enc) : HeaderSame s t := by
  cases h with
  | readsHeader hm hp hf hc hl => simp [hm, hp] at hs
  | takesPixel hm hp hl hn => exact (pixelFrame_pixelDone _ s).headerSame
  | readsChunk hm hp hf ho hb => exact headerSame_chunkDone ..
  | _ => simp [HeaderSame, packRecord]

theorem Move.mode_eq {s t : State} (h : Move s t) : t.mode = s.mode := by
  cases h with
  | readsHeader hm hp hf hc hl => rfl
  | takesPixel hm hp hl hn => exact (pixelFrame_pixelDone _ s).mode
  | readsChunk hm hp hf ho hb => exact (headerSame_chunkDone ..).1
  | _ => simp [packRecord]

/-- Settles O45, by the frame of each move. -/
theorem runKeepsModeHeaderAndHostSide : Obligations.RunKeepsModeHeaderAndHostSide := by
  intro s t hu h
  have hmove := (step_eq_next_of_undisturbed hu).mp h
  exact ⟨hmove.mode_eq, hmove.hostSideSame, hmove.headerSame⟩

/-! ### The streams move forward (R28, R59, R64) -/

/-- An encode moves neither `ipos` nor PIXOUT, and `opos` counts what it appends to OUT. -/
theorem Move.enc_streams {s t : State} (h : Move s t) (hm : s.mode = .enc) :
    t.ipos = s.ipos ∧ t.pixout = s.pixout ∧ ∃ bs, t.out = s.out ++ bs ∧ t.opos = s.opos + bs.length := by
  cases h with
  | waits hw => exact ⟨rfl, rfl, [], by simp, by simp⟩
  | writesHeader _ hp => exact ⟨rfl, rfl, _, rfl, rfl⟩
  | writesEnd _ hp => exact ⟨rfl, rfl, _, rfl, rfl⟩
  | @takesPixel px _ hp hl hn =>
    have hf := pixelFrame_pixelDone px s
    obtain ⟨bs, hout, -, hopos⟩ := pixelDone_out px s
    exact ⟨hf.ipos, hf.pixout, bs, hout, hopos⟩
  | faults hd | readsHeader hd | readsChunk hd | readsEnd hd => cases hm.symm.trans hd

/-- A decode moves neither `opos` nor OUT, does not step back in IN, and only appends to PIXOUT. -/
theorem Move.dec_streams {s t : State} (h : Move s t) (hm : s.mode = .dec) :
    t.opos = s.opos ∧ t.out = s.out ∧ s.ipos ≤ t.ipos ∧ s.pixout <+: t.pixout := by
  cases h with
  | waits hw | faults _ hf => exact ⟨rfl, rfl, le_rfl, by simp⟩
  | readsHeader _ hp hf hc hs | readsEnd _ hp hf =>
    exact ⟨rfl, rfl, Nat.le_add_right .., by simp [headerDone]⟩
  | readsChunk _ hp hf ho hb => simp [chunkDone_frame]
  | writesHeader he | takesPixel he | writesEnd he => cases hm.symm.trans he

/-- Settles O47, one mode at a time. -/
theorem streamsMoveForwardOnly : Obligations.StreamsMoveForwardOnly := by
  intro s t hu h
  have hmove := (step_eq_next_of_undisturbed hu).mp h
  cases hm : s.mode with
  | enc =>
    obtain ⟨hi, hpix, bs, hout, hopos⟩ := hmove.enc_streams hm
    simp [hi, hpix, hout, hopos]
  | dec =>
    obtain ⟨hopos, hout, hi, hpix⟩ := hmove.dec_streams hm
    simp [hi, hpix, hout, hopos]

/-! ### The length of the record moves `ipos` (R91) -/

theorem bodyPhase_ne_err (s : State) : bodyPhase s ≠ .err := by
  unfold bodyPhase
  split <;> simp

theorem chunkDone_phase_ne_err {s : State} (hp : s.phase = .body) (len : Nat) (px : Pixel) (n : Nat) (write : Bool)
    (bs : List Byte) : (chunkDone len px n write bs s).phase ≠ .err := by
  rw [chunkDone_phase, hp]
  split <;> simp

/-- A record read moves `ipos` by its length, a fault not at all. -/
theorem Move.ipos_eq {s t : State} {p : Position} {i : Instr} (h : Move s t) (hm : s.mode = .dec)
    (hp : phasePosition s.phase = some p) (hi : fetchAt p s = .ok i) :
    t.ipos = if t.phase = .err then s.ipos else s.ipos + recordLength i := by
  have same {q : Position} {j : Instr} (hq : s.phase = positionPhase q) (hj : fetchAt q s = .ok j) : j = i := by
    have hpq : p = q := Option.some.inj (hp.symm.trans (phasePosition_eq_some.mpr hq))
    subst hpq
    exact Except.ok.inj (hj.symm.trans hi)
  cases h with
  | waits hw =>
    rcases hw with hn | ⟨he, -⟩
    · cases hp.symm.trans hn
    · cases hm.symm.trans he
  | faults _ hf => simp
  | readsHeader _ hq hf hc hs =>
    cases same (q := .header) hq hf
    exact (if_neg (bodyPhase_ne_err _)).symm
  | readsChunk _ hq hf ho hb =>
    cases same (q := .chunk) hq hf
    rw [chunkDone_ipos, if_neg (chunkDone_phase_ne_err hq _ _ _ _ _)]
  | readsEnd _ hq hf =>
    cases same (q := .trailer) hq hf
    simp [recordLength]
  | writesHeader he | takesPixel he | writesEnd he => cases hm.symm.trans he

/-- Settles O48, by the length each reading move consumes. -/
theorem recordLengthMovesTheStream : Obligations.RecordLengthMovesTheStream := by
  intro s t p i rest hu hm hp hd h
  exact ((step_eq_next_of_undisturbed hu).mp h).ipos_eq hm hp (fetchAt_eq_ok.mpr ⟨rest, hd⟩)

end Sys2Proof.Machine

/-! SUPPORT. The invariants of the registers and of the streams, kept by every step (10_state.md rules R22 to R28,
41_chunk_decoder.md rule R140). -/

namespace Sys2Proof.Machine

open Sys2Proof

/-! ### START (R200, R35) -/

/-- What START gives: a fresh HDR of a decode, a fresh HDR of an encode with the legal layout of the ports, or the fault
of an illegal one (R200). -/
theorem startRun_cases (s : State) :
    startRun s = setPhase .hdr (freeHeader (runInit s)) ∧ modeOfBit s.cfgMode = .dec ∨
    startRun s = setPhase .hdr { loadPorts (runInit s) with ch := s.cfgChannels } ∧ modeOfBit s.cfgMode = .enc ∧
      legalChannels s.cfgChannels = true ∨
    startRun s = raise .eCfgChannels (freeChannels (loadPorts (runInit s))) := by
  unfold startRun
  cases hm : modeOfBit s.cfgMode with
  | dec => exact .inl ⟨rfl, rfl⟩
  | enc =>
    dsimp only
    split
    · next hl => exact .inr (.inl ⟨rfl, rfl, hl⟩)
    · exact .inr (.inr rfl)

/-- The port CP4 has one bit, so its value is a legal colour space (R30, R24). -/
theorem legalColorspace_zeroExtend (b : BitVec 1) : legalColorspace (b.zeroExtend 8) = true := by
  revert b
  decide

/-- After START nothing is consumed, counted or produced, in HDR or in ERR (R35; assumption log 11). -/
theorem startRun_fresh (s : State) :
    (startRun s).run = 0 ∧ (startRun s).npx = 0 ∧ (startRun s).ipos = 0 ∧ (startRun s).opos = 0 ∧
      (startRun s).out = [] ∧ (startRun s).pixout = [] := by
  rcases startRun_cases s with ⟨h, -⟩ | ⟨h, -⟩ | h <;> rw [h] <;> exact ⟨rfl, rfl, rfl, rfl, rfl, rfl⟩

/-- START leads to HDR with no cause, an encode's layout being legal, or to ERR with code 8 (R200, R231). -/
theorem startRun_phase (s : State) :
    ((startRun s).phase = .hdr ∧ (startRun s).errCause = 0 ∧ ((startRun s).mode = .enc →
      legalChannels (startRun s).ch = true ∧ legalColorspace (startRun s).cs = true)) ∨
    ((startRun s).phase = .err ∧ (startRun s).errCause = 8) := by
  rcases startRun_cases s with ⟨h, hm⟩ | ⟨h, -, hl⟩ | h <;> rw [h]
  · exact .inl ⟨rfl, rfl, fun he => by cases hm.symm.trans he⟩
  · exact .inl ⟨rfl, rfl, fun _ => ⟨hl, legalColorspace_zeroExtend _⟩⟩
  · exact .inr ⟨rfl, rfl⟩

/-! ### The registers (R22 to R27) -/

/-- In IDLE the invariant asks for no cause and nothing else. -/
theorem controlInv_of_idle {s : State} (hp : s.phase = .idle) (he : s.errCause = 0) : ControlInv s := by
  constructor <;> simp [hp, he]

theorem controlInv_startRun (s : State) : ControlInv (startRun s) := by
  obtain ⟨hr, hn, -⟩ := startRun_fresh s
  rcases startRun_phase s with ⟨hp, he, hl⟩ | ⟨hp, he⟩
  · constructor <;> simp_all
  · constructor <;> simp_all

theorem causeCode_bounds (c : Cause) : 1 ≤ (causeCode c).toNat ∧ (causeCode c).toNat ≤ 8 := by
  cases c <;> decide

/-- A fault in a busy phase keeps the registers (R222). -/
theorem ControlInv.raised {s : State} (hi : ControlInv s) (hp : s.phase ≠ .idle) (c : Cause) :
    ControlInv (raise c s) where
  run_le _ := hi.run_le hp
  run_dec _ := hi.run_dec hp
  npx_le _ := hi.npx_le hp
  hdr_fresh h := by cases h
  body_owes h := by cases h
  body_over h := by simp at h
  layout h := by simp at h
  cause := causeCode_bounds c

/-- Outside ERR there is no cause (R27). -/
theorem ControlInv.errCause_eq_zero {s : State} (hi : ControlInv s) (hp : s.phase ≠ .err) : s.errCause = 0 := by
  simpa [hp] using hi.cause

/-- The header step: counts still 0, a legal layout, and the phase that the target gives (R110, R111). -/
theorem ControlInv.headerPassed {s t : State} (hi : ControlInv s) (hp : s.phase = .hdr) (hn : t.npx = s.npx)
    (hr : t.run = s.run) (he : t.errCause = s.errCause)
    (hl : legalChannels t.ch = true ∧ legalColorspace t.cs = true) (hq : t.phase = bodyPhase t) : ControlInv t := by
  obtain ⟨hn0, hr0⟩ := hi.hdr_fresh hp
  rw [hn0] at hn
  rw [hr0] at hr
  rw [hi.errCause_eq_zero (by simp [hp])] at he
  rcases bodyPhase_cases t with ⟨hb, ht⟩ | ⟨hb, ht⟩ <;> rw [hb] at hq <;> constructor <;> simp [hn, hr, he, hl, hq, ht]

/-- The pixels of one BODY step are counted: the body is closed exactly at the target, with no run pending there (R130,
R160). -/
theorem ControlInv.counted {s t : State} (hi : ControlInv s) (hp : s.phase = .body) (hh : HeaderSame s t)
    (he : t.errCause = s.errCause) (hn : t.npx.toNat ≤ target s)
    (hq : t.phase = if t.npx.toNat = target s then .trailer else .body) (hr : t.run.toNat ≤ 61)
    (hd : t.mode = .dec → t.run = 0) (hz : t.npx.toNat = target s → t.run = 0) : ControlInv t := by
  have hl := hi.layout (.inl hp)
  rw [hi.errCause_eq_zero (by simp [hp])] at he
  have ht := hh.target
  obtain ⟨-, -, -, hch, hcs⟩ := hh
  rw [← hch, ← hcs] at hl
  rw [← ht] at hn hq hz
  by_cases hend : t.npx.toNat = target t
  · rw [if_pos hend] at hq
    constructor <;> simp_all
  · rw [if_neg hend] at hq
    have hlt : t.npx.toNat < target t := by omega
    constructor <;> simp_all

/-- The end step: everything but the phase stays (R112, R113). -/
theorem ControlInv.ended {s t : State} (hi : ControlInv s) (hp : s.phase = .trailer) (hh : HeaderSame s t)
    (he : t.errCause = s.errCause) (hn : t.npx = s.npx) (hr : t.run = s.run) (hq : t.phase = .done) :
    ControlInv t := by
  have hl := hi.layout (.inr (.inl hp))
  obtain ⟨hnt, hr0⟩ := hi.body_over (.inl hp)
  rw [hi.errCause_eq_zero (by simp [hp])] at he
  rw [← hn, ← hh.target] at hnt
  rw [hr0] at hr
  obtain ⟨-, -, -, hch, hcs⟩ := hh
  rw [← hch, ← hcs] at hl
  constructor <;> simp [hnt, hr, he, hl, hq]

theorem ControlInv.chunkRead {s : State} (hi : ControlInv s) (hm : s.mode = .dec) (hp : s.phase = .body) {i : Instr}
    (ho : overshoots i s = false) (len : Nat) (px : Pixel) (write : Bool) (bs : List Byte) :
    ControlInv (chunkDone len px (readCount i) write bs s) := by
  have hle := npx_add_readCount_le (hi.body_owes hp) ho
  have hr : s.run = 0 := hi.run_dec (by simp [hp]) hm
  refine hi.counted hp (headerSame_chunkDone ..) (by simp [chunkDone_frame]) ?_ ?_ ?_ ?_ ?_
  · rwa [chunkDone_npx, npx_add_toNat hle]
  · rw [chunkDone_phase, chunkDone_npx, hp]
  all_goals simp [chunkDone_frame, hr]

/-- The run after a pixel step is at most 61 (R22). -/
theorem pixelDone_run_le (px : Pixel) {s : State} (hr : s.run.toNat ≤ 61) : (pixelDone px s).run.toNat ≤ 61 := by
  rw [pixelDone_run]
  split
  · next h =>
    have h62 : s.run + 1 ≠ 62 := fun e => h.2 (.inl e)
    bv_omega
  · decide

theorem ControlInv.pixelTaken {s : State} (hi : ControlInv s) (hm : s.mode = .enc) (hp : s.phase = .body) (px : Pixel) :
    ControlInv (pixelDone px s) := by
  have hf := pixelFrame_pixelDone px s
  have hlt : s.npx.toNat + 1 ≤ target s := hi.body_owes hp
  refine hi.counted hp hf.headerSame hf.errCause ?_ ?_ (pixelDone_run_le px (hi.run_le (by simp [hp]))) ?_ ?_
  · rw [pixelDone_npx]
    exact (npx_add_toNat hlt).trans_le hlt
  · rw [pixelDone_phase_eq, pixelDone_npx, hp]
  · intro hd
    cases hm.symm.trans (hf.mode.symm.trans hd)
  · intro hend
    rw [pixelDone_npx] at hend
    rw [pixelDone_run, if_neg (fun h => h.2 (.inr hend))]

/-- Every move keeps the registers in range (R22 to R27). -/
theorem ControlInv.move {s t : State} (hi : ControlInv s) (h : Move s t) : ControlInv t := by
  cases h with
  | waits hw => exact hi
  | faults hm hf => exact hi.raised hf.phase_ne_idle _
  | readsHeader hm hp hf hc hs => exact hi.headerPassed hp rfl rfl rfl ⟨hc, hs⟩ rfl
  | readsChunk hm hp hf ho hb => exact hi.chunkRead hm hp ho ..
  | readsEnd hm hp hf => exact hi.ended hp ⟨rfl, rfl, rfl, rfl, rfl⟩ rfl rfl rfl rfl
  | writesHeader hm hp => exact hi.headerPassed hp rfl rfl rfl (hi.layout (.inr (.inr (.inr ⟨hp, hm⟩)))) rfl
  | takesPixel hm hp hl hn => exact hi.pixelTaken hm hp _
  | writesEnd hm hp => exact hi.ended hp ⟨rfl, rfl, rfl, rfl, rfl⟩ rfl rfl rfl rfl

/-- Settles O52: reset and START give the invariant, and every move of the sequencer keeps it. -/
theorem stepKeepsTheRegistersInRange : Obligations.StepKeepsTheRegistersInRange := by
  intro s t hi h
  rcases step_cases h with ⟨-, rfl⟩ | ⟨-, -, -, rfl⟩ | ⟨-, -, h⟩
  · exact controlInv_of_idle rfl rfl
  · exact controlInv_startRun s
  · exact hi.move (sequencerStep_eq_next.mp h)

/-! ### The streams (R28, R140, R205) -/

/-- In IDLE the invariant of the streams asks for nothing. -/
theorem streamInv_of_idle {s : State} (hp : s.phase = .idle) : StreamInv s := by
  constructor <;> simp [hp]

theorem streamInv_startRun (s : State) : StreamInv (startRun s) := by
  obtain ⟨-, hn, hi, ho, hout, hpix⟩ := startRun_fresh s
  constructor <;> simp [hn, hi, ho, hout, hpix]

/-- A move of an encode keeps `opos` equal to the bytes of OUT, and touches neither `ipos` nor IN. -/
theorem StreamInv.move_enc {s t : State} (hi : StreamInv s) (h : Move s t) (hm : s.mode = .enc)
    (hp : s.phase ≠ .idle) : StreamInv t := by
  obtain ⟨hipos, -, bs, hout, hopos⟩ := h.enc_streams hm
  obtain ⟨-, -, -, -, -, -, -, hinp, -⟩ := h.hostSideSame
  have hmt : t.mode = .enc := h.mode_eq.trans hm
  constructor
  · simp [hopos, hout, hi.opos_eq hp]
  · simp [hipos, hinp, hi.ipos_le hp]
  · simp [hmt]
  · simp [hmt]

/-- A step of a decode keeps the streams counted where it stays within IN and outputs `CH` bytes a pixel. -/
theorem StreamInv.move_dec {s t : State} (hi : StreamInv s) (h : Move s t) (hm : s.mode = .dec)
    (hp : s.phase ≠ .idle) (hpos : t.ipos ≤ s.inp.length) (hq : t.phase ≠ .hdr)
    (hpix : t.phase ≠ .err → t.pixout.length = t.npx.toNat * t.ch.toNat) : StreamInv t := by
  obtain ⟨hopos, hout, -, -⟩ := h.dec_streams hm
  obtain ⟨-, -, -, -, -, -, -, hinp, -⟩ := h.hostSideSame
  constructor
  · simp [hopos, hout, hi.opos_eq hp]
  · simp [hinp, hpos]
  · exact fun _ e => absurd e hq
  · exact fun _ e => hpix (by rcases e with e | e | e <;> simp [e])

/-- The header read lies within IN, and PIXOUT is still empty (R111, R140). -/
theorem StreamInv.headerRead {s : State} (hc : ControlInv s) (hi : StreamInv s) (hm : s.mode = .dec)
    (hp : s.phase = .hdr) {w h : BitVec 32} {c cs : BitVec 8} (hf : fetchAt .header s = .ok (.header w h c cs))
    (hmv : Move s (headerDone w h c cs s)) : StreamInv (headerDone w h c cs s) := by
  refine hi.move_dec hmv hm (by simp [hp]) (ipos_add_recordLength_le hf) ?_ fun _ => ?_
  · rcases bodyPhase_cases (loadHeader w h c cs (consume Config.hdrLen s)) with ⟨hb, -⟩ | ⟨hb, -⟩ <;>
      simp [headerDone, hb]
  · simp [headerDone, hi.hdr_empty hm hp, (hc.hdr_fresh hp).1]

/-- The chunk read lies within IN, and every pixel it counts has appended `CH` bytes to PIXOUT (R130, R140). -/
theorem StreamInv.chunkRead {s : State} (hc : ControlInv s) (hi : StreamInv s) (hm : s.mode = .dec)
    (hp : s.phase = .body) {i : Instr} {bs : List Byte} (hf : fetchAt .chunk s = .ok i) (ho : overshoots i s = false)
    (hb : pixelBytes s.ch (readPixel i s) = some bs)
    (hmv : Move s (chunkDone (recordLength i) (readPixel i s) (readCount i) (readWrites i) bs s)) :
    StreamInv (chunkDone (recordLength i) (readPixel i s) (readCount i) (readWrites i) bs s) := by
  have hle := npx_add_readCount_le (hc.body_owes hp) ho
  have hlen := pixelBytes_length (hc.layout (.inl hp)).1 hb
  refine hi.move_dec hmv hm (by simp [hp]) ?_ ?_ fun _ => ?_
  · rw [chunkDone_ipos]
    exact ipos_add_recordLength_le hf
  · rw [chunkDone_phase, hp]
    split <;> simp
  · rw [chunkDone_pixout, List.length_append, repeatBytes_length, hlen, hi.pixout_len hm (.inl hp), chunkDone_npx,
      npx_add_toNat hle, (headerSame_chunkDone ..).2.2.2.1, Nat.add_mul]

/-- Every move keeps the streams counted (R28, R140, R205). -/
theorem StreamInv.move {s t : State} (hc : ControlInv s) (hi : StreamInv s) (h : Move s t) : StreamInv t := by
  cases h with
  | waits hw => exact hi
  | faults hm hf =>
    have hp := hf.phase_ne_idle
    exact hi.move_dec (.faults hm hf) hm hp (hi.ipos_le hp) (by simp) (by simp)
  | readsHeader hm hp hf hl hs => exact hi.headerRead hc hm hp hf (.readsHeader hm hp hf hl hs)
  | readsChunk hm hp hf ho hb => exact hi.chunkRead hc hm hp hf ho hb (.readsChunk hm hp hf ho hb)
  | readsEnd hm hp hf =>
    exact hi.move_dec (.readsEnd hm hp hf) hm (by simp [hp]) (ipos_add_recordLength_le hf) (by simp)
      fun _ => hi.pixout_len hm (.inr (.inl hp))
  | writesHeader hm hp => exact hi.move_enc (.writesHeader hm hp) hm (by simp [hp])
  | takesPixel hm hp hl hn => exact hi.move_enc (.takesPixel hm hp hl hn) hm (by simp [hp])
  | writesEnd hm hp => exact hi.move_enc (.writesEnd hm hp) hm (by simp [hp])

/-- Settles O54: reset and START give the invariant, and every move of the sequencer keeps it. -/
theorem stepKeepsTheStreamsCounted : Obligations.StepKeepsTheStreamsCounted := by
  intro s t hc hi h
  rcases step_cases h with ⟨-, rfl⟩ | ⟨-, -, -, rfl⟩ | ⟨-, -, h⟩
  · exact streamInv_of_idle rfl
  · exact streamInv_startRun s
  · exact hi.move hc (sequencerStep_eq_next.mp h)

end Sys2Proof.Machine

/-! SUPPORT. The configuration ports, which only START reads (10_state.md rule R30), the status ports (R25, R29, R31)
and the state after reset (R34). -/

namespace Sys2Proof.Machine

open Sys2Proof

/-! ### The configuration ports (R30)

A move reads no port: with other values on CP0 to CP4 every operation and every condition of a move is the same. -/

section
variable (m : BitVec 1) (w h : BitVec 32) (c : BitVec 8) (cs : BitVec 1)

theorem closeBody_withPorts (s : State) :
    closeBody (withPorts m w h c cs s) = withPorts m w h c cs (closeBody s) :=
  (apply_ite (withPorts m w h c cs) (AtTarget s) (setPhase .trailer s) s).symm

theorem chunkDone_withPorts (len : Nat) (px : Pixel) (n : Nat) (write : Bool) (bs : List Byte) (s : State) :
    chunkDone len px n write bs (withPorts m w h c cs s) = withPorts m w h c cs (chunkDone len px n write bs s) := by
  cases write <;> exact Eq.trans (by rfl) (closeBody_withPorts m w h c cs _)

theorem emitted_withPorts (i : Instr) (s : State) :
    emitted i (withPorts m w h c cs s) = withPorts m w h c cs (emitted i s) := by
  cases i <;> rfl

theorem flushed_withPorts (s : State) :
    flushed (withPorts m w h c cs s) = withPorts m w h c cs (flushed s) :=
  (apply_ite (withPorts m w h c cs) (s.run ≠ 0) (emitted (.run (s.run - 1)) s) s).symm

theorem lookupWrite_withPorts (px : Pixel) (s : State) :
    lookupWrite px (withPorts m w h c cs s) = withPorts m w h c cs (lookupWrite px s) :=
  (apply_ite (withPorts m w h c cs) (hit s px = true) s (storePixel px s)).symm

theorem repeatDone_withPorts (s : State) :
    repeatDone (withPorts m w h c cs s) = withPorts m w h c cs (repeatDone s) := by
  let u := setRun (s.run + 1) s
  refine Eq.trans (congrArg closeBody ?_) (closeBody_withPorts m w h c cs _)
  exact (apply_ite (withPorts m w h c cs) (u.run = 62 ∨ AtTarget u) (emitted (.run (u.run - 1)) u) u).symm

theorem newDone_withPorts (px : Pixel) (s : State) :
    newDone px (withPorts m w h c cs s) = withPorts m w h c cs (newDone px s) := by
  unfold newDone
  rw [flushed_withPorts, lookupWrite_withPorts]
  exact Eq.trans (by rfl) (closeBody_withPorts m w h c cs _)

theorem pixelDone_withPorts (px : Pixel) (s : State) :
    pixelDone px (withPorts m w h c cs s) = withPorts m w h c cs (pixelDone px s) := by
  unfold pixelDone
  rw [apply_ite (withPorts m w h c cs), ← repeatDone_withPorts, ← newDone_withPorts]
  rfl

theorem readPixel_withPorts (i : Instr) (s : State) : readPixel i (withPorts m w h c cs s) = readPixel i s := by
  cases i <;> rfl

theorem overshoots_withPorts (i : Instr) (s : State) : overshoots i (withPorts m w h c cs s) = overshoots i s := by
  cases i <;> rfl

theorem DecodeFault.withPorts {s : State} {e : Cause} (hf : DecodeFault s e) :
    DecodeFault (withPorts m w h c cs s) e := by
  cases hf with
  | recordMissing hp hf => exact .recordMissing hp hf
  | channels hp hf hc => exact .channels hp hf hc
  | colorspace hp hf hc hs => exact .colorspace hp hf hc hs
  | overshoot hp hf ho => exact .overshoot hp hf (by rwa [overshoots_withPorts])

theorem hardReset_withPorts (s : State) :
    hardReset (withPorts m w h c cs s) = withPorts m w h c cs (hardReset s) := by
  simp only [hardReset, withPorts]

/-- A move is the same move whatever stands on the ports. -/
theorem Move.withPorts {s t : State} (hmv : Move s t) :
    Move (withPorts m w h c cs s) (withPorts m w h c cs t) := by
  cases hmv with
  | waits hw => exact .waits hw
  | faults hm hf => exact .faults hm (hf.withPorts m w h c cs)
  | readsHeader hm hp hf hc hs => exact .readsHeader hm hp hf hc hs
  | readsChunk hm hp hf ho hb =>
    rw [← chunkDone_withPorts, ← readPixel_withPorts m w h c cs]
    rw [← overshoots_withPorts m w h c cs] at ho
    rw [← readPixel_withPorts m w h c cs] at hb
    exact .readsChunk hm hp hf ho hb
  | readsEnd hm hp hf => exact .readsEnd hm hp hf
  | writesHeader hm hp => exact .writesHeader hm hp
  | takesPixel hm hp hl hn => exact pixelDone_withPorts m w h c cs _ s ▸ .takesPixel hm hp hl hn
  | writesEnd hm hp => exact .writesEnd hm hp

end

/-- An asserted `rst` is taken before anything else (R250; assumption log 7). -/
theorem step_of_rst {s : State} (hr : s.rst = true) : step s = .next (hardReset s) :=
  if_pos hr

/-- With no START pending the step is the same step whatever stands on the ports. -/
theorem step_withPorts {s t : State} (hc : s.cmdStart = false) (hst : step s = .next t) (m : BitVec 1)
    (w h : BitVec 32) (c : BitVec 8) (cs : BitVec 1) :
    step (withPorts m w h c cs s) = .next (withPorts m w h c cs t) := by
  rcases step_cases hst with ⟨hr, rfl⟩ | ⟨-, hs, -⟩ | ⟨hr, -, hmv⟩
  · rw [step_of_rst (s := withPorts m w h c cs s) hr, hardReset_withPorts]
  · cases hc.symm.trans hs
  · rw [step_sequencer (s := withPorts m w h c cs s) hr hc]
    exact ((sequencerStep_eq_next.mp hmv).withPorts m w h c cs).sequencerStep_eq

/-- Settles O46: the step reads no port, and neither does what is observed of it. -/
theorem portsAreReadByStartOnly : Obligations.PortsAreReadByStartOnly := by
  intro s t m w h c cs hc hst
  exact ⟨withPorts m w h c cs t, step_withPorts hc hst m w h c cs, rfl⟩

/-! ### The status ports (R25, R29, R31) -/

theorem stBusy_iff (s : State) : stBusy s = true ↔ s.phase = .hdr ∨ s.phase = .body ∨ s.phase = .trailer := by
  simp [stBusy, or_assoc]

theorem stDone_iff (s : State) : stDone s = true ↔ s.phase = .done := by
  simp [stDone]

theorem stErr_iff (s : State) : stErr s = true ↔ s.phase = .err := by
  simp [stErr]

/-- `st_phase` is the number R25 gives the phase. -/
theorem stPhase_of_phase (s : State) :
    (s.phase = .idle → stPhase s = 0) ∧ (s.phase = .hdr → stPhase s = 1) ∧ (s.phase = .body → stPhase s = 2) ∧
      (s.phase = .trailer → stPhase s = 3) ∧ (s.phase = .done → stPhase s = 4) ∧ (s.phase = .err → stPhase s = 5) := by
  refine ⟨?_, ?_, ?_, ?_, ?_, ?_⟩ <;> intro hp <;> simp [stPhase, hp]

theorem stPhase_le (s : State) : (stPhase s).toNat ≤ 5 := by
  unfold stPhase
  cases s.phase <;> decide

/-- Settles O40: each flag names its phases, which exclude one another, and the other ports show their registers. -/
theorem statusFlagsFollowThePhase : Obligations.StatusFlagsFollowThePhase := by
  intro s
  obtain ⟨h0, h1, h2, h3, h4, h5⟩ := stPhase_of_phase s
  refine ⟨h0, h1, h2, h3, h4, h5, stBusy_iff s, stDone_iff s, stErr_iff s, ?_, ?_, ?_, stPhase_le s, rfl, rfl, rfl, rfl,
    rfl, rfl⟩ <;> simp only [stBusy_iff, stDone_iff, stErr_iff] <;> cases s.phase <;> simp

/-! ### Reset (R34, R250) -/

/-- Settles O38: the step is a hardware reset, which leaves IDLE and no cause. -/
theorem hardwareResetLeavesIdle : Obligations.HardwareResetLeavesIdle :=
  ⟨fun s hr => ⟨hardReset s, step_of_rst hr, rfl, rfl, rfl, rfl, rfl⟩, rfl, rfl⟩

theorem cacheInv_reset : CacheInv State.reset where
  wf := reset_cache_wf
  slots h := absurd rfl h

theorem encoderInv_of_idle {s : State} (hp : s.phase = .idle) : EncoderInv s := by
  constructor <;> simp [hp]

/-- Settles O51: in IDLE the invariants ask for no cause and a canonical cache. -/
theorem invariantsHoldAtReset : Obligations.InvariantsHoldAtReset :=
  ⟨controlInv_of_idle rfl rfl, cacheInv_reset, streamInv_of_idle rfl, encoderInv_of_idle rfl⟩

end Sys2Proof.Machine

/-! SUPPORT. The pixel cache (20_memory.md rules R51 to R56): the slot index, the one slot a chunk stores, and the
contents every step keeps. -/

namespace Sys2Proof.Machine

open Sys2Proof

/-! ### The slot index (R52) -/

/-- Settles O35: the sum of the four weighted bytes, of which the index keeps the low 6 bits. -/
theorem hashIsTheWeightedSum : Obligations.HashIsTheWeightedSum := by
  intro p
  have hr := p.r.isLt
  have hg := p.g.isLt
  have hb := p.b.isLt
  have ha := p.a.isLt
  refine ⟨?_, by omega⟩
  rw [Machine.hash, BitVec.toNat_ofNat]

/-! ### What a chunk that is read stores (R54, R56) -/

/-- A committed chunk leaves every byte outside its pixel's slot alone (R54). -/
theorem memRead_chunkDone_ne (len : Nat) (px : Pixel) (count : Nat) (write : Bool) (bs : List Byte) (s : State) {a : Nat}
    (ha : a < slotAddr (hash px) ∨ slotAddr (hash px) + 3 < a) :
    memRead (chunkDone len px count write bs s).cache a = memRead s.cache a := by
  rw [chunkDone_cache]
  split
  · exact memRead_cacheWrite_ne _ _ _ _ ha
  · rfl

/-- Settles O21: a fault stores nothing, a committed chunk its pixel's slot, and an INDEX nothing. -/
theorem chunkReadStoresOneSlot : Obligations.ChunkReadStoresOneSlot := by
  intro i s t hi hm h
  rcases exec_dec_cases hi hm h with ⟨-, rfl⟩ | ⟨-, bs, -, rfl⟩
  · exact ⟨fun _ _ => rfl, fun _ _ _ => rfl⟩
  · refine ⟨fun a ha => ?_, fun idx hx a => ?_⟩
    · rw [chunkDone_prev] at ha
      exact memRead_chunkDone_ne _ _ _ _ _ _ ha
    · simp [hx, readWrites]

/-! ### The contents every step keeps (R54 (a)) -/

/-- A cache in canonical form, every slot of which holds (0,0,0,0) or a pixel that hashes to it: what `CacheInv` asks of
the cache outside IDLE. -/
structure HashedCache (m : Memory) : Prop where
  wf : Memory.wf m = true
  slots : ∀ i : BitVec 6, cacheRead m i = ⟨0, 0, 0, 0⟩ ∨ hash (cacheRead m i) = i

theorem CacheInv.hashed {s : State} (hi : CacheInv s) (hp : s.phase ≠ .idle) : HashedCache s.cache :=
  ⟨hi.wf, hi.slots hp⟩

theorem HashedCache.cacheInv {s : State} (hc : HashedCache s.cache) : CacheInv s :=
  ⟨hc.wf, fun _ => hc.slots⟩

theorem hashedCache_cacheClear : HashedCache cacheClear :=
  ⟨cacheClear_wf, fun i => .inl (cacheRead_cacheClear i)⟩

/-- Storing a pixel in the slot it hashes to keeps the slots hashed: the cache writer stores nothing else (R54). -/
theorem HashedCache.store {m : Memory} (hc : HashedCache m) (p : Pixel) : HashedCache (cacheWrite m (hash p) p) where
  wf := cacheWrite_wf m (hash p) p hc.wf
  slots i := by
    by_cases hi : i = hash p
    · right
      rw [hi, cacheRead_cacheWrite_self m (hash p) p hc.wf]
    · rw [cacheRead_cacheWrite_ne m (hash p) i p hi]
      exact hc.slots i

theorem hashedCache_chunkDone {s : State} (hc : HashedCache s.cache) (len : Nat) (px : Pixel) (count : Nat) (write : Bool)
    (bs : List Byte) : HashedCache (chunkDone len px count write bs s).cache := by
  rw [chunkDone_cache]
  split
  · exact hc.store px
  · exact hc

/-- The flush of a pending run stores `prev` (R163). -/
theorem flushed_cache (s : State) :
    (flushed s).cache = if s.run ≠ 0 then cacheWrite s.cache (hash s.prev) s.prev else s.cache := by
  unfold flushed
  split <;> rfl

/-- The cache lookup stores a pixel that misses (R164). -/
theorem lookupWrite_cache (px : Pixel) (s : State) :
    (lookupWrite px s).cache = if hit s px then s.cache else cacheWrite s.cache (hash px) px := by
  unfold lookupWrite
  split <;> rfl

theorem hashedCache_flushed {s : State} (hc : HashedCache s.cache) : HashedCache (flushed s).cache := by
  rw [flushed_cache]
  split
  · exact hc.store s.prev
  · exact hc

theorem hashedCache_lookupWrite {s : State} (hc : HashedCache s.cache) (px : Pixel) :
    HashedCache (lookupWrite px s).cache := by
  rw [lookupWrite_cache]
  split
  · exact hc
  · exact hc.store px

/-- A pixel step stores through the flush and the lookup only (R162 to R164). -/
theorem hashedCache_pixelDone {s : State} (hc : HashedCache s.cache) (px : Pixel) :
    HashedCache (pixelDone px s).cache := by
  unfold pixelDone
  split
  · unfold repeatDone
    dsimp only
    rw [closeBody_cache]
    split
    · exact hc.store s.prev
    · exact hc
  · unfold newDone
    rw [closeBody_cache]
    exact hashedCache_lookupWrite (hashedCache_flushed (s := countPixels 1 s) hc) px

/-- START clears the cache (R55). -/
theorem startRun_cache (s : State) : (startRun s).cache = cacheClear := by
  rcases startRun_cases s with ⟨h, -⟩ | ⟨h, -⟩ | h <;> rw [h] <;> rfl

/-- Every move of the sequencer keeps the cache hashed. -/
theorem CacheInv.move {s t : State} (hi : CacheInv s) (h : Move s t) : CacheInv t := by
  cases h with
  | waits hw => exact hi
  | faults hm hf => exact HashedCache.cacheInv (hi.hashed hf.phase_ne_idle)
  | readsChunk hm hp hf ho hb =>
    exact (hashedCache_chunkDone (hi.hashed (by simp [hp])) ..).cacheInv
  | takesPixel hm hp hl hn => exact (hashedCache_pixelDone (hi.hashed (by simp [hp])) _).cacheInv
  | readsHeader hm hp | readsEnd hm hp | writesHeader hm hp | writesEnd hm hp =>
    exact HashedCache.cacheInv (hi.hashed (by simp [hp]))

/-- Settles O53: reset asks only for the canonical form, START clears the cache, and every move stores pixels in the slot
they hash to. -/
theorem stepKeepsTheCacheHashed : Obligations.StepKeepsTheCacheHashed := by
  intro s t hi h
  rcases step_cases h with ⟨-, rfl⟩ | ⟨-, -, -, rfl⟩ | ⟨-, -, h⟩
  · exact ⟨hardReset_cache_wf s, fun hp => absurd rfl hp⟩
  · exact HashedCache.cacheInv (startRun_cache s ▸ hashedCache_cacheClear)
  · exact hi.move (sequencerStep_eq_next.mp h)

end Sys2Proof.Machine

/-! SUPPORT. A chunk's bytes read back as the chunk, and the chunk the selector gives for a pixel read back as that pixel
(30_encoding.md rules R83 to R90, 42_chunk_encoder.md rules R164 to R171). -/

namespace Sys2Proof.Machine

open Sys2Proof

/-! ### The bytes of a chunk decode to the chunk -/

theorem tag_index (idx : BitVec 6) :
    classify (0b00#2 ++ idx) = .index ∧ (0b00#2 ++ idx : Byte).extractLsb' 0 6 = idx := by
  revert idx
  decide

theorem tag_diff (fr fg fb : BitVec 2) :
    classify (0b01#2 ++ fr ++ fg ++ fb) = .diff ∧ (0b01#2 ++ fr ++ fg ++ fb : Byte).extractLsb' 4 2 = fr ∧
      (0b01#2 ++ fr ++ fg ++ fb : Byte).extractLsb' 2 2 = fg ∧
      (0b01#2 ++ fr ++ fg ++ fb : Byte).extractLsb' 0 2 = fb := by
  revert fr fg fb
  decide

theorem tag_luma (fg : BitVec 6) :
    classify (0b10#2 ++ fg) = .luma ∧ (0b10#2 ++ fg : Byte).extractLsb' 0 6 = fg := by
  revert fg
  decide

/-- The second byte of LUMA holds its two nibbles (R86). -/
theorem nibbles_luma (frg fbg : BitVec 4) :
    (frg ++ fbg : Byte).extractLsb' 4 4 = frg ∧ (frg ++ fbg : Byte).extractLsb' 0 4 = fbg := by
  revert frg fbg
  decide

/-- A legal run field keeps the tag clear of the two 8-bit tags (R87). -/
theorem tag_run {f : BitVec 6} (hf : legalRunField f = true) :
    classify (0b11#2 ++ f) = .run ∧ (0b11#2 ++ f : Byte).extractLsb' 0 6 = f := by
  revert f
  decide

/-- A chunk whose tag and payload are there is read. -/
theorem decodeChunk_of_payload {k : ChunkKind} {t : Byte} {bs rest : List Byte} {i : Instr} (hk : classify t = k)
    (hp : payload k t bs = some (i, rest)) : decodeChunk (t :: bs) = .ok (i, rest) := by
  simp [decodeChunk, hk, hp]

/-- The bytes of a well-formed chunk, whatever follows them, decode to the chunk (R83 to R90). -/
theorem decodeChunk_encode {i : Instr} (hi : positionOf i = .chunk) (hw : i.wf = true) (rest : List Byte) :
    decodeChunk (encode i ++ rest) = .ok (i, rest) := by
  cases i with
  | header w h c s => cases hi
  | endMarker => cases hi
  | rgb r g b => exact decodeChunk_of_payload (k := .rgb) rfl rfl
  | rgba r g b a => exact decodeChunk_of_payload (k := .rgba) rfl rfl
  | index idx =>
    obtain ⟨hk, hx⟩ := tag_index idx
    exact decodeChunk_of_payload hk (by simp [payload, hx])
  | diff fr fg fb =>
    obtain ⟨hk, hr, hg, hb⟩ := tag_diff fr fg fb
    exact decodeChunk_of_payload hk (by simp [payload, hr, hg, hb])
  | luma fg frg fbg =>
    obtain ⟨hk, hg⟩ := tag_luma fg
    obtain ⟨hr, hb⟩ := nibbles_luma frg fbg
    exact decodeChunk_of_payload hk (by simp [payload, hg, hr, hb])
  | run f =>
    obtain ⟨hk, hx⟩ := tag_run hw
    exact decodeChunk_of_payload hk (by simp [payload, hx])

theorem length_encode (i : Instr) : (encode i).length = recordLength i := by
  cases i <;> rfl

/-! ### Differences and biased fields (R7, R90, R165) -/

/-- A quantity within its field's range is read back from the field (R90). -/
theorem unbias_bias {n : Nat} {b d : Int} (hlo : 0 ≤ d + b) (hhi : d + b < 2 ^ n) : unbias b (bias n b d) = d := by
  have hm : (d + b) % (2 ^ n : Int) = d + b := Int.emod_eq_of_lt hlo hhi
  rw [unbias, bias, BitVec.toNat_ofInt]
  push_cast
  rw [hm]
  omega

/-- Adding the difference of two channels to the one gives the other (R7, R165). -/
theorem add8_delta (next prev : Byte) : add8 prev (delta next prev) = next := by
  have hn := next.isLt
  have hp := prev.isLt
  have hs : (sub8 next prev).toNat = (((next.toNat : Int) - prev.toNat) % 256).toNat := by
    simp [sub8, BitVec.toNat_ofInt]
  apply BitVec.eq_of_toNat_eq
  rw [add8, BitVec.toNat_ofInt, delta, s8, hs]
  split <;> omega

theorem within_iff {lo d hi : Int} : within lo d hi = true ↔ lo ≤ d ∧ d ≤ hi := by
  simp [within]

/-! ### The selected chunk reads back the pixel (R164 to R171) -/

theorem sameA_iff {s : State} {px : Pixel} : sameA s px = true ↔ px.a = s.prev.a := by
  simp [sameA]

theorem hit_iff {s : State} {px : Pixel} : hit s px = true ↔ cacheRead s.cache (hash px) = px := by
  simp [hit]

/-- DIFF's fields over `prev` give the pixel where `diff_ok` holds (R136, R168). -/
theorem diffPixel_of_diffOk {s : State} {px : Pixel} (h : diffOk s px = true) :
    diffPixel (bias 2 Config.diffBias (dr s px)) (bias 2 Config.diffBias (dg s px))
      (bias 2 Config.diffBias (db s px)) s.prev = px := by
  simp only [diffOk, Bool.and_eq_true, within_iff, sameA_iff] at h
  obtain ⟨⟨⟨ha, hr⟩, hg⟩, hb⟩ := h
  have back {d : Int} (hd : -2 ≤ d ∧ d ≤ 1) : unbias Config.diffBias (bias 2 Config.diffBias d) = d :=
    unbias_bias (by simp only [Config.diffBias]; omega) (by simp only [Config.diffBias]; omega)
  rw [diffPixel, back hr, back hg, back hb, dr, dg, db, add8_delta, add8_delta, add8_delta, ← ha]

/-- LUMA's fields over `prev` give the pixel where `luma_ok` holds (R137, R169). -/
theorem lumaPixel_of_lumaOk {s : State} {px : Pixel} (h : lumaOk s px = true) :
    lumaPixel (bias 6 Config.lumaGBias (dg s px)) (bias 4 Config.lumaRbBias (drg s px))
      (bias 4 Config.lumaRbBias (dbg s px)) s.prev = px := by
  simp only [lumaOk, Bool.and_eq_true, within_iff, sameA_iff] at h
  obtain ⟨⟨⟨ha, hg⟩, hr⟩, hb⟩ := h
  have hgreen : unbias Config.lumaGBias (bias 6 Config.lumaGBias (dg s px)) = dg s px :=
    unbias_bias (by simp only [Config.lumaGBias]; omega) (by simp only [Config.lumaGBias]; omega)
  have back {d : Int} (hd : -8 ≤ d ∧ d ≤ 7) : unbias Config.lumaRbBias (bias 4 Config.lumaRbBias d) = d :=
    unbias_bias (by simp only [Config.lumaRbBias]; omega) (by simp only [Config.lumaRbBias]; omega)
  have hred : drg s px + dg s px = dr s px := by unfold drg; omega
  have hblue : dbg s px + dg s px = db s px := by unfold dbg; omega
  rw [lumaPixel, hgreen, back hr, back hb, hred, hblue, dr, dg, db, add8_delta, add8_delta, add8_delta, ← ha]

/-- A decoder that holds the same `prev` and the same cache reads the selected chunk as the pixel (R166). -/
theorem readPixel_selectChunk {e d : State} (hprev : d.prev = e.prev) (hcache : d.cache = e.cache) (px : Pixel) :
    readPixel (selectChunk e px) d = px := by
  unfold selectChunk
  split_ifs with hh hd hl ha
  · rw [readPixel, hcache, hit_iff.mp hh]
  · rw [readPixel, hprev, diffPixel_of_diffOk hd]
  · rw [readPixel, hprev, lumaPixel_of_lumaOk hl]
  · rw [readPixel, hprev, ← sameA_iff.mp ha]
  · rfl

@[simp] theorem readCount_selectChunk (e : State) (px : Pixel) : readCount (selectChunk e px) = 1 := by
  unfold selectChunk
  split_ifs <;> rfl

/-- The selected chunk writes the cache exactly where the lookup misses (R139, R164). -/
theorem readWrites_selectChunk (e : State) (px : Pixel) : readWrites (selectChunk e px) = !hit e px := by
  unfold selectChunk
  split_ifs with hh <;> simp [readWrites, hh]

end Sys2Proof.Machine

/-! SUPPORT. An encoder and the decoder that follows it: each piece of the encoder's pixel step (a pixel counted into the
run, a run flushed, a pixel of its own) keeps the decoder in step, once it has read the chunk so emitted (20_memory.md
rule R66, 42_chunk_encoder.md rules R160 to R164). -/

namespace Sys2Proof.Machine

open Sys2Proof

/-! ### The bytes of the next raw pixel (R61, R161) -/

theorem take_of_pixelOfBytes {ch : BitVec 8} (hl : legalChannels ch = true) {l bs : List Byte} {px : Pixel}
    (hn : pixelOfBytes ch l = some px) (hb : pixelBytes ch px = some bs) : l.take ch.toNat = bs := by
  simp only [legalChannels, Bool.or_eq_true, beq_iff_eq] at hl
  rcases hl with rfl | rfl
  · unfold pixelOfBytes at hn
    rw [if_pos rfl] at hn
    split at hn <;> cases hn
    cases hb
    rfl
  · unfold pixelOfBytes at hn
    rw [if_neg (by decide)] at hn
    split at hn <;> cases hn
    cases hb
    rfl

/-- One more pixel of PIXIN is its bytes more. -/
theorem take_pixin_succ {s : State} {px : Pixel} {bs : List Byte} (hl : legalChannels s.ch = true)
    (hn : nextPixel s = some px) (hb : pixelBytes s.ch px = some bs) :
    s.pixin.take ((s.npx.toNat + 1) * s.ch.toNat) = s.pixin.take (s.npx.toNat * s.ch.toNat) ++ bs := by
  rw [Nat.add_mul, Nat.one_mul, List.take_add, take_of_pixelOfBytes hl hn hb]

theorem repeatBytes_succ (n : Nat) (bs : List Byte) : repeatBytes (n + 1) bs = repeatBytes n bs ++ bs := by
  simp [repeatBytes, List.replicate_succ', List.flatten_append]

@[simp] theorem repeatBytes_zero (bs : List Byte) : repeatBytes 0 bs = [] := rfl

@[simp] theorem repeatBytes_one (bs : List Byte) : repeatBytes 1 bs = bs := by simp [repeatBytes]

/-! ### A decoder reads an emitted chunk -/

/-- A chunk that stays within the target does not overshoot (R138). -/
theorem overshoots_eq_false {i : Instr} {s : State} (h : s.npx.toNat + readCount i ≤ target s) :
    overshoots i s = false := by
  cases i with
  | run f => simpa [overshoots, readCount] using h
  | _ => rfl

/-- A decoder in BODY before the bytes of a well-formed chunk commits the chunk (R130). -/
theorem step_reads_chunk {d : State} {i : Instr} {bs rest : List Byte} (hu : Undisturbed d) (hm : d.mode = .dec)
    (hp : d.phase = .body) (hi : positionOf i = .chunk) (hw : i.wf = true) (hd : remaining d = encode i ++ rest)
    (hn : d.npx.toNat + readCount i ≤ target d) (hb : pixelBytes d.ch (readPixel i d) = some bs) :
    step d = .next (chunkDone (recordLength i) (readPixel i d) (readCount i) (readWrites i) bs d) := by
  refine (step_eq_next_of_undisturbed hu).mpr (.readsChunk hm hp ?_ (overshoots_eq_false hn) hb)
  exact fetchAt_eq_ok.mpr ⟨rest, by rw [hd]; exact decodeChunk_encode hi hw rest⟩

/-- The decoder d takes k steps over the bytes bs and is then in step with e. -/
def CatchesUp (k : Nat) (bs : List Byte) (d e : State) : Prop :=
  ∃ d', runSteps k d = .next d' ∧ InStep e d' ∧ d'.inp = d.inp ∧ d'.ipos = d.ipos + bs.length

theorem CatchesUp.of_inStep {d e : State} (h : InStep e d) : CatchesUp 0 [] d e :=
  ⟨d, rfl, h, rfl, rfl⟩

/-- The encoder goes from e to e' just as the chunk i, read by the decoder d, takes d on: the same pixel, cache and count,
with no pixel left pending. -/
structure Mirrors (i : Instr) (d e e' : State) : Prop where
  frame : PixelFrame e e'
  prev : e'.prev = readPixel i d
  run : e'.run = 0
  npx : e'.npx.toNat = d.npx.toNat + readCount i
  npx_le : e'.npx.toNat ≤ target e
  phase : e'.phase = if e'.npx.toNat = target e then .trailer else .body
  cache : e'.cache = if readWrites i then cacheWrite d.cache (hash (readPixel i d)) (readPixel i d) else d.cache
  pixels : ∀ bs, pixelBytes e.ch (readPixel i d) = some bs →
    d.pixout ++ repeatBytes (readCount i) bs = e.pixin.take (e'.npx.toNat * e.ch.toNat)

/-- Where the encoder's change mirrors the chunk it has emitted, the decoder that reads the chunk is in step again
(R66). -/
theorem InStep.catchesUp {e e' d : State} {i : Instr} {rest : List Byte} (h : InStep e d) (hp : e.phase = .body)
    (hl : legalChannels e.ch = true) (hi : positionOf i = .chunk) (hw : i.wf = true)
    (hd : remaining d = encode i ++ rest) (hm : Mirrors i d e e') : CatchesUp 1 (encode i) d e' := by
  obtain ⟨hdw, hdh, hdch, hdcs⟩ := h.header
  obtain ⟨bs, hb, -⟩ := pixelBytes_of_legal hl (readPixel i d)
  have ht : target d = target e := by rw [target, target, hdw, hdh]
  have hdp : d.phase = .body := h.phase.trans hp
  have hle : d.npx.toNat + readCount i ≤ target d := by rw [← hm.npx, ht]; exact hm.npx_le
  have hn : (d.npx + BitVec.ofNat 64 (readCount i)).toNat = e'.npx.toNat := by rw [npx_add_toNat hle, hm.npx]
  have hstep := step_reads_chunk h.dec_quiet h.dec hdp hi hw hd hle (hdch ▸ hb)
  obtain ⟨cmode, -, -, cw, ch, cch, ccs, -, -, cinp, -, crst, cstart, -⟩ :=
    chunkDone_frame (recordLength i) (readPixel i d) (readCount i) (readWrites i) bs d
  refine ⟨_, by simp only [runSteps, hstep, andThen_next], ?_, cinp, by rw [chunkDone_ipos, length_encode]⟩
  have hf := hm.frame
  constructor
  case enc => rw [hf.mode, h.enc]
  case dec => rw [cmode, h.dec]
  case enc_quiet => exact ⟨hf.rst.trans h.enc_quiet.1, hf.cmdStart.trans h.enc_quiet.2⟩
  case dec_quiet => exact ⟨crst.trans h.dec_quiet.1, cstart.trans h.dec_quiet.2⟩
  case phase => rw [chunkDone_phase, hn, ht, hdp, hm.phase]
  case header =>
    rw [cw, ch, cch, ccs, hf.w, hf.h, hf.ch, hf.cs]
    exact h.header
  case cache => rw [chunkDone_cache, hm.cache]
  case prev => rw [chunkDone_prev, hm.prev]
  case owed =>
    rw [chunkDone_npx, hn, hm.run]
    rfl
  case pixels =>
    intro bs' hb'
    rw [hf.ch, hm.prev, hb] at hb'
    cases hb'
    rw [chunkDone_pixout, hm.run, hf.pixin, hf.ch, ← hm.pixels bs hb]
    exact List.append_nil _

/-! ### The pieces of the pixel step -/

theorem countPixels_one_toNat {s : State} (h : s.npx.toNat < target s) :
    (countPixels 1 s).npx.toNat = s.npx.toNat + 1 :=
  npx_add_toNat h

/-- A run within 61 grows by one without wrapping (R22). -/
theorem run_add_one_toNat {r : BitVec 6} (h : r.toNat ≤ 61) : (r + 1).toNat = r.toNat + 1 := by
  bv_omega

@[simp] theorem flushed_prev (s : State) : (flushed s).prev = s.prev := by
  unfold flushed
  split <;> rfl

@[simp] theorem flushed_phase (s : State) : (flushed s).phase = s.phase := by
  unfold flushed
  split <;> rfl

@[simp] theorem flushed_pixin (s : State) : (flushed s).pixin = s.pixin := (pixelFrame_flushed s).pixin

theorem flushed_out (s : State) :
    (flushed s).out = s.out ++ if s.run ≠ 0 then encode (.run (s.run - 1)) else [] := by
  unfold flushed
  split
  · rfl
  · exact (List.append_nil _).symm

/-- A repeated pixel counted into the pending run is one more pixel owed: the decoder has nothing to read (R162). -/
theorem InStep.counts {e d : State} (h : InStep e d) (hl : legalChannels e.ch = true) (hlt : e.npx.toNat < target e)
    (hr : e.run.toNat ≤ 61) (hn : nextPixel e = some e.prev) : InStep (setRun (e.run + 1) (countPixels 1 e)) d where
  enc := h.enc
  dec := h.dec
  enc_quiet := h.enc_quiet
  dec_quiet := h.dec_quiet
  phase := h.phase
  header := h.header
  cache := h.cache
  prev := h.prev
  owed := by
    rw [setRun_npx, setRun_run, countPixels_one_toNat hlt, run_add_one_toNat hr, ← Nat.add_assoc, h.owed]
  pixels bs hb := by
    rw [setRun_npx, setRun_run, countPixels_one_toNat hlt, run_add_one_toNat hr, repeatBytes_succ, ← List.append_assoc]
    exact (congrArg (· ++ bs) (h.pixels bs hb)).trans (take_pixin_succ hl hn hb).symm

/-- The flush writes `prev` as the RUN does, and the run is as long as the pixels owed (R138, R163). -/
theorem InStep.mirrors_flushed {e d : State} (h : InStep e d) (hp : e.phase = .body) (hle : e.npx.toNat ≤ target e)
    (hr : e.run ≠ 0) : Mirrors (.run (e.run - 1)) d e (closeBody (flushed e)) := by
  have hcount : readCount (.run (e.run - 1)) = e.run.toNat := by
    simp only [readCount, runLength, Config.runBias]
    bv_omega
  have hread : readPixel (.run (e.run - 1)) d = e.prev := h.prev
  constructor
  case frame => exact (pixelFrame_flushed e).trans (pixelFrame_closeBody _)
  case prev => rw [closeBody_prev, flushed_prev, hread]
  case run => rw [closeBody_run, flushed_run]
  case npx => rw [closeBody_npx, flushed_npx, hcount, h.owed]
  case npx_le => rwa [closeBody_npx, flushed_npx]
  case phase => rw [closeBody_phase, closeBody_npx, (pixelFrame_flushed e).headerSame.target, flushed_phase, hp]
  case cache =>
    rw [closeBody_cache, flushed_cache, if_pos hr, hread, h.cache]
    rfl
  case pixels =>
    intro bs hb
    rw [closeBody_npx, flushed_npx, hcount]
    exact h.pixels bs (hread ▸ hb)

/-- A run flushed: the decoder reads the RUN, which outputs the pixels owed. -/
theorem InStep.flushes {e d : State} {rest : List Byte} (h : InStep e d) (hp : e.phase = .body)
    (hl : legalChannels e.ch = true) (hle : e.npx.toNat ≤ target e) (hr0 : e.run ≠ 0) (hr : e.run.toNat ≤ 62)
    (hd : remaining d = encode (.run (e.run - 1)) ++ rest) :
    CatchesUp 1 (encode (.run (e.run - 1))) d (closeBody (flushed e)) := by
  have hlt : (e.run - 1).toNat < 62 := by bv_omega
  have hw : legalRunField (e.run - 1) = true := decide_eq_true hlt
  exact h.catchesUp hp hl rfl hw hd (h.mirrors_flushed hp hle hr0)

theorem flushed_countPixels (s : State) : flushed (countPixels 1 s) = countPixels 1 (flushed s) := by
  by_cases hr : s.run ≠ 0
  · have hf : flushed s = emitted (.run (s.run - 1)) s := if_pos hr
    rw [hf]
    exact if_pos hr
  · have hf : flushed s = s := if_neg hr
    rw [hf]
    exact if_neg hr

theorem lookupWrite_countPixels (px : Pixel) (s : State) :
    lookupWrite px (countPixels 1 s) = countPixels 1 (lookupWrite px s) :=
  (apply_ite (countPixels 1) (hit s px = true) s (storePixel px s)).symm

/-- With no run pending, a pixel that differs from `prev` is looked up and its chunk emitted (R160, R164). -/
theorem pixelDone_of_run_eq_zero {px : Pixel} {s : State} (hne : px ≠ s.prev) (hr : s.run = 0) :
    pixelDone px s =
      closeBody (setPrev px (packRecord (selectChunk s px) (lookupWrite px (countPixels 1 s)))) := by
  have hf : flushed (countPixels 1 s) = countPixels 1 s := if_neg (not_not_intro hr)
  rw [pixelDone, if_neg hne, newDone, hf]
  rfl

/-- A pixel that differs from `prev` ends the pending run first, as if it came after the flush (R160, R162). -/
theorem pixelDone_flushed {px : Pixel} {s : State} (hne : px ≠ s.prev) :
    pixelDone px (flushed s) = pixelDone px s := by
  rw [pixelDone_of_run_eq_zero (by rwa [flushed_prev]) (flushed_run s), pixelDone, if_neg hne, newDone, flushed_countPixels]
  rfl

/-- A repeated pixel is counted into the run, which is flushed at 62 or at the last pixel (R162). -/
theorem pixelDone_repeat {s : State} (hr : s.run.toNat ≤ 61) :
    pixelDone s.prev s =
      closeBody (if s.run + 1 = 62 ∨ (s.npx + 1).toNat = target s then flushed (setRun (s.run + 1) (countPixels 1 s))
        else setRun (s.run + 1) (countPixels 1 s)) := by
  have hne : s.run + 1 ≠ 0 := by bv_omega
  have hf : flushed (setRun (s.run + 1) (countPixels 1 s)) = emitted (.run (s.run + 1 - 1))
      (setRun (s.run + 1) (countPixels 1 s)) := if_pos hne
  rw [pixelDone, if_pos rfl, hf]
  rfl

/-- A state that owes pixels stays in its phase (R160). -/
theorem closeBody_of_lt {s : State} (h : s.npx.toNat < target s) : closeBody s = s :=
  if_neg (Nat.ne_of_lt h)

/-- With no run pending, the chunk the selector gives is read as the pixel, and both caches take the pixel or neither does
(R66, R164). -/
theorem InStep.mirrors_selectChunk {e d : State} {px : Pixel} (h : InStep e d) (hp : e.phase = .body)
    (hl : legalChannels e.ch = true) (hlt : e.npx.toNat < target e) (hr : e.run = 0) (hn : nextPixel e = some px)
    (hne : px ≠ e.prev) : Mirrors (selectChunk e px) d e (pixelDone px e) := by
  have hread := readPixel_selectChunk h.prev h.cache px
  have hcount : (pixelDone px e).npx.toNat = e.npx.toNat + 1 := by
    rw [pixelDone_npx]
    exact npx_add_toNat hlt
  constructor
  case frame => exact pixelFrame_pixelDone px e
  case prev => rw [pixelDone_prev, hread]
  case run => rw [pixelDone_run, if_neg fun hpx => hne hpx.1]
  case npx =>
    rw [hcount, readCount_selectChunk, ← h.owed, hr]
    rfl
  case npx_le => exact hcount.trans_le hlt
  case phase => rw [pixelDone_phase_eq, pixelDone_npx, hp]
  case cache =>
    have hcache : (pixelDone px e).cache = (lookupWrite px e).cache := by
      rw [pixelDone_of_run_eq_zero hne hr, closeBody_cache, lookupWrite_countPixels]
      rfl
    rw [hcache, lookupWrite_cache, hread, readWrites_selectChunk, h.cache]
    cases hit e px <;> rfl
  case pixels =>
    intro bs hb
    obtain ⟨prevBytes, hprev, -⟩ := pixelBytes_of_legal hl e.prev
    have hpix : d.pixout = e.pixin.take (e.npx.toNat * e.ch.toNat) := by simpa [hr] using h.pixels prevBytes hprev
    rw [readCount_selectChunk, repeatBytes_one, hcount, hpix]
    exact (take_pixin_succ hl hn (hread ▸ hb)).symm

/-- A pixel of its own: the decoder reads the chunk the selector gave. -/
theorem InStep.single {e d : State} {px : Pixel} {rest : List Byte} (h : InStep e d) (hp : e.phase = .body)
    (hl : legalChannels e.ch = true) (hlt : e.npx.toNat < target e) (hr : e.run = 0) (hn : nextPixel e = some px)
    (hne : px ≠ e.prev) (hd : remaining d = encode (selectChunk e px) ++ rest) :
    CatchesUp 1 (encode (selectChunk e px)) d (pixelDone px e) :=
  h.catchesUp hp hl (positionOf_selectChunk e px) (selectChunk_wf e px) hd (h.mirrors_selectChunk hp hl hlt hr hn hne)

/-! ### The pixel step -/

theorem runSteps_add (k l : Nat) (s : State) : runSteps (k + l) s = andThen (runSteps k s) (runSteps l) := by
  induction k generalizing s with
  | zero => rw [Nat.zero_add, runSteps, andThen_next]
  | succ k ih =>
    rw [Nat.succ_add]
    cases hs : step s <;> simp [runSteps, hs, andThen, ih]

theorem CatchesUp.trans {k l : Nat} {bs cs : List Byte} {d e f : State} (h : CatchesUp k bs d e)
    (hn : ∀ d', InStep e d' → d'.inp = d.inp → d'.ipos = d.ipos + bs.length → CatchesUp l cs d' f) :
    CatchesUp (k + l) (bs ++ cs) d f := by
  obtain ⟨d', hrun, hin, hinp, hipos⟩ := h
  obtain ⟨d'', hrun', hin', hinp', hipos'⟩ := hn d' hin hinp hipos
  refine ⟨d'', ?_, hin', hinp'.trans hinp, by rw [hipos', hipos, List.length_append, Nat.add_assoc]⟩
  rw [runSteps_add, hrun, andThen_next, hrun']

/-- In BODY the layout is legal, a pixel is owed and the run has room for it (R22 to R25). -/
theorem ControlInv.inBody {s : State} (hc : ControlInv s) (hp : s.phase = .body) :
    legalChannels s.ch = true ∧ s.npx.toNat < target s ∧ s.run.toNat ≤ 61 :=
  ⟨(hc.layout (.inl hp)).1, hc.body_owes hp, hc.run_le (by simp [hp])⟩

/-- A pixel equal to `prev` emits nothing or the RUN it completes (R162). -/
theorem InStep.repeats {e d : State} {bs rest : List Byte} (h : InStep e d) (hc : ControlInv e)
    (hp : e.phase = .body) (hn : nextPixel e = some e.prev) (hout : (pixelDone e.prev e).out = e.out ++ bs)
    (hd : remaining d = bs ++ rest) : ∃ k ≤ 1, CatchesUp k bs d (pixelDone e.prev e) := by
  obtain ⟨hl, hlt, hr⟩ := hc.inBody hp
  have hcounts := h.counts hl hlt hr hn
  have hnpx := countPixels_one_toNat hlt
  rw [pixelDone_repeat hr] at hout ⊢
  split at hout
  · next hflush =>
    have hne : e.run + 1 ≠ 0 := by bv_omega
    rw [closeBody_out, flushed_out, setRun_run, if_pos hne] at hout
    obtain rfl := List.append_cancel_left hout
    rw [if_pos hflush]
    refine ⟨1, le_rfl, hcounts.flushes hp hl ?_ hne ?_ hd⟩
    · exact hnpx.trans_le hlt
    · rw [setRun_run, run_add_one_toNat hr]
      omega
  · next hflush =>
    have hbs : bs = [] := by simpa using hout
    have hopen : (setRun (e.run + 1) (countPixels 1 e)).npx.toNat < target e :=
      lt_of_le_of_ne (hnpx.trans_le hlt) fun hend => hflush (.inr hend)
    rw [if_neg hflush, closeBody_of_lt hopen, hbs]
    exact ⟨0, Nat.zero_le 1, .of_inStep hcounts⟩

/-- A pixel that differs from `prev` emits the pending run, where there is one, and its own chunk (R160). -/
theorem InStep.differs {e d : State} {px : Pixel} {bs rest : List Byte} (h : InStep e d) (hc : ControlInv e)
    (hp : e.phase = .body) (hn : nextPixel e = some px) (hne : px ≠ e.prev) (hout : (pixelDone px e).out = e.out ++ bs)
    (hd : remaining d = bs ++ rest) : ∃ k ≤ 2, CatchesUp k bs d (pixelDone px e) := by
  obtain ⟨hl, hlt, hr⟩ := hc.inBody hp
  have hf := pixelFrame_flushed e
  have hnef : px ≠ (flushed e).prev := by rwa [flushed_prev]
  have hltf : (flushed e).npx.toNat < target (flushed e) := by rwa [flushed_npx, hf.headerSame.target]
  rw [← pixelDone_flushed hne] at hout ⊢
  have houtf : (pixelDone px (flushed e)).out = (flushed e).out ++ encode (selectChunk (flushed e) px) := by
    rw [pixelDone_of_run_eq_zero hnef (flushed_run e), closeBody_out, lookupWrite_eq]
    rfl
  by_cases hr0 : e.run = 0
  · have he : flushed e = e := if_neg (not_not_intro hr0)
    rw [he] at houtf hout ⊢
    obtain rfl := List.append_cancel_left (houtf.symm.trans hout)
    exact ⟨1, by omega, h.single hp hl hlt hr0 hn hne hd⟩
  · rw [houtf, flushed_out, if_pos hr0, List.append_assoc] at hout
    obtain rfl := List.append_cancel_left hout
    rw [List.append_assoc] at hd
    refine ⟨2, le_rfl, (h.flushes hp hl hlt.le hr0 (by omega) hd).trans (l := 1) fun d' hin hinp hipos => ?_⟩
    rw [closeBody_of_lt hltf] at hin
    refine hin.single (rest := rest) ((flushed_phase e).trans hp) (hf.ch ▸ hl) hltf (flushed_run e) ?_ hnef ?_
    · rw [← hn, nextPixel, hf.ch, hf.pixin, flushed_npx]
      rfl
    · rw [remaining, hinp, hipos, ← List.drop_drop]
      exact (congrArg _ hd).trans (List.drop_left ..)

/-- Settles O56: the pixel step is a count, a flush and a chunk of the pixel's own, each of which the decoder follows. -/
theorem decoderStaysInStepWithEncoder : Obligations.DecoderStaysInStepWithEncoder := by
  intro e e' d px bs rest hc _ h hp hn hstep hout hd
  have hl := (hc.inBody hp).1
  obtain rfl : pixelDone px e = e' :=
    Host.Outcome.next.inj (((step_eq_next_of_undisturbed h.enc_quiet).mpr (.takesPixel h.enc hp hl hn)).symm.trans hstep)
  by_cases hpx : px = e.prev
  · subst hpx
    obtain ⟨k, hk, d', hfollow⟩ := h.repeats hc hp hn hout hd
    exact ⟨k, d', by omega, hfollow⟩
  · obtain ⟨k, hk, d', hfollow⟩ := h.differs hc hp hn hpx hout hd
    exact ⟨k, d', hk, hfollow⟩

end Sys2Proof.Machine

/-! SUPPORT. The statements of 30_encoding.md: the classes and lengths a tag byte gives, and that decoding and encoding
undo each other at every position (rules R80 to R92). -/

namespace Sys2Proof.Machine

open Sys2Proof

/-! ### The class of a tag byte (R83) -/

/-- The mask of the tag test keeps the upper two bits, which count the multiples of 64. -/
theorem toNat_and_tagMask (t : Byte) : (t &&& 0xC0).toNat = 64 * (t.toNat / 64) := by
  revert t
  decide

/-- The class is a range of the byte's value. -/
theorem classify_eq_ranges (t : Byte) :
    classify t =
      if t.toNat = 0xFE then .rgb
      else if t.toNat = 0xFF then .rgba
      else if t.toNat ≤ 0x3F then .index
      else if t.toNat ≤ 0x7F then .diff
      else if t.toNat ≤ 0xBF then .luma
      else .run := by
  have mask (k : Byte) : t &&& 0xC0 = k ↔ 64 * (t.toNat / 64) = k.toNat := by
    rw [← toNat_and_tagMask, BitVec.toNat_inj]
  have h0 : t &&& 0xC0 = 0x00 ↔ t.toNat ≤ 0x3F := (mask _).trans (by simp; omega)
  have h1 : t &&& 0xC0 = 0x40 ↔ 0x40 ≤ t.toNat ∧ t.toNat ≤ 0x7F := (mask _).trans (by simp; omega)
  have h2 : t &&& 0xC0 = 0x80 ↔ 0x80 ≤ t.toNat ∧ t.toNat ≤ 0xBF := (mask _).trans (by simp; omega)
  have hrgb : t = Config.tagRgb ↔ t.toNat = 0xFE := BitVec.toNat_inj.symm
  have hrgba : t = Config.tagRgba ↔ t.toNat = 0xFF := BitVec.toNat_inj.symm
  simp only [classify, h0, h1, h2, hrgb, hrgba]
  grind

/-- Settles O3: each class is a range of byte values, and the ranges do not overlap. -/
theorem everyTagByteHasOneClass : Obligations.EveryTagByteHasOneClass := by
  intro t
  have ht : t.toNat < 256 := t.isLt
  rw [classify_eq_ranges]
  split_ifs <;> simp <;> omega

/-! ### The length of a chunk (R91) -/

/-- The length the tag gives, in the byte's own terms. -/
theorem chunkLength_classify (t : Byte) :
    chunkLength (classify t) =
      if t = 0xFE then 4 else if t = 0xFF then 5 else if 0x80 ≤ t.toNat ∧ t.toNat ≤ 0xBF then 2 else 1 := by
  have hrgb : t = 0xFE ↔ t.toNat = 0xFE := BitVec.toNat_inj.symm
  have hrgba : t = 0xFF ↔ t.toNat = 0xFF := BitVec.toNat_inj.symm
  simp only [classify_eq_ranges, hrgb, hrgba]
  split_ifs <;> simp [chunkLength] <;> omega

/-- A payload short of the length its kind gives is none (R132). -/
theorem payload_eq_none {k : ChunkKind} {t : Byte} {bs : List Byte} (h : (t :: bs).length < chunkLength k) :
    payload k t bs = none := by
  unfold payload
  split <;> simp only [chunkLength, List.length_cons] at h
  case h_7 => rfl
  all_goals omega

/-- A payload present in full is read, and exactly the chunk's length is taken. -/
theorem payload_eq_some {k : ChunkKind} {t : Byte} {bs : List Byte} (h : chunkLength k ≤ (t :: bs).length) :
    ∃ i, payload k t bs = some (i, (t :: bs).drop (chunkLength k)) := by
  cases k with
  | index => exact ⟨_, rfl⟩
  | diff => exact ⟨_, rfl⟩
  | run => exact ⟨_, rfl⟩
  | luma =>
    obtain _ | ⟨b, rest⟩ := bs
    · simp [chunkLength] at h
    · exact ⟨_, rfl⟩
  | rgb =>
    obtain _ | ⟨r, _ | ⟨g, _ | ⟨b, rest⟩⟩⟩ := bs
    case cons.cons.cons => exact ⟨_, rfl⟩
    all_goals simp [chunkLength] at h
  | rgba =>
    obtain _ | ⟨r, _ | ⟨g, _ | ⟨b, _ | ⟨a, rest⟩⟩⟩⟩ := bs
    case cons.cons.cons.cons => exact ⟨_, rfl⟩
    all_goals simp [chunkLength] at h

/-- Settles O4: the tag's class has the length stated, and the payload is there or not by that length alone. -/
theorem tagAloneGivesTheLength : Obligations.TagAloneGivesTheLength := by
  intro t bs
  rw [← chunkLength_classify]
  refine ⟨fun h => ?_, fun h => ?_⟩
  · simp [decodeAt, decodeChunk, payload_eq_none h]
  · obtain ⟨i, hi⟩ := payload_eq_some h
    exact ⟨i, decodeChunk_of_payload rfl hi⟩

/-! ### Byte order (R57) -/

/-- The bytes of a word, put together in big-endian order, are the word. -/
theorem ofBe32_bytes (v : BitVec 32) :
    ofBe32 (v.extractLsb' 24 8) (v.extractLsb' 16 8) (v.extractLsb' 8 8) (v.extractLsb' 0 8) = v := by
  unfold ofBe32
  ext i hi
  grind

theorem be32_ofBe32 (b0 b1 b2 b3 : Byte) : be32 (ofBe32 b0 b1 b2 b3) = [b0, b1, b2, b3] := by
  simp only [be32, ofBe32, List.cons.injEq, and_true]
  refine ⟨?_, ?_, ?_, ?_⟩ <;>
    · ext i hi
      grind

/-! ### From the record to its bytes and back -/

/-- The bytes of a HEADER decode to it, its code bytes unjudged (R81; assumption log 1). -/
theorem decodeHeader_encode (w h : BitVec 32) (c s : BitVec 8) (rest : List Byte) :
    decodeHeader (encode (.header w h c s) ++ rest) = .ok (.header w h c s, rest) := by
  simp [encode, decodeHeader, decodeHeaderFields, Config.magic, be32, ofBe32_bytes]

/-- Settles O1: a chunk by its tag, a HEADER by its two big-endian words, END by its fixed bytes. -/
theorem decodeOfEncodeIsTheRecord : Obligations.DecodeOfEncodeIsTheRecord := by
  intro i rest hw
  cases hp : positionOf i with
  | chunk => exact decodeChunk_encode hp hw rest
  | header =>
    cases i with
    | header w h c s => exact decodeHeader_encode w h c s rest
    | _ => cases hp
  | trailer =>
    cases i with
    | endMarker => rfl
    | _ => cases hp

/-- Settles O5: each of the words is the encoding of its record. -/
theorem wordsOfTheVectorsDecode : Obligations.WordsOfTheVectorsDecode :=
  have decodes := decodeOfEncodeIsTheRecord
  ⟨decodes (.header 4 2 4 1) [] rfl, decodes (.rgb 128 0 0) [] rfl, decodes (.rgba 21 35 40 128) [] rfl,
    decodes (.index 53) [] rfl, decodes (.diff 2 3 1) [] rfl, decodes (.luma 47 3 4) [] rfl, decodes (.run 61) [] rfl,
    decodes .endMarker [] rfl⟩

/-! ### From the bytes to the record and back -/

theorem tag_of_classify_rgb {t : Byte} (h : classify t = .rgb) : t = Config.tagRgb := by
  revert t
  decide

theorem tag_of_classify_rgba {t : Byte} (h : classify t = .rgba) : t = Config.tagRgba := by
  revert t
  decide

theorem tag_of_classify_index {t : Byte} (h : classify t = .index) : t = 0b00#2 ++ t.extractLsb' 0 6 := by
  revert t
  decide

theorem tag_of_classify_diff {t : Byte} (h : classify t = .diff) :
    t = 0b01#2 ++ t.extractLsb' 4 2 ++ t.extractLsb' 2 2 ++ t.extractLsb' 0 2 := by
  revert t
  decide

theorem tag_of_classify_luma {t : Byte} (h : classify t = .luma) : t = 0b10#2 ++ t.extractLsb' 0 6 := by
  revert t
  decide

/-- The two run fields the format lacks are the two 8-bit tags (R87). -/
theorem tag_of_classify_run {t : Byte} (h : classify t = .run) :
    t = 0b11#2 ++ t.extractLsb' 0 6 ∧ legalRunField (t.extractLsb' 0 6) = true := by
  revert t
  decide

/-- A chunk read is the chunk whose bytes were read, and it is well formed (R84 to R89). -/
theorem encode_of_payload {t : Byte} {bs rest : List Byte} {i : Instr}
    (h : payload (classify t) t bs = some (i, rest)) : t :: bs = encode i ++ rest ∧ i.wf = true := by
  generalize hk : classify t = k at h
  unfold payload at h
  split at h <;> cases h
  case h_1 => exact ⟨congrArg (· :: _) (tag_of_classify_rgb hk), rfl⟩
  case h_2 => exact ⟨congrArg (· :: _) (tag_of_classify_rgba hk), rfl⟩
  case h_3 => exact ⟨congrArg (· :: _) (tag_of_classify_index hk), rfl⟩
  case h_4 => exact ⟨congrArg (· :: _) (tag_of_classify_diff hk), rfl⟩
  case h_5 b =>
    have hb : b = b.extractLsb' 4 4 ++ b.extractLsb' 0 4 := (BitVec.extractLsb'_append_extractLsb' (w := 4) (len := 4)).symm
    exact ⟨congrArg₂ (· :: · :: _) (tag_of_classify_luma hk) hb, rfl⟩
  case h_6 =>
    obtain ⟨ht, hf⟩ := tag_of_classify_run hk
    exact ⟨congrArg (· :: _) ht, hf⟩

theorem encode_of_decodeChunk {bs rest : List Byte} {i : Instr} (h : decodeChunk bs = .ok (i, rest)) :
    bs = encode i ++ rest ∧ i.wf = true := by
  unfold decodeChunk at h
  split at h
  · cases h
  · split at h
    · next hp =>
      cases h
      exact encode_of_payload hp
    · cases h

/-- The code bytes of a header read may be any: they are judged when it is run (R111; assumption log 1). -/
theorem encode_of_decodeHeader {bs rest : List Byte} {i : Instr} (h : decodeHeader bs = .ok (i, rest)) :
    bs = encode i ++ rest := by
  unfold decodeHeader at h
  split at h
  · split at h
    · next hm =>
      unfold decodeHeaderFields at h
      split at h
      · cases h
        simp [encode, be32_ofBe32, ← hm]
      · split at h <;> cases h
      · cases h
    · cases h
  · cases h

theorem encode_of_decodeEnd {bs rest : List Byte} {i : Instr} (h : decodeEnd bs = .ok (i, rest)) :
    bs = encode i ++ rest ∧ i.wf = true := by
  unfold decodeEnd at h
  split at h
  · split at h
    · next hm =>
      cases h
      exact ⟨congrArg (· ++ rest) hm, rfl⟩
    · cases h
  · cases h

/-- Settles O2: at each position, the record is made of the bytes it was read from. -/
theorem decodedBytesAreTheEncoding : Obligations.DecodedBytesAreTheEncoding := by
  intro p bs i rest h
  have hp : positionOf i = p := (decodeAt_ok h).1
  cases p with
  | header => exact ⟨encode_of_decodeHeader h, hp, fun hne => absurd rfl hne⟩
  | chunk =>
    obtain ⟨hbs, hw⟩ := encode_of_decodeChunk h
    exact ⟨hbs, hp, fun _ => hw⟩
  | trailer =>
    obtain ⟨hbs, hw⟩ := encode_of_decodeEnd h
    exact ⟨hbs, hp, fun _ => hw⟩

end Sys2Proof.Machine

/-! SUPPORT. The statements of 40_header_codec.md: HEADER and END read and written, the faults of their reading,
and what both leave alone (rules R110 to R113). -/

namespace Sys2Proof.Machine

open Sys2Proof

/-! ### Code bytes (R24, R81) -/

theorem legalChannels_iff {c : BitVec 8} : legalChannels c = true ↔ c = 3 ∨ c = 4 := by
  simp [legalChannels, Config.chRgb, Config.chRgba]

theorem legalColorspace_iff {c : BitVec 8} : legalColorspace c = true ↔ c = 0 ∨ c = 1 := by
  simp [legalColorspace, Config.csSrgb, Config.csLinear]

theorem legalChannels_eq_false_iff {c : BitVec 8} : legalChannels c = false ↔ c ≠ 3 ∧ c ≠ 4 := by
  rw [← Bool.not_eq_true, legalChannels_iff, not_or]

theorem legalColorspace_eq_false_iff {c : BitVec 8} : legalColorspace c = false ↔ c ≠ 0 ∧ c ≠ 1 := by
  rw [← Bool.not_eq_true, legalColorspace_iff, not_or]

/-! ### What the header's bytes decode to (R111) -/

/-- The magic test, byte by byte. -/
theorem take_four_eq_magic_iff {bs : List Byte} :
    bs.take 4 = Config.magic ↔
      4 ≤ bs.length ∧ bs.getD 0 0 = 0x71 ∧ bs.getD 1 0 = 0x6F ∧ bs.getD 2 0 = 0x69 ∧ bs.getD 3 0 = 0x66 := by
  obtain _ | ⟨m0, _ | ⟨m1, _ | ⟨m2, _ | ⟨m3, rest⟩⟩⟩⟩ := bs <;> simp [Config.magic]

/-- Behind a good magic stand the fields. -/
theorem decodeHeader_magic_append (rest : List Byte) :
    decodeHeader (Config.magic ++ rest) = decodeHeaderFields rest := rfl

theorem decodeHeader_of_take_ne {bs : List Byte} (h : bs.take 4 ≠ Config.magic) :
    decodeHeader bs = .error .eMagic := by
  unfold decodeHeader
  split
  · exact if_neg h
  · rfl

theorem decodeHeaderFields_of_length_lt {bs : List Byte} (h : bs.length < 9) :
    decodeHeaderFields bs = .error .eHdrTrunc := by
  unfold decodeHeaderFields
  split
  · simp only [List.length_cons] at h
    omega
  · simp at h
  · rfl

/-- With all 14 bytes there the record is read whole, its code bytes unjudged (assumption log 1). -/
theorem decodeHeaderFields_of_le_length : ∀ {bs : List Byte}, 10 ≤ bs.length →
    decodeHeaderFields bs = .ok (.header (ofBe32 (bs.getD 0 0) (bs.getD 1 0) (bs.getD 2 0) (bs.getD 3 0))
      (ofBe32 (bs.getD 4 0) (bs.getD 5 0) (bs.getD 6 0) (bs.getD 7 0)) (bs.getD 8 0) (bs.getD 9 0), bs.drop 10)
  | _ :: _ :: _ :: _ :: _ :: _ :: _ :: _ :: _ :: _ :: _, _ => rfl

/-- With the channel byte the last one there, it is judged before the colour-space byte is missed. -/
theorem decodeHeaderFields_of_length_eq : ∀ {bs : List Byte}, bs.length = 9 →
    decodeHeaderFields bs =
      if legalChannels (bs.getD 8 0) then .error .eHdrTrunc else .error .eChannels
  | [_, _, _, _, _, _, _, _, _], _ => rfl

/-! ### What the end marker's bytes decode to (R113) -/

theorem decodeEnd_of_take_eq {bs : List Byte} (h : bs.take 8 = Config.endMarker) :
    decodeEnd bs = .ok (.endMarker, bs.drop 8) := by
  conv_lhs => rw [← List.take_append_drop 8 bs, h]
  rfl

theorem decodeEnd_of_take_ne {bs : List Byte} (h : bs.take 8 ≠ Config.endMarker) :
    decodeEnd bs = .error .eEndMarker := by
  unfold decodeEnd
  split
  · exact if_neg h
  · rfl

/-! ### The step of a decode -/

theorem fetchAt_eq_error {p : Position} {s : State} {c : Cause} :
    fetchAt p s = .error c ↔ decodeAt p (remaining s) = .error c := by
  unfold fetchAt
  split <;> simp_all

/-- A fault of a decode is taken by its step (R222). -/
theorem DecodeFault.step_faulted {s : State} {c : Cause} (h : DecodeFault s c) (hu : Undisturbed s)
    (hm : s.mode = .dec) : ∃ t, step s = .next t ∧ Faulted (causeCode c) s t :=
  ⟨raise c s, (step_eq_next_of_undisturbed hu).mpr (.faults hm h), by simp [Faulted]⟩

/-- Where the bytes at the stream position decode to no record, the step faults. -/
theorem step_faulted_of_decodeAt {s : State} {p : Position} {c : Cause} (hu : Undisturbed s) (hm : s.mode = .dec)
    (hp : phasePosition s.phase = some p) (h : decodeAt p (remaining s) = .error c) :
    ∃ t, step s = .next t ∧ Faulted (causeCode c) s t :=
  (DecodeFault.recordMissing hp (fetchAt_eq_error.mpr h)).step_faulted hu hm

/-! ### HEADER and END complete -/

/-- Settles O10: neither code byte is refused, so the header is loaded. -/
theorem headerReadCompletes : Obligations.HeaderReadCompletes := by
  intro w h c cs s hm hp hc hcs
  have hc := ne_false_of_eq_true (legalChannels_iff.mpr hc)
  have hcs := ne_false_of_eq_true (legalColorspace_iff.mpr hcs)
  rw [exec_header_dec hm hp, if_neg hc, if_neg hcs]
  rfl

/-- Settles O11: the 14 bytes are the record's encoding. -/
theorem headerWriteCompletes : Obligations.HeaderWriteCompletes :=
  fun s hm hp => exec_header_enc hm hp s.w s.h s.ch s.cs

/-- Settles O13: END consumes its own length and ends the run. -/
theorem endReadCompletes : Obligations.EndReadCompletes :=
  fun _ hm hp => exec_end_dec hm hp

/-- Settles O14: the eight bytes are the record's encoding. -/
theorem endWriteCompletes : Obligations.EndWriteCompletes :=
  fun _ hm hp => exec_end_enc hm hp

/-! ### HEADER and END are judged -/

/-- Settles O12: the marker's bytes decode to END, and any others to the fault. -/
theorem endReadJudgesEightBytes : Obligations.EndReadJudgesEightBytes := by
  intro s hu hm hp
  split_ifs with h
  · exact (step_eq_next_of_undisturbed hu).mpr (.readsEnd hm hp (fetchAt_eq_ok.mpr ⟨_, decodeEnd_of_take_eq h⟩))
  · exact step_faulted_of_decodeAt (p := .trailer) hu hm (phasePosition_eq_some.mpr hp) (decodeEnd_of_take_ne h)

/-- Settles O9: the bytes up to the channel byte are judged as they are fetched, and with all 14 there the two code
bytes as HEADER is run. -/
theorem headerReadJudgesInStreamOrder : Obligations.HeaderReadJudgesInStreamOrder := by
  intro s hu hm hp
  have missing {c : Cause} (h : decodeHeader (s.inp.drop s.ipos) = .error c) :
      ∃ t, step s = .next t ∧ Faulted (causeCode c) s t :=
    step_faulted_of_decodeAt (p := .header) hu hm (phasePosition_eq_some.mpr hp) h
  have fetched {i : Instr} {rest : List Byte} (h : decodeHeader (s.inp.drop s.ipos) = .ok (i, rest)) :
      fetchAt .header s = .ok i := fetchAt_eq_ok.mpr ⟨rest, h⟩
  generalize s.inp.drop s.ipos = bs at *
  simp only [← take_four_eq_magic_iff, ← legalChannels_eq_false_iff, ← legalColorspace_eq_false_iff]
  split
  · next hmagic => exact missing (decodeHeader_of_take_ne hmagic)
  next hmagic =>
  obtain ⟨rest, rfl⟩ : ∃ rest, bs = Config.magic ++ rest :=
    ⟨bs.drop 4, by rw [← not_not.mp hmagic, List.take_append_drop]⟩
  have hlen : (Config.magic ++ rest).length = rest.length + 4 := by simp [Config.magic]
  rw [decodeHeader_magic_append] at missing fetched
  rw [hlen]
  split
  · exact missing (decodeHeaderFields_of_length_lt (by omega))
  split
  · next hc =>
    by_cases h13 : rest.length = 9
    · exact missing ((decodeHeaderFields_of_length_eq h13).trans (if_neg (ne_true_of_eq_false hc)))
    · have hf := fetched (decodeHeaderFields_of_le_length (by omega))
      exact (DecodeFault.channels hp hf hc).step_faulted hu hm
  next hc =>
  have hc : legalChannels (rest.getD 8 0) = true := eq_true_of_ne_false hc
  split
  · exact missing ((decodeHeaderFields_of_length_eq (by omega)).trans (if_pos hc))
  have hf := fetched (decodeHeaderFields_of_le_length (by omega))
  split
  · next hcs => exact (DecodeFault.colorspace hp hf hc hcs).step_faulted hu hm
  · next hcs => exact (step_eq_next_of_undisturbed hu).mpr (.readsHeader hm hp hf hc (eq_true_of_ne_false hcs))

/-! ### The frame -/

/-- Everything HEADER and END can answer. -/
theorem exec_positional_cases {i : Instr} {s t : State} (hi : positionOf i ≠ .chunk) (h : exec i s = .next t) :
    (s.mode = .dec ∧ positionOf i = .header ∧
      ((∃ c, t = raise c s) ∨ ∃ w h c cs, t = headerDone w h c cs s)) ∨
    (s.mode = .dec ∧ positionOf i = .trailer ∧ t = setPhase .done (consume Config.endLen s)) ∨
    (s.mode = .enc ∧ ∃ p, t = setPhase p (packRecord i s)) := by
  cases i with
  | header w h' c cs =>
    obtain ⟨hp, ⟨hm, -⟩ | ⟨hm, -⟩⟩ := recordIn_eq_next h
    · rw [exec_header_dec hm hp] at h
      split_ifs at h <;> cases h
      · exact .inl ⟨hm, rfl, .inl ⟨_, rfl⟩⟩
      · exact .inl ⟨hm, rfl, .inl ⟨_, rfl⟩⟩
      · exact .inl ⟨hm, rfl, .inr ⟨_, _, _, _, rfl⟩⟩
    · rw [exec_header_enc hm hp] at h
      cases h
      exact .inr (.inr ⟨hm, _, rfl⟩)
  | endMarker =>
    obtain ⟨hp, ⟨hm, -⟩ | ⟨hm, -⟩⟩ := recordIn_eq_next h
    · rw [exec_end_dec hm hp] at h
      cases h
      exact .inr (.inl ⟨hm, rfl, rfl⟩)
    · rw [exec_end_enc hm hp] at h
      cases h
      exact .inr (.inr ⟨hm, _, rfl⟩)
  | _ => exact absurd rfl hi

/-- Settles O27, by what the record can answer. -/
theorem positionalFrame : Obligations.PositionalFrame := by
  intro i s t hi h
  obtain ⟨hm, hpos, ⟨c, rfl⟩ | ⟨w, h, c, cs, rfl⟩⟩ | ⟨hm, hpos, rfl⟩ | ⟨hm, p, rfl⟩ :=
    exec_positional_cases hi h
  · simp [HostSideSame]
  · simp [HostSideSame, headerDone, hm, hpos]
  · simp [HostSideSame, hm]
  · simp [HostSideSame, packRecord, hm]

end Sys2Proof.Machine

/-! SUPPORT. The statements of 41_chunk_decoder.md: the six chunks read, what they leave alone, a truncated chunk, the
progress of a chunk step, and the whole decode (rules R130 to R142). -/

namespace Sys2Proof.Machine

open Sys2Proof

/-! ### A truncated chunk (R130, R132) -/

/-- Without a tag byte, or with fewer bytes than the tag's length, no chunk is decoded. -/
theorem decodeChunk_eq_error {bs : List Byte} (h : ∀ t, bs.head? = some t → bs.length < chunkLength (classify t)) :
    decodeChunk bs = .error .eChunkTrunc := by
  cases bs with
  | nil => rfl
  | cons t rest => simp [decodeChunk, payload_eq_none (h t rfl)]

/-- Settles O41: the bytes decode to no chunk, and the step takes the fault. -/
theorem truncatedChunkFaults : Obligations.TruncatedChunkFaults := by
  intro s hu hm hp h
  exact step_faulted_of_decodeAt (p := .chunk) hu hm (phasePosition_eq_some.mpr hp) (decodeChunk_eq_error h)

/-- A tag byte that fewer bytes follow than its length asks for is a truncated chunk. -/
theorem step_faulted_of_short {s : State} (hu : Undisturbed s) (hs : ChunkReadable s) {t0 : Byte} {bs : List Byte}
    (hd : s.inp.drop s.ipos = t0 :: bs) (hl : (t0 :: bs).length < chunkLength (classify t0)) :
    ∃ t, step s = .next t ∧ Faulted 5 s t := by
  obtain ⟨hm, hp, -⟩ := hs
  refine truncatedChunkFaults s hu hm hp fun t ht => ?_
  rw [hd] at ht ⊢
  cases ht
  exact hl

theorem step_faulted_of_no_tag {s : State} (hu : Undisturbed s) (hs : ChunkReadable s) (hd : s.inp.drop s.ipos = []) :
    ∃ t, step s = .next t ∧ Faulted 5 s t := by
  obtain ⟨hm, hp, -⟩ := hs
  exact truncatedChunkFaults s hu hm hp fun t ht => by simp [hd] at ht

/-! ### A chunk is committed (R130, R139 to R141) -/

/-- The bytes of a pixel in the two layouts (R140). -/
theorem pixelBytes_eq {ch : BitVec 8} (h : ch = 3 ∨ ch = 4) (p : Pixel) :
    pixelBytes ch p = some (if ch = 3 then [p.r, p.g, p.b] else [p.r, p.g, p.b, p.a]) := by
  rcases h with rfl | rfl <;> rfl

theorem closeBody_eq (s : State) :
    closeBody s = { s with phase := if s.npx.toNat = target s then .trailer else s.phase } := by
  unfold closeBody
  split <;> rfl

/-- The whole state after a decoded chunk: what `chunkDone` writes, and nothing else (R130). -/
theorem chunkDone_eq (len : Nat) (px : Pixel) (count : Nat) (write : Bool) (bs : List Byte) (s : State) :
    chunkDone len px count write bs s = { s with
      ipos := s.ipos + len, cache := if write then cacheWrite s.cache (hash px) px else s.cache, prev := px,
      pixout := s.pixout ++ repeatBytes count bs, npx := s.npx + BitVec.ofNat 64 count,
      phase := if (s.npx + BitVec.ofNat 64 count).toNat = target s then .trailer else s.phase } := by
  rw [chunkDone, closeBody_eq]
  cases write <;> rfl

/-- A chunk whose pixels are owed is committed, in the layout's bytes (R130, R139 to R141). -/
theorem exec_chunk_of_le {i : Instr} {s : State} (hi : positionOf i = .chunk) (hs : ChunkReadable s)
    (hn : s.npx.toNat + readCount i ≤ target s) :
    exec i s = .next { s with
      ipos := s.ipos + recordLength i,
      cache := if readWrites i then cacheWrite s.cache (hash (readPixel i s)) (readPixel i s) else s.cache,
      prev := readPixel i s,
      pixout := s.pixout ++ repeatBytes (readCount i) (if s.ch = 3 then
        [(readPixel i s).r, (readPixel i s).g, (readPixel i s).b] else
        [(readPixel i s).r, (readPixel i s).g, (readPixel i s).b, (readPixel i s).a]),
      npx := s.npx + BitVec.ofNat 64 (readCount i),
      phase := if s.npx.toNat + readCount i = target s then .trailer else .body } := by
  obtain ⟨hm, hp, hl⟩ := hs
  rw [exec_dec hi hm hp, overshoots_eq_false hn, if_neg Bool.false_ne_true, commitChunk_of_legal (pixelBytes_eq hl _),
    chunkDone_eq, npx_add_toNat hn, hp]

/-- A chunk of one pixel px (R133 to R137). -/
theorem exec_single_of_lt {i : Instr} {s : State} {px : Pixel} (hi : positionOf i = .chunk) (hc : readCount i = 1)
    (hpx : readPixel i s = px) (hs : ChunkReadable s) (hn : s.npx.toNat < target s) :
    exec i s = .next { s with
      ipos := s.ipos + recordLength i, cache := if readWrites i then cacheWrite s.cache (hash px) px else s.cache,
      prev := px, pixout := s.pixout ++ (if s.ch = 3 then [px.r, px.g, px.b] else [px.r, px.g, px.b, px.a]),
      npx := s.npx + 1, phase := if s.npx.toNat + 1 = target s then .trailer else .body } := by
  have h := exec_chunk_of_le hi hs (hc ▸ hn)
  rw [hc, hpx, repeatBytes_one] at h
  exact h

/-! ### The pixels of the difference chunks (R136, R137) -/

/-- Modulo 256 a signed difference is added as a byte (R7). -/
theorem add8_eq (a : Byte) (d : Int) : add8 a d = a + BitVec.ofInt 8 d := by
  rw [add8, BitVec.ofInt_add, BitVec.ofInt_natCast, BitVec.ofNat_toNat, BitVec.setWidth_eq]

/-- Modulo 256 a biased field is the field less its bias (R90). -/
theorem ofInt_unbias {n : Nat} (b : Int) (f : BitVec n) :
    BitVec.ofInt 8 (unbias b f) = f.zeroExtend 8 - BitVec.ofInt 8 b := by
  rw [unbias, sub_eq_add_neg, BitVec.ofInt_add, BitVec.ofInt_neg, ← sub_eq_add_neg, BitVec.ofInt_natCast,
    BitVec.ofNat_toNat, BitVec.zeroExtend_eq_setWidth]

theorem diffPixel_eq (fr fg fb : BitVec 2) (prev : Pixel) :
    diffPixel fr fg fb prev = ⟨prev.r + (fr.zeroExtend 8 - 2), prev.g + (fg.zeroExtend 8 - 2),
      prev.b + (fb.zeroExtend 8 - 2), prev.a⟩ := by
  simp only [diffPixel, add8_eq, ofInt_unbias]
  rfl

theorem lumaPixel_eq (fg : BitVec 6) (frg fbg : BitVec 4) (prev : Pixel) :
    lumaPixel fg frg fbg prev = ⟨prev.r + (frg.zeroExtend 8 - 8 + (fg.zeroExtend 8 - 32)),
      prev.g + (fg.zeroExtend 8 - 32), prev.b + (fbg.zeroExtend 8 - 8 + (fg.zeroExtend 8 - 32)), prev.a⟩ := by
  simp only [lumaPixel, add8_eq, BitVec.ofInt_add, ofInt_unbias]
  rfl

/-! ### The six chunks -/

/-- Settles O15: RGB is a chunk of one pixel, its tag that of the class. -/
theorem rgbReadCompletes : Obligations.RgbReadCompletes := by
  refine ⟨fun r g b bs => rfl, fun r g b s hs hn => exec_single_of_lt rfl rfl rfl hs hn, fun bs s hu hs hd hl => ?_⟩
  exact step_faulted_of_short hu hs hd (Nat.succ_lt_succ hl)

/-- Settles O16: RGBA is a chunk of one pixel, which takes nothing of `prev`. -/
theorem rgbaReadCompletes : Obligations.RgbaReadCompletes := by
  refine ⟨fun r g b a bs => rfl, fun r g b a s hs hn => exec_single_of_lt rfl rfl rfl hs hn, fun bs s hu hs hd hl => ?_⟩
  exact step_faulted_of_short hu hs hd (Nat.succ_lt_succ hl)

/-- Settles O17: INDEX is a chunk of one pixel, the only one that writes no slot. -/
theorem indexReadCompletes : Obligations.IndexReadCompletes := by
  refine ⟨fun t bs ht => ?_, fun idx s hs hn => exec_single_of_lt rfl rfl rfl hs hn,
    fun s hu hs hd => step_faulted_of_no_tag hu hs hd⟩
  obtain ⟨hindex, -⟩ := everyTagByteHasOneClass t
  exact decodeChunk_of_payload (hindex.mpr ht) rfl

/-- Settles O18: DIFF is a chunk of one pixel, its channels added modulo 256. -/
theorem diffReadCompletes : Obligations.DiffReadCompletes := by
  refine ⟨fun t bs hlo hhi => ?_, fun fr fg fb s hs hn => exec_single_of_lt rfl rfl (diffPixel_eq ..) hs hn,
    fun s hu hs hd => step_faulted_of_no_tag hu hs hd⟩
  obtain ⟨-, hdiff, -⟩ := everyTagByteHasOneClass t
  exact decodeChunk_of_payload (hdiff.mpr ⟨hlo, hhi⟩) rfl

/-- Settles O19: LUMA is a chunk of one pixel, its channels added modulo 256; its class asks for two bytes. -/
theorem lumaReadCompletes : Obligations.LumaReadCompletes := by
  have class_luma {t : Byte} (hlo : 0x80 ≤ t.toNat) (hhi : t.toNat ≤ 0xBF) : classify t = .luma := by
    obtain ⟨-, -, hluma, -⟩ := everyTagByteHasOneClass t
    exact hluma.mpr ⟨hlo, hhi⟩
  refine ⟨fun t b bs hlo hhi => decodeChunk_of_payload (class_luma hlo hhi) rfl,
    fun fg frg fbg s hs hn => exec_single_of_lt rfl rfl (lumaPixel_eq ..) hs hn, fun t0 s hu hs hlo hhi hd => ?_⟩
  exact step_faulted_of_short hu hs hd (by rw [class_luma hlo hhi]; exact Nat.one_lt_two)

/-- Settles O20: the overshoot is a RUN's own fault, and short of it `prev` is committed frun + 1 times. -/
theorem runReadCompletes : Obligations.RunReadCompletes := by
  refine ⟨fun t bs hlo hhi => ⟨?_, ?_⟩, fun frun s hs _ => ?_⟩
  · obtain ⟨-, -, -, hrun, -⟩ := everyTagByteHasOneClass t
    exact decodeChunk_of_payload (hrun.mpr ⟨hlo, hhi⟩) rfl
  · rw [BitVec.extractLsb'_toNat, Nat.shiftRight_zero]
    omega
  · split
    · next hgt =>
      obtain ⟨hm, hp, -⟩ := hs
      have ho : overshoots (.run frun) s = true := decide_eq_true hgt
      exact ⟨raise .eRunOvershoot s, by rw [exec_dec rfl hm hp, if_pos ho], by simp [Faulted, causeCode]⟩
    · next hle => exact exec_chunk_of_le (i := .run frun) rfl hs (not_lt.mp hle)

/-- Settles O22, by what a chunk can answer: the fault or the commit. -/
theorem chunkReadFrame : Obligations.ChunkReadFrame := by
  intro i s t hi hm h
  rcases exec_dec_cases hi hm h with ⟨-, rfl⟩ | ⟨-, bs, -, rfl⟩
  · simp [HeaderSame, HostSideSame]
  · simp [HeaderSame, HostSideSame, chunkDone_frame]

end Sys2Proof.Machine

/-! SUPPORT. A decode from START to its end (41_chunk_decoder.md rule R142): every step of it is a move, each chunk step
counts a pixel, and so it ends in DONE or ERR within the steps `decodeStream` gives it. -/

namespace Sys2Proof.Machine

open Sys2Proof

/-! ### A decode never stops (R202) -/

/-- The record fetched in its phase is carried out (R111, R113, R130). -/
theorem exists_exec_dec {s : State} {p : Position} {i : Instr} (hc : ControlInv s) (hm : s.mode = .dec)
    (hp : s.phase = positionPhase p) (hi : positionOf i = p) : ∃ t, exec i s = .next t := by
  cases p with
  | header =>
    cases i with
    | header w h c cs =>
      rw [exec_header_dec hm hp]
      split_ifs <;> exact ⟨_, rfl⟩
    | _ => cases hi
  | chunk =>
    obtain ⟨bs, hb, -⟩ := pixelBytes_of_legal (hc.layout (.inl hp)).1 (readPixel i s)
    rw [exec_dec hi hm hp, commitChunk_of_legal hb]
    split_ifs <;> exact ⟨_, rfl⟩
  | trailer =>
    cases i with
    | endMarker => exact ⟨_, exec_end_dec hm hp⟩
    | _ => cases hi

/-- With the registers in range, the decoder always has a move. -/
theorem exists_move_dec {s : State} (hc : ControlInv s) (hm : s.mode = .dec) : ∃ t, Move s t := by
  cases hp : phasePosition s.phase with
  | none => exact ⟨s, .waits (.inl hp)⟩
  | some p =>
    cases hf : fetchAt p s with
    | error c => exact ⟨raise c s, .faults hm (.recordMissing hp hf)⟩
    | ok i =>
      obtain ⟨t, he⟩ := exists_exec_dec hc hm (phasePosition_eq_some.mp hp) (positionOf_of_fetchAt hf)
      exact ⟨t, move_of_exec hm hp hf he⟩

/-- A decode waits outside a run only (R202). -/
theorem Waits.not_busy {s : State} (h : Waits s) (hm : s.mode = .dec) : s.phase = .idle ∨ RunOver s := by
  rcases h with h | ⟨he, -⟩
  · unfold phasePosition at h
    split at h
    case h_1 hp => exact .inl hp
    case h_5 hp => exact .inr (.inl hp)
    case h_6 hp => exact .inr (.inr hp)
    all_goals cases h
  · cases hm.symm.trans he

/-! ### A chunk step makes progress (R141, R142) -/

/-- A move in BODY of a decode faults, or counts at least one pixel within the target. -/
theorem Move.body_progress {s t : State} (h : Move s t) (hm : s.mode = .dec) (hp : s.phase = .body)
    (hn : s.npx.toNat < target s) :
    t.phase = .err ∨ (s.npx.toNat < t.npx.toNat ∧ t.npx.toNat ≤ target s) := by
  cases h with
  | waits hw => simpa [RunOver, hp] using hw.not_busy hm
  | faults _ hf => exact .inl rfl
  | @readsChunk i bs _ _ hf ho hb =>
    have hle := npx_add_readCount_le hn ho
    have hpos := readCount_pos i
    refine .inr ?_
    rw [chunkDone_npx, npx_add_toNat hle]
    omega
  | readsHeader _ hq | readsEnd _ hq => cases hp.symm.trans hq
  | writesHeader he | takesPixel he | writesEnd he => cases hm.symm.trans he

/-- Settles O49: in BODY a pixel is owed, and the decoder has a move. -/
theorem chunkStepProgressesOrFaults : Obligations.ChunkStepProgressesOrFaults := by
  intro s hc hu hm hp
  obtain ⟨t, hmove⟩ := exists_move_dec hc hm
  exact ⟨t, (step_eq_next_of_undisturbed hu).mpr hmove, hmove.body_progress hm hp (hc.body_owes hp)⟩

/-! ### The codes of a decode (R220) -/

theorem decodeHeaderFields_ne_eCfgChannels (bs : List Byte) : decodeHeaderFields bs ≠ .error .eCfgChannels := by
  unfold decodeHeaderFields
  split
  · simp
  · split <;> simp
  · simp

/-- Code 8 is START's own (R231). -/
theorem decodeAt_ne_eCfgChannels (p : Position) (bs : List Byte) : decodeAt p bs ≠ .error .eCfgChannels := by
  cases p with
  | header =>
    simp only [decodeAt]
    unfold decodeHeader
    split
    · split
      · exact decodeHeaderFields_ne_eCfgChannels _
      · simp
    · simp
  | chunk =>
    simp only [decodeAt]
    unfold decodeChunk
    split
    · simp
    · split <;> simp
  | trailer =>
    simp only [decodeAt]
    unfold decodeEnd
    split
    · split <;> simp
    · simp

theorem DecodeFault.code_le {s : State} {c : Cause} (h : DecodeFault s c) : (causeCode c).toNat ≤ 7 := by
  have hne : c ≠ .eCfgChannels := by
    rintro rfl
    cases h with
    | recordMissing hp hf => exact decodeAt_ne_eCfgChannels _ _ (fetchAt_eq_error.mp hf)
  cases c with
  | eCfgChannels => exact absurd rfl hne
  | _ => decide

/-! ### A decode in progress -/

/-- What a decode satisfies from START on (R22 to R28, R140, R220). -/
structure Decoding (s : State) : Prop where
  quiet : Undisturbed s
  dec : s.mode = .dec
  control : ControlInv s
  streams : StreamInv s
  code_le : s.phase = .err → s.errCause.toNat ≤ 7

/-- Only a fault moves to ERR, and with the code of its cause. -/
theorem Move.code_le {s t : State} (h : Move s t) (hs : s.phase = .err → s.errCause.toNat ≤ 7) (ht : t.phase = .err) :
    t.errCause.toNat ≤ 7 := by
  cases h with
  | waits hw => exact hs ht
  | faults hm hf => exact hf.code_le
  | readsHeader _ hp | writesHeader _ hp => exact absurd ht (bodyPhase_ne_err _)
  | readsChunk _ hp => exact absurd ht (chunkDone_phase_ne_err hp _ _ _ _ _)
  | takesPixel _ hp =>
    rw [pixelDone_phase_eq, hp] at ht
    split at ht <;> cases ht
  | readsEnd | writesEnd => cases ht

/-- A decode has a step, it is a move, and it is a decode still. -/
theorem Decoding.exists_step {s : State} (hs : Decoding s) : ∃ t, step s = .next t ∧ Move s t ∧ Decoding t := by
  obtain ⟨t, hmove⟩ := exists_move_dec hs.control hs.dec
  obtain ⟨-, -, -, -, -, hstart, hrst, -⟩ := hmove.hostSideSame
  refine ⟨t, (step_eq_next_of_undisturbed hs.quiet).mpr hmove, hmove, ?_⟩
  exact ⟨⟨hrst.trans hs.quiet.1, hstart.trans hs.quiet.2⟩, hmove.mode_eq.trans hs.dec, hs.control.move hmove,
    hs.streams.move hs.control hmove, hmove.code_le hs.code_le⟩

/-- START leads to the header step of a decode (R200, R35). -/
theorem step_decodeStart (bytes : List Byte) :
    ∃ t, step (decodeStart bytes) = .next t ∧ Decoding t ∧ t.phase = .hdr :=
  ⟨startRun (decodeStart bytes), rfl,
    ⟨⟨rfl, rfl⟩, rfl, controlInv_startRun _, streamInv_startRun _, fun h => by cases h⟩, rfl⟩

/-! ### The steps a decode takes to its end (R142) -/

/-- The phases of a decode behind its header step (R203). -/
def PastHeader (s : State) : Prop := s.phase = .body ∨ s.phase = .trailer ∨ RunOver s

/-- Every step of a decode in progress leads behind the header. -/
theorem Move.pastHeader {s t : State} (h : Move s t) (hm : s.mode = .dec) (hp : s.phase ≠ .idle) : PastHeader t := by
  cases h with
  | waits hw => exact .inr (.inr ((hw.not_busy hm).resolve_left hp))
  | faults _ hf => exact .inr (.inr (.inr rfl))
  | readsHeader _ hq hf hc hs =>
    rcases bodyPhase_cases (loadHeader _ _ _ _ (consume Config.hdrLen s)) with ⟨hb, -⟩ | ⟨hb, -⟩
    · exact .inl hb
    · exact .inr (.inl hb)
  | readsChunk _ hq hf ho hb =>
    rw [PastHeader, chunkDone_phase, hq]
    split <;> simp
  | readsEnd => exact .inr (.inr (.inl rfl))
  | writesHeader he | takesPixel he | writesEnd he => cases hm.symm.trans he

/-- Behind the last pixel every step of a decode leaves the run over (R203). -/
theorem Move.runOver {s t : State} (h : Move s t) (hm : s.mode = .dec) (hp : s.phase = .trailer ∨ RunOver s) :
    RunOver t := by
  cases h with
  | waits hw => exact hp.resolve_left fun hq => by simpa [RunOver, hq] using hw.not_busy hm
  | faults _ hf => exact .inr rfl
  | readsEnd => exact .inl rfl
  | readsHeader _ hq | readsChunk _ hq => simp [RunOver, hq] at hp
  | writesHeader he | takesPixel he | writesEnd he => cases hm.symm.trans he

/-- How many more steps a decode behind its header may take: one for each pixel owed, and one for the end marker. -/
def stepsOwed (s : State) : Nat :=
  if s.phase = .body then target s - s.npx.toNat + 1 else if s.phase = .trailer then 1 else 0

theorem stepsOwed_of_runOver {s : State} (h : RunOver s) : stepsOwed s = 0 := by
  rcases h with h | h <;> simp [stepsOwed, h]

theorem stepsOwed_le (s : State) : stepsOwed s ≤ target s + 1 := by
  unfold stepsOwed
  split_ifs <;> omega

theorem runOver_of_stepsOwed_eq_zero {s : State} (h : PastHeader s) (h0 : stepsOwed s = 0) : RunOver s := by
  rcases h with h | h | h
  · simp [stepsOwed, h] at h0
  · simp [stepsOwed, h] at h0
  · exact h

/-- Each step behind the header is one fewer to take (R141). -/
theorem Move.stepsOwed_le_pred {s t : State} (h : Move s t) (hs : Decoding s) (hp : PastHeader s) :
    stepsOwed t ≤ stepsOwed s - 1 := by
  have ended (ho : RunOver t) : stepsOwed t ≤ stepsOwed s - 1 := by simp [stepsOwed_of_runOver ho]
  rcases hp with hp | hp
  · have hn := hs.control.body_owes hp
    have ht := (h.headerSame (.inl (by simp [hp]))).target
    rcases h.body_progress hs.dec hp hn with he | ⟨hlt, -⟩
    · exact ended (.inr he)
    · rw [stepsOwed, stepsOwed, if_pos hp, ht]
      split_ifs <;> omega
  · exact ended (h.runOver hs.dec hp)

/-- A decode with at most k steps to take is over after k steps. -/
theorem Decoding.runSteps_over {k : Nat} {s : State} (hs : Decoding s) (hp : PastHeader s) (hk : stepsOwed s ≤ k) :
    ∃ t, runSteps k s = .next t ∧ Decoding t ∧ RunOver t := by
  induction k generalizing s with
  | zero => exact ⟨s, rfl, hs, runOver_of_stepsOwed_eq_zero hp (Nat.le_zero.mp hk)⟩
  | succ k ih =>
    obtain ⟨t, hstep, hmove, ht⟩ := hs.exists_step
    have hpt := hmove.pastHeader hs.dec (by rcases hp with h | h | h | h <;> simp [h])
    have hle := hmove.stepsOwed_le_pred hs hp
    obtain ⟨u, hrun, hu⟩ := ih ht hpt (by omega)
    exact ⟨u, by rw [runSteps, hstep, andThen_next, hrun], hu⟩

/-! ### The result (R142) -/

theorem resultOf_of_done {s : State} (hp : s.phase = .done) :
    resultOf imageOf (.next s) = some (.ok (imageOf s)) := by
  simp [resultOf, stDone, hp]

theorem resultOf_of_err {s : State} (hp : s.phase = .err) :
    resultOf imageOf (.next s) = some (.error s.errCause) := by
  simp [resultOf, stDone, stErr, hp]

/-- A decode in ERR has a code of 1 to 7. -/
theorem Decoding.code_bounds {s : State} (hs : Decoding s) (hp : s.phase = .err) :
    1 ≤ s.errCause.toNat ∧ s.errCause.toNat ≤ 7 := by
  have hc := hs.control.cause
  rw [if_pos hp] at hc
  exact ⟨hc.1, hs.code_le hp⟩

/-- A decode in DONE has an image of legal layout, with the bytes of every pixel (R140). -/
theorem Decoding.image_complete {s : State} (hs : Decoding s) (hp : s.phase = .done) :
    ((imageOf s).channels = 3 ∨ (imageOf s).channels = 4) ∧ (imageOf s).pixels.length =
      (imageOf s).width.toNat * (imageOf s).height.toNat * (imageOf s).channels.toNat := by
  have hd : s.phase = .trailer ∨ s.phase = .done := .inr hp
  refine ⟨legalChannels_iff.mp (hs.control.layout (.inr (.inr (.inl hp)))).1, ?_⟩
  calc (takenPixels s).length = s.pixout.length := by rw [takenPixels_of_ne_err (by simp [hp])]
    _ = s.npx.toNat * s.ch.toNat := hs.streams.pixout_len hs.dec (.inr hd)
    _ = target s * s.ch.toNat := by rw [(hs.control.body_over hd).1]

/-- The decode is the header's fault, or the result of the run at its end. -/
theorem decodeStream_eq (bytes : List Byte) :
    (∃ s, Decoding s ∧ s.phase = .err ∧ decodeStream bytes = some (.error s.errCause)) ∨
    (∃ s, Decoding s ∧ RunOver s ∧ decodeStream bytes = resultOf imageOf (.next s)) := by
  obtain ⟨s₁, hstart, hs₁, hp⟩ := step_decodeStart bytes
  obtain ⟨s₂, hstep, hmove, hs₂⟩ := hs₁.exists_step
  obtain ⟨s₃, hrun, hs₃, hover⟩ := hs₂.runSteps_over (hmove.pastHeader hs₁.dec (by simp [hp])) (stepsOwed_le s₂)
  have hdecode : decodeStream bytes =
      if stErr s₂ then some (.error s₂.errCause) else resultOf imageOf (.next s₃) := by
    have h₂ : runSteps 2 (decodeStart bytes) = .next s₂ := by simp [runSteps, hstart, hstep]
    simp [decodeStream, h₂, hrun]
  by_cases he : stErr s₂ = true
  · exact .inl ⟨s₂, hs₂, (stErr_iff s₂).mp he, by rw [hdecode, if_pos he]⟩
  · exact .inr ⟨s₃, hs₃, hover, by rw [hdecode, if_neg he]⟩

/-- Settles O59: the decode ends, its code is a decoder's, and in DONE the invariants count the image. -/
theorem decodeIsTotal : Obligations.DecodeIsTotal := by
  intro bytes
  rcases decodeStream_eq bytes with ⟨s, hs, hp, hd⟩ | ⟨s, hs, hp | hp, hd⟩
  · exact .inl ⟨s.errCause, hd, hs.code_bounds hp⟩
  · exact .inr ⟨imageOf s, hd.trans (resultOf_of_done hp), hs.image_complete hp⟩
  · exact .inl ⟨s.errCause, hd.trans (resultOf_of_err hp), hs.code_bounds hp⟩

end Sys2Proof.Machine

/-! SUPPORT. The chunks emitted and the encoder's pixel step (42_chunk_encoder.md rules R160 to R172): the bytes of each
chunk as R90's sums, the whole state after a chunk and after a pixel, and the chunk read back. -/

namespace Sys2Proof.Machine

open Sys2Proof

/-! ### The incoming pixel (R161, R165) -/

/-- Settles O28: the front of PIXIN is matched in either layout. -/
theorem nextPixelTakesTheLayoutsBytes : Obligations.NextPixelTakesTheLayoutsBytes := by
  intro s r g b a rest
  refine ⟨fun hc hd => ?_, fun hc hd => ?_⟩
  · rw [nextPixel, hc, show (3 : BitVec 8).toNat = 3 from rfl, hd]
    rfl
  · rw [nextPixel, hc, show (4 : BitVec 8).toNat = 4 from rfl, hd]
    rfl

/-- Settles O29: `s8` picks the signed one of the two representatives. -/
theorem deltaIsTheSignedDifference : Obligations.DeltaIsTheSignedDifference := by
  intro a b
  have hv : (sub8 a b).toNat = (((a.toNat : Int) - b.toNat) % 256).toNat := by
    simp [sub8, BitVec.toNat_ofInt]
  rw [delta, s8, hv]
  split <;> omega

/-! ### The bit-packer's sums (R90) -/

theorem indexByte_eq (idx : BitVec 6) : (0b00#2 ++ idx : Byte) = BitVec.ofNat 8 idx.toNat := by
  revert idx
  decide

theorem diffByte_eq (fr fg fb : BitVec 2) :
    (0b01#2 ++ fr ++ fg ++ fb : Byte) = BitVec.ofNat 8 (0x40 + 16 * fr.toNat + 4 * fg.toNat + fb.toNat) := by
  revert fr fg fb
  decide

theorem lumaByte_eq (fg : BitVec 6) : (0b10#2 ++ fg : Byte) = BitVec.ofNat 8 (0x80 + fg.toNat) := by
  revert fg
  decide

theorem nibbleByte_eq (frg fbg : BitVec 4) : (frg ++ fbg : Byte) = BitVec.ofNat 8 (16 * frg.toNat + fbg.toNat) := by
  revert frg fbg
  decide

theorem runByte_eq (f : BitVec 6) : (0b11#2 ++ f : Byte) = BitVec.ofNat 8 (0xC0 + f.toNat) := by
  revert f
  decide

/-- The RUN of a pending count: C0 plus the count less 1 (R87, R163). -/
theorem encode_run_sub_one {r : BitVec 6} (hr : r ≠ 0) :
    encode (.run (r - 1)) = [BitVec.ofNat 8 (0xC0 + (r.toNat - 1))] := by
  have hn : (r - 1).toNat = r.toNat - 1 := by bv_omega
  rw [encode, runByte_eq, hn]

/-! ### Emitting the six chunks -/

/-- Settles O24: each chunk is emitted, its packed fields being the sums. -/
theorem chunkEmitCompletes : Obligations.ChunkEmitCompletes := by
  rintro s ⟨hm, hp⟩
  refine ⟨fun idx => ?_, fun fr fg fb => ?_, fun fg frg fbg => ?_, fun r g b => ?_, fun r g b a => ?_⟩
  · rw [← indexByte_eq]
    exact exec_enc rfl hm hp
  · rw [← diffByte_eq]
    exact exec_enc rfl hm hp
  · rw [← lumaByte_eq, ← nibbleByte_eq]
    exact exec_enc rfl hm hp
  · exact exec_enc rfl hm hp
  · exact exec_enc rfl hm hp

/-- Settles O25: the pending run's chunk is emitted, which stores `prev` and clears the counter. -/
theorem runEmitCompletes : Obligations.RunEmitCompletes := by
  rintro s ⟨hm, hp⟩ hlo -
  have hr : s.run ≠ 0 := by bv_omega
  rw [← encode_run_sub_one hr]
  exact exec_enc rfl hm hp

theorem memRead_emitted_ne (i : Instr) (s : State) {a : Nat}
    (ha : a < slotAddr (hash s.prev) ∨ slotAddr (hash s.prev) + 3 < a) :
    memRead (emitted i s).cache a = memRead s.cache a := by
  cases i with
  | run f => exact memRead_cacheWrite_ne _ _ _ _ ha
  | _ => rfl

/-- Settles O26, by the state after the chunk. -/
theorem chunkEmitFrame : Obligations.ChunkEmitFrame := by
  intro i s t hi hm h
  rw [exec_enc hi hm (exec_chunk_phase hi h)] at h
  cases h
  have hf := pixelFrame_emitted i s
  obtain ⟨hout, hopos, hprev, hnpx, hphase, -⟩ := emitted_frame i s
  refine ⟨hf.headerSame, hf.hostSideSame, hphase, hf.errCause, hprev, hnpx, hf.ipos, hf.pixout, hf.free, hout,
    hopos.trans (by rw [length_encode]), fun hne => ?_, fun a => memRead_emitted_ne i s⟩
  rw [emitted_of_ne_run hne]
  exact ⟨rfl, fun _ => rfl⟩

/-! ### The chunk read back -/

/-- Settles O34: the decoder's pixel is the encoder's, and both caches take it or neither does. -/
theorem selectedChunkReadsBackThePixel : Obligations.SelectedChunkReadsBackThePixel := by
  rintro e d px ⟨hm, hp, hl⟩ hprev hcache
  have hread := readPixel_selectChunk hprev hcache px
  have hover : overshoots (selectChunk e px) d = false := by
    unfold selectChunk
    split_ifs <;> rfl
  have hexec := exec_dec (positionOf_selectChunk e px) hm hp
  rw [hover, if_neg Bool.false_ne_true, commitChunk_of_legal (pixelBytes_eq hl _)] at hexec
  refine ⟨_, hexec, ?_, ?_, ?_⟩
  · rw [chunkDone_prev, hread]
  · rw [chunkDone_cache, readWrites_selectChunk, hread, hcache, lookupWrite_cache]
    cases hit e px <;> rfl
  · rw [chunkDone_npx, readCount_selectChunk]
    rfl

/-! ### The state after a pixel (R160 to R164) -/

/-- The bytes of the pending run (R163). -/
def flushBytes (s : State) : List Byte := if s.run = 0 then [] else encode (.run (s.run - 1))

/-- The whole state after the flush: the run's bytes, and `prev` in its slot where a run was pending (R163). -/
theorem flushed_eq (s : State) :
    flushed s = { s with
      run := 0, out := s.out ++ flushBytes s, opos := s.opos + (flushBytes s).length,
      cache := if s.run = 0 then s.cache else cacheWrite s.cache (hash s.prev) s.prev } := by
  by_cases hr : s.run = 0
  · have hf : flushed s = s := if_neg (not_not_intro hr)
    rw [hf, flushBytes, if_pos hr, if_pos hr, List.append_nil, ← hr]
    rfl
  · have hf : flushed s = emitted (.run (s.run - 1)) s := if_pos hr
    rw [hf, flushBytes, if_neg hr, if_neg hr]
    rfl

/-- With no run pending, the whole state after a pixel that differs from `prev` (R160, R164). -/
theorem pixelDone_of_ne_of_run_eq_zero {px : Pixel} {s : State} (hne : px ≠ s.prev) (hr : s.run = 0) :
    pixelDone px s = { s with
      npx := s.npx + 1, prev := px, out := s.out ++ encode (selectChunk s px),
      opos := s.opos + (encode (selectChunk s px)).length, cache := (lookupWrite px s).cache,
      phase := if (s.npx + 1).toNat = target s then .trailer else s.phase } := by
  rw [pixelDone_of_run_eq_zero hne hr, lookupWrite_countPixels, lookupWrite_eq, closeBody_eq]
  rfl

/-- The whole state after a pixel that differs from `prev`: the flush, then the lookup and the chunk (R160, R164). -/
theorem pixelDone_of_ne {px : Pixel} {s : State} (hne : px ≠ s.prev) :
    pixelDone px s = { flushed s with
      npx := s.npx + 1, prev := px, out := (flushed s).out ++ encode (selectChunk (flushed s) px),
      opos := (flushed s).opos + (encode (selectChunk (flushed s) px)).length,
      cache := (lookupWrite px (flushed s)).cache,
      phase := if (s.npx + 1).toNat = target s then .trailer else s.phase } := by
  have hf := pixelDone_of_ne_of_run_eq_zero (s := flushed s) (by rwa [flushed_prev]) (flushed_run s)
  rwa [pixelDone_flushed hne, flushed_npx, flushed_phase, (pixelFrame_flushed s).headerSame.target] at hf

theorem closeBody_of_ne {s : State} (h : s.npx.toNat ≠ target s) : closeBody s = s :=
  if_neg h

/-- The whole state after a repeated pixel: counted, and the run flushed at 62 or at the last pixel (R162, R163). -/
theorem pixelDone_of_repeat {s : State} (hr : s.run.toNat ≤ 61) :
    pixelDone s.prev s =
      if s.run + 1 = 62 ∨ (s.npx + 1).toNat = target s then { s with
        npx := s.npx + 1, run := 0, out := s.out ++ encode (.run s.run), opos := s.opos + 1,
        cache := cacheWrite s.cache (hash s.prev) s.prev,
        phase := if (s.npx + 1).toNat = target s then .trailer else s.phase }
      else { s with npx := s.npx + 1, run := s.run + 1 } := by
  have hsub : s.run + 1 - 1 = s.run := by bv_omega
  have hne : s.run + 1 ≠ 0 := by bv_omega
  have hf : flushed (setRun (s.run + 1) (countPixels 1 s)) =
      emitted (.run (s.run + 1 - 1)) (setRun (s.run + 1) (countPixels 1 s)) := if_pos hne
  rw [pixelDone_repeat hr, hf, hsub, emitted_run]
  split
  · rw [closeBody_eq, setRun_target, storePixel_target, packRecord, outBytes_target, setRun_target, countPixels_target]
    rfl
  · next hopen =>
    refine closeBody_of_ne ?_
    rw [setRun_target, countPixels_target]
    exact fun hend => hopen (.inr hend)

/-- In BODY of an encode in a legal layout an offered pixel is taken (R160, R201). -/
theorem step_takes_pixel {s : State} {px : Pixel} (hu : Undisturbed s) (hs : ChunkWritable s)
    (hl : legalChannels s.ch = true) (hn : nextPixel s = some px) : step s = .next (pixelDone px s) :=
  (step_eq_next_of_undisturbed hu).mpr (.takesPixel hs.1 hs.2 hl hn)

/-- Settles O33: the step waits, or takes a pixel. -/
theorem pixelStepEmitsAtMostSixBytes : Obligations.PixelStepEmitsAtMostSixBytes := by
  rintro s t hu ⟨hm, hp⟩ h
  rw [step_enc hu.1 hu.2 hm, encoderStep, hp] at h
  rcases encodePixel_cases hm hp h with rfl | ⟨-, px, -, rfl⟩
  · exact ⟨[], by simp⟩
  · exact pixelDone_out px s

/-- Settles O30, by the state after a repeated pixel, whose counts do not wrap. -/
theorem repeatedPixelIsCountedOrFlushed : Obligations.RepeatedPixelIsCountedOrFlushed := by
  intro s hu hs hl hlt hr hn
  have hcount : (s.npx + 1).toNat = s.npx.toNat + 1 := npx_add_toNat (n := 1) hlt
  have h62 : s.run + 1 = 62 ↔ s.run.toNat + 1 = 62 := by bv_omega
  rw [step_takes_pixel hu hs (legalChannels_iff.mpr hl) hn, pixelDone_of_repeat hr, encode, runByte_eq, hcount, hs.2]
  simp only [h62, target]
  split
  · rfl
  · rfl

/-! ### The bytes of the selected chunk (R165 to R171) -/

/-- A quantity within its field's range is stored as the biased quantity (R90). -/
theorem toNat_bias {n : Nat} {b d : Int} (hlo : 0 ≤ d + b) (hhi : d + b < 2 ^ n) : ((bias n b d).toNat : Int) = d + b :=
  eq_add_of_sub_eq (unbias_bias hlo hhi)

theorem diffOk_iff {s : State} {px : Pixel} :
    diffOk s px = true ↔ px.a = s.prev.a ∧ -2 ≤ dr s px ∧ dr s px ≤ 1 ∧ -2 ≤ dg s px ∧ dg s px ≤ 1 ∧
      -2 ≤ db s px ∧ db s px ≤ 1 := by
  simp only [diffOk, Bool.and_eq_true, within_iff, sameA_iff, and_assoc]

theorem lumaOk_iff {s : State} {px : Pixel} :
    lumaOk s px = true ↔ px.a = s.prev.a ∧ -32 ≤ dg s px ∧ dg s px ≤ 31 ∧ -8 ≤ dr s px - dg s px ∧
      dr s px - dg s px ≤ 7 ∧ -8 ≤ db s px - dg s px ∧ db s px - dg s px ≤ 7 := by
  simp only [lumaOk, Bool.and_eq_true, within_iff, sameA_iff, and_assoc, drg, dbg]

/-- The DIFF byte is the sum of its weighted biased differences (R168). -/
theorem diffByte_bias {s : State} {px : Pixel} (h : diffOk s px = true) :
    encode (.diff (bias 2 Config.diffBias (dr s px)) (bias 2 Config.diffBias (dg s px))
      (bias 2 Config.diffBias (db s px))) =
      [BitVec.ofInt 8 (0x40 + 16 * (dr s px + 2) + 4 * (dg s px + 2) + (db s px + 2))] := by
  obtain ⟨-, hr, hr', hg, hg', hb, hb'⟩ := diffOk_iff.mp h
  have field {d : Int} (hlo : -2 ≤ d) (hhi : d ≤ 1) : ((bias 2 Config.diffBias d).toNat : Int) = d + 2 :=
    toNat_bias (by simp only [Config.diffBias]; omega) (by simp only [Config.diffBias]; omega)
  rw [← field hr hr', ← field hg hg', ← field hb hb', encode, diffByte_eq, ← BitVec.ofInt_natCast]
  push_cast
  rfl

/-- The LUMA bytes are the sums of their biased differences (R169). -/
theorem lumaBytes_bias {s : State} {px : Pixel} (h : lumaOk s px = true) :
    encode (.luma (bias 6 Config.lumaGBias (dg s px)) (bias 4 Config.lumaRbBias (drg s px))
      (bias 4 Config.lumaRbBias (dbg s px))) =
      [BitVec.ofInt 8 (0x80 + (dg s px + 32)),
        BitVec.ofInt 8 (16 * (dr s px - dg s px + 8) + (db s px - dg s px + 8))] := by
  obtain ⟨-, hg, hg', hr, hr', hb, hb'⟩ := lumaOk_iff.mp h
  have hgreen : ((bias 6 Config.lumaGBias (dg s px)).toNat : Int) = dg s px + 32 :=
    toNat_bias (by simp only [Config.lumaGBias]; omega) (by simp only [Config.lumaGBias]; omega)
  have field {d : Int} (hlo : -8 ≤ d) (hhi : d ≤ 7) : ((bias 4 Config.lumaRbBias d).toNat : Int) = d + 8 :=
    toNat_bias (by simp only [Config.lumaRbBias]; omega) (by simp only [Config.lumaRbBias]; omega)
  rw [← hgreen, ← field hr hr', ← field hb hb', encode, lumaByte_eq, nibbleByte_eq, ← BitVec.ofInt_natCast,
    ← BitVec.ofInt_natCast]
  push_cast
  rfl

/-- The selected chunk's bytes, by strict priority (R166 to R171). -/
theorem encode_selectChunk (s : State) (px : Pixel) :
    encode (selectChunk s px) =
      if cacheRead s.cache (hash px) = px then [BitVec.ofNat 8 (hash px).toNat]
      else if px.a = s.prev.a ∧ -2 ≤ dr s px ∧ dr s px ≤ 1 ∧ -2 ≤ dg s px ∧ dg s px ≤ 1 ∧
        -2 ≤ db s px ∧ db s px ≤ 1 then
        [BitVec.ofInt 8 (0x40 + 16 * (dr s px + 2) + 4 * (dg s px + 2) + (db s px + 2))]
      else if px.a = s.prev.a ∧ -32 ≤ dg s px ∧ dg s px ≤ 31 ∧ -8 ≤ dr s px - dg s px ∧
        dr s px - dg s px ≤ 7 ∧ -8 ≤ db s px - dg s px ∧ db s px - dg s px ≤ 7 then
        [BitVec.ofInt 8 (0x80 + (dg s px + 32)),
          BitVec.ofInt 8 (16 * (dr s px - dg s px + 8) + (db s px - dg s px + 8))]
      else if px.a = s.prev.a then [0xFE, px.r, px.g, px.b]
      else [0xFF, px.r, px.g, px.b, px.a] := by
  simp only [selectChunk, hit_iff, diffOk_iff, lumaOk_iff, sameA_iff]
  split
  · rw [encode, indexByte_eq]
  split
  · next h => exact diffByte_bias (diffOk_iff.mpr h)
  split
  · next h => exact lumaBytes_bias (lumaOk_iff.mpr h)
  split <;> rfl

theorem flushBytes_eq (s : State) :
    flushBytes s = if s.run = 0 then [] else [BitVec.ofNat 8 (0xC0 + (s.run.toNat - 1))] := by
  rw [flushBytes]
  split
  · rfl
  · next hr => exact encode_run_sub_one hr

/-- The selector's differences are taken from `prev`, which the flush keeps. -/
theorem differences_flushed (s : State) (px : Pixel) :
    dr (flushed s) px = delta px.r s.prev.r ∧ dg (flushed s) px = delta px.g s.prev.g ∧
      db (flushed s) px = delta px.b s.prev.b := by
  simp only [dr, dg, db, flushed_prev, and_self]

/-- Settles O31, by the state after the flush and the state after the chunk. -/
theorem differingPixelEmitsByPriority : Obligations.DifferingPixelEmitsByPriority := by
  intro s px hu hs hl hlt hr hn hne flush cache dr' dg' db' sameA' diffOk' lumaOk' hit' chunk
  have hcount : (s.npx + 1).toNat = s.npx.toNat + 1 := npx_add_toNat (n := 1) hlt
  have hflush : flushBytes s = flush := flushBytes_eq s
  have hcache : (flushed s).cache = cache := congrArg State.cache (flushed_eq s)
  have hlookup : (lookupWrite px (flushed s)).cache = if hit' then cache else cacheWrite cache (hash px) px := by
    rw [lookupWrite_cache, hcache]
    simp only [hit_iff, hcache, hit']
  have hchunk : encode (selectChunk (flushed s) px) = chunk := by
    obtain ⟨hdr, hdg, hdb⟩ := differences_flushed s px
    rw [encode_selectChunk, hdr, hdg, hdb, flushed_prev, hcache]
  rw [step_takes_pixel hu hs (legalChannels_iff.mpr hl) hn, pixelDone_of_ne hne, hchunk, hlookup, flushed_eq, hflush,
    hcount, hs.2, target]

end Sys2Proof.Machine

/-! SUPPORT. The encoder's invariant (42_chunk_encoder.md rules R171, R173, R174), kept by every step: `prev` stands in
its slot once a chunk is emitted, and every pixel costs at most `CH + 1` bytes. -/

namespace Sys2Proof.Machine

open Sys2Proof

/-! ### `prev` stands in its slot (R173) -/

/-- R173: `prev` is the seed and no chunk has been emitted, or its slot holds it. -/
def PrevCached (s : State) : Prop :=
  (s.prev = ⟨0, 0, 0, 255⟩ ∧ s.opos = 14) ∨ cacheRead s.cache (hash s.prev) = s.prev

/-- After the lookup the slot holds the pixel: it did, or it has just been written (R164). -/
theorem cacheRead_lookupWrite {s : State} (hc : Memory.wf s.cache = true) (px : Pixel) :
    cacheRead (lookupWrite px s).cache (hash px) = px := by
  rw [lookupWrite_cache]
  split
  · next hh => exact hit_iff.mp hh
  · exact cacheRead_cacheWrite_self _ _ _ hc

/-- A pixel counted into the run emits nothing and stores nothing; any other stands in its slot (R162 to R164). -/
theorem PrevCached.pixelDone {s : State} (h : PrevCached s) (hc : HashedCache s.cache) (hr : s.run.toNat ≤ 61)
    (px : Pixel) : PrevCached (pixelDone px s) := by
  by_cases hpx : px = s.prev
  · subst hpx
    rw [pixelDone_of_repeat hr]
    split
    · exact .inr (cacheRead_cacheWrite_self _ _ _ hc.wf)
    · exact h
  · rw [pixelDone_of_ne hpx]
    exact .inr (cacheRead_lookupWrite (hashedCache_flushed hc).wf px)

/-! ### A pixel costs at most `CH + 1` bytes (R171, R174) -/

/-- Where alpha is unchanged no chunk has more than 4 bytes, and none has more than 5 (R166 to R171). -/
theorem length_encode_selectChunk_le (s : State) (px : Pixel) :
    (encode (selectChunk s px)).length ≤ if px.a = s.prev.a then 4 else 5 := by
  simp only [selectChunk, ← sameA_iff]
  split_ifs <;> simp [encode]

/-- In RGB layout every pixel taken has alpha 255 (R161). -/
theorem alpha_of_nextPixel {s : State} {px : Pixel} (hch : s.ch = 3) (hn : nextPixel s = some px) : px.a = 255 := by
  rw [nextPixel, hch] at hn
  unfold pixelOfBytes at hn
  rw [if_pos (show (3 : BitVec 8) = Config.chRgb from rfl)] at hn
  split at hn <;> cases hn
  rfl

/-- The selected chunk has at most `CH + 1` bytes: in RGB layout alpha never changes (R171, R174). -/
theorem length_encode_selectChunk_flushed_le {s : State} {px : Pixel} (hl : legalChannels s.ch = true)
    (ha : s.ch = 3 → s.prev.a = 255) (hn : nextPixel s = some px) :
    (encode (selectChunk (flushed s) px)).length ≤ s.ch.toNat + 1 := by
  have hlen := length_encode_selectChunk_le (flushed s) px
  rw [flushed_prev] at hlen
  rcases legalChannels_iff.mp hl with hch | hch
  · rw [if_pos ((alpha_of_nextPixel hch hn).trans (ha hch).symm)] at hlen
    simpa [hch] using hlen
  · refine hlen.trans ?_
    rw [hch]
    split <;> decide

/-- The bytes of the pending run are those the invariant reserves for it. -/
theorem length_flushBytes (s : State) : (flushBytes s).length = pendingBytes s := by
  rw [flushBytes, pendingBytes]
  split <;> rfl

/-- A pixel step costs at most `CH + 1` bytes, counting the byte of a run it leaves pending (R174). -/
theorem pixelDone_cost {s : State} {px : Pixel} (hl : legalChannels s.ch = true) (ha : s.ch = 3 → s.prev.a = 255)
    (hr : s.run.toNat ≤ 61) (hn : nextPixel s = some px) :
    (pixelDone px s).opos + pendingBytes (pixelDone px s) ≤ s.opos + pendingBytes s + (s.ch.toNat + 1) := by
  by_cases hpx : px = s.prev
  · subst hpx
    have hlt : s.run + 1 ≠ 0 := by bv_omega
    rw [pixelDone_of_repeat hr]
    split <;> simp only [pendingBytes, hlt, if_true, if_false] <;> omega
  · have hlen := length_encode_selectChunk_flushed_le hl ha hn
    have hopos : (flushed s).opos = s.opos + pendingBytes s := by rw [flushed_eq, ← length_flushBytes]
    rw [pixelDone_of_ne hpx, pendingBytes]
    simp only [flushed_run, hopos, if_true]
    omega

/-! ### The invariant -/

/-- The invariant speaks of an encode alone. -/
theorem encoderInv_of_dec {s : State} (hm : s.mode = .dec) : EncoderInv s := by
  constructor <;> simp [hm]

/-- START gives the seed and no byte, or a fault (R200, R35). -/
theorem encoderInv_startRun (s : State) : EncoderInv (startRun s) := by
  rcases startRun_cases s with ⟨h, hm⟩ | ⟨h, -⟩ | h <;> rw [h]
  · exact encoderInv_of_dec hm
  · constructor <;> simp [loadPorts, runInit, Config.prevSeed]
  · constructor <;> simp

/-- The header's 14 bytes leave the seed, no run and no pixel (R110). -/
theorem EncoderInv.headerWritten {s : State} (hi : EncoderInv s) (hc : ControlInv s) (hm : s.mode = .enc)
    (hp : s.phase = .hdr) : EncoderInv (setPhase (bodyPhase s) (packRecord (.header s.w s.h s.ch s.cs) s)) := by
  obtain ⟨hprev, hopos⟩ := hi.hdr_fresh hm hp
  obtain ⟨hnpx, hrun⟩ := hc.hdr_fresh hp
  have hlen : (encode (.header s.w s.h s.ch s.cs)).length = 14 := rfl
  rcases bodyPhase_cases s with ⟨hb, -⟩ | ⟨hb, -⟩ <;> rw [hb] <;> constructor <;>
    simp [packRecord, hlen, hprev, hopos, hnpx, hrun, pendingBytes]

/-- A pixel step keeps the invariant: the pixel is counted once and costs at most `CH + 1` bytes (R171 to R174). -/
theorem EncoderInv.pixelTaken {s : State} {px : Pixel} (hi : EncoderInv s) (hc : ControlInv s) (hk : CacheInv s)
    (hm : s.mode = .enc) (hp : s.phase = .body) (hn : nextPixel s = some px) : EncoderInv (pixelDone px s) := by
  obtain ⟨hl, hlt, hr⟩ := hc.inBody hp
  have hf := pixelFrame_pixelDone px s
  have hphase : (pixelDone px s).phase = .body ∨ (pixelDone px s).phase = .trailer := hp ▸ pixelDone_phase px s
  have hnpx : (pixelDone px s).npx.toNat = s.npx.toNat + 1 := by rw [pixelDone_npx]; exact npx_add_toNat hlt
  have hcost : 14 ≤ (pixelDone px s).opos ∧ (pixelDone px s).opos + pendingBytes (pixelDone px s) ≤
      14 + ((pixelDone px s).ch.toNat + 1) * (pixelDone px s).npx.toNat := by
    obtain ⟨hlo, hhi⟩ := hi.body_cost hm hp
    obtain ⟨bs, -, -, hopos⟩ := pixelDone_out px s
    have hstep := pixelDone_cost hl (hi.rgb_alpha hm hp) hr hn
    rw [hf.ch, hnpx, Nat.mul_succ]
    omega
  constructor
  case hdr_fresh => exact fun _ hq => by simp [hq] at hphase
  case prev_cached => exact fun _ _ => PrevCached.pixelDone (hi.prev_cached hm hp) (hk.hashed (by simp [hp])) hr px
  case rgb_alpha =>
    intro _ _ hch
    rw [pixelDone_prev]
    exact alpha_of_nextPixel (hf.ch.symm.trans hch) hn
  case body_cost => exact fun _ _ => hcost
  case trailer_cost => exact fun _ _ => ⟨hcost.1, (Nat.le_add_right ..).trans hcost.2⟩
  case done_cost => exact fun _ hq => by simp [hq] at hphase

/-- The end marker adds its 8 bytes (R112). -/
theorem EncoderInv.endWritten {s : State} (hi : EncoderInv s) (hm : s.mode = .enc) (hp : s.phase = .trailer) :
    EncoderInv (setPhase .done (packRecord .endMarker s)) := by
  obtain ⟨hlo, hhi⟩ := hi.trailer_cost hm hp
  have hlen : (encode .endMarker).length = 8 := rfl
  constructor <;> simp [packRecord, hlen]
  omega

/-- Every move of the sequencer keeps the encoder's invariant. -/
theorem EncoderInv.move {s t : State} (hi : EncoderInv s) (hc : ControlInv s) (hk : CacheInv s) (h : Move s t) :
    EncoderInv t := by
  have hmode := h.mode_eq
  cases h with
  | waits hw => exact hi
  | writesHeader hm hp => exact hi.headerWritten hc hm hp
  | takesPixel hm hp hl hn => exact hi.pixelTaken hc hk hm hp hn
  | writesEnd hm hp => exact hi.endWritten hm hp
  | faults hm | readsHeader hm | readsChunk hm | readsEnd hm => exact encoderInv_of_dec (hmode.trans hm)

/-- Settles O55: reset and START give the invariant, and every move of the sequencer keeps it. -/
theorem stepKeepsTheEncoderBounded : Obligations.StepKeepsTheEncoderBounded := by
  intro s t hc hk hi h
  rcases step_cases h with ⟨-, rfl⟩ | ⟨-, -, -, rfl⟩ | ⟨-, -, h⟩
  · exact encoderInv_of_idle rfl
  · exact encoderInv_startRun s
  · exact hi.move hc hk (sequencerStep_eq_next.mp h)

end Sys2Proof.Machine

/-! SUPPORT. A whole encode, and the decode of what it gives (42_chunk_encoder.md rules R174 and R175): START, the
header step, one step for each pixel and the end marker, each followed by a decoder that reads the bytes emitted. -/

namespace Sys2Proof.Machine

open Sys2Proof

/-! ### A run that is over (R205, R225) -/

/-- A run that is over keeps its state, however many steps it is given (assumption log 9). -/
theorem runSteps_of_runOver {s : State} (hu : Undisturbed s) (h : RunOver s) (k : Nat) : runSteps k s = .next s := by
  have hstep : step s = .next s := by
    refine (step_eq_next_of_undisturbed hu).mpr (.waits (.inl ?_))
    rcases h with h | h <;> rw [h] <;> rfl
  induction k with
  | zero => rfl
  | succ k ih => rw [runSteps, hstep, andThen_next, ih]

/-- More steps from a run that is over change nothing. -/
theorem runSteps_of_le {s t : State} {k l : Nat} (hk : runSteps k s = .next t) (hu : Undisturbed t) (h : RunOver t)
    (hle : k ≤ l) : runSteps l s = .next t := by
  rw [← Nat.add_sub_cancel' hle, runSteps_add, hk, andThen_next, runSteps_of_runOver hu h]

/-- A run ends in one state. -/
theorem runOver_unique {s t u : State} {k l : Nat} (hk : runSteps k s = .next t) (htu : Undisturbed t) (ht : RunOver t)
    (hl : runSteps l s = .next u) (huu : Undisturbed u) (hu : RunOver u) : t = u := by
  have hkm := runSteps_of_le hk htu ht (le_max_left k l)
  have hlm := runSteps_of_le hl huu hu (le_max_right k l)
  exact Host.Outcome.next.inj (hkm.symm.trans hlm)

/-- A decode that any number of steps takes to DONE gives that state's image (R142). -/
theorem decodeStream_of_done {bytes : List Byte} {k : Nat} {t : State} (hk : runSteps k (decodeStart bytes) = .next t)
    (hu : Undisturbed t) (hp : t.phase = .done) : decodeStream bytes = some (.ok (imageOf t)) := by
  obtain ⟨s₁, hstart, hs₁, hp₁⟩ := step_decodeStart bytes
  obtain ⟨s₂, hstep, hmove, hs₂⟩ := hs₁.exists_step
  obtain ⟨s₃, hrun, hs₃, hover⟩ := hs₂.runSteps_over (hmove.pastHeader hs₁.dec (by simp [hp₁])) (stepsOwed_le s₂)
  have h₂ : runSteps 2 (decodeStart bytes) = .next s₂ := by simp [runSteps, hstart, hstep]
  have h₃ : runSteps (2 + (target s₂ + 1)) (decodeStart bytes) = .next s₃ := by
    rw [runSteps_add, h₂, andThen_next, hrun]
  obtain rfl := runOver_unique hk hu (.inl hp) h₃ hs₃.quiet hover
  have he : stErr s₂ ≠ true := by
    rw [Ne, stErr_iff]
    intro he
    obtain rfl := runOver_unique h₃ hu (.inl hp) h₂ hs₂.quiet (.inr he)
    cases hp.symm.trans he
  simp only [decodeStream, h₂, hrun, if_neg he, resultOf_of_done hp]

/-! ### An encode in progress -/

/-- What an encode whose host offers the whole image satisfies from START on (R22 to R28, R171 to R174). -/
structure Encoding (s : State) : Prop where
  quiet : Undisturbed s
  enc : s.mode = .enc
  control : ControlInv s
  cached : CacheInv s
  streams : StreamInv s
  bounded : EncoderInv s
  offered : s.pixin.length = target s * s.ch.toNat

theorem Encoding.move {s t : State} (hs : Encoding s) (h : Move s t) : Encoding t := by
  have htarget := (h.headerSame (.inr hs.enc)).target
  obtain ⟨hmode, -, -, hch, -⟩ := h.headerSame (.inr hs.enc)
  obtain ⟨-, -, -, -, -, hstart, hrst, -, hpixin⟩ := h.hostSideSame
  exact ⟨⟨hrst.trans hs.quiet.1, hstart.trans hs.quiet.2⟩, hmode.trans hs.enc, hs.control.move h, hs.cached.move h,
    hs.streams.move hs.control h, hs.bounded.move hs.control hs.cached h,
    by rw [hpixin, htarget, hch, hs.offered]⟩

/-- The bytes of a whole pixel give a pixel (R161). -/
theorem exists_pixelOfBytes {ch : BitVec 8} (hl : legalChannels ch = true) {bs : List Byte} (h : ch.toNat ≤ bs.length) :
    ∃ px, pixelOfBytes ch bs = some px := by
  rcases legalChannels_iff.mp hl with rfl | rfl
  · match bs, h with
    | r :: g :: b :: rest, _ => exact ⟨_, rfl⟩
  · match bs, h with
    | r :: g :: b :: a :: rest, _ => exact ⟨_, rfl⟩

/-- In BODY the host offers the pixel that is owed, and it is taken (R160). -/
theorem Encoding.takes_pixel {s : State} (hs : Encoding s) (hp : s.phase = .body) :
    ∃ px, nextPixel s = some px ∧ Move s (pixelDone px s) := by
  obtain ⟨hl, hlt, -⟩ := hs.control.inBody hp
  have hlen : s.ch.toNat ≤ (s.pixin.drop (s.npx.toNat * s.ch.toNat)).length := by
    rw [List.length_drop, hs.offered, ← Nat.sub_mul]
    exact Nat.le_mul_of_pos_left _ (Nat.sub_pos_of_lt hlt)
  obtain ⟨px, hn⟩ := exists_pixelOfBytes hl hlen
  exact ⟨px, hn, .takesPixel hs.enc hp hl hn⟩

/-! ### The pixels of an image, one step each -/

/-- The bytes consumed leave those behind them. -/
theorem remaining_of_consumed {d d' : State} {bs rest : List Byte} (hd : remaining d = bs ++ rest)
    (hinp : d'.inp = d.inp) (hipos : d'.ipos = d.ipos + bs.length) : remaining d' = rest := by
  rw [remaining, hinp, hipos, ← List.drop_drop]
  exact (congrArg _ hd).trans List.drop_left

/-- The encoder goes from s to t in n steps and emits the bytes bs, which take a decoder in step with s to one in step
with t (R66). -/
structure Emits (n : Nat) (bs : List Byte) (s t : State) : Prop where
  run : runSteps n s = .next t
  header : HeaderSame s t
  pixin : t.pixin = s.pixin
  out : t.out = s.out ++ bs
  follows : ∀ (d : State) (rest : List Byte), InStep s d → remaining d = bs ++ rest → ∃ k, CatchesUp k bs d t

theorem Emits.refl (s : State) : Emits 0 [] s s where
  run := rfl
  header := ⟨rfl, rfl, rfl, rfl, rfl⟩
  pixin := rfl
  out := (List.append_nil _).symm
  follows _ _ h _ := ⟨0, .of_inStep h⟩

theorem Emits.trans {m n : Nat} {bs cs : List Byte} {s t u : State} (h : Emits m bs s t) (k : Emits n cs t u) :
    Emits (m + n) (bs ++ cs) s u where
  run := by rw [runSteps_add, h.run, andThen_next, k.run]
  header := by
    obtain ⟨hm, hw, hh, hc, hcs⟩ := h.header
    obtain ⟨km, kw, kh, kc, kcs⟩ := k.header
    exact ⟨km.trans hm, kw.trans hw, kh.trans hh, kc.trans hc, kcs.trans hcs⟩
  pixin := k.pixin.trans h.pixin
  out := by rw [k.out, h.out, List.append_assoc]
  follows d rest hin hd := by
    rw [List.append_assoc] at hd
    obtain ⟨i, d', hrun, hin', hinp, hipos⟩ := h.follows d _ hin hd
    obtain ⟨j, d'', hrun', hin'', hinp', hipos'⟩ :=
      k.follows d' rest hin' (remaining_of_consumed hd hinp hipos)
    refine ⟨i + j, d'', by rw [runSteps_add, hrun, andThen_next, hrun'], hin'', hinp'.trans hinp, ?_⟩
    rw [hipos', hipos, List.length_append, Nat.add_assoc]

/-- A pixel step emits bytes that a decoder follows (R66). -/
theorem Encoding.emits_pixel {s : State} (hs : Encoding s) (hp : s.phase = .body) :
    ∃ bs t, Emits 1 bs s t ∧ Encoding t ∧ t.npx.toNat = s.npx.toNat + 1 ∧ (t.phase = .body ∨ t.phase = .trailer) := by
  obtain ⟨px, hn, hmove⟩ := hs.takes_pixel hp
  obtain ⟨bs, hout, -⟩ := pixelDone_out px s
  have hstep : step s = .next (pixelDone px s) := (step_eq_next_of_undisturbed hs.quiet).mpr hmove
  have hf := pixelFrame_pixelDone px s
  refine ⟨bs, pixelDone px s, ⟨by simp [runSteps, hstep], hf.headerSame, hf.pixin, hout, fun d rest hin hd => ?_⟩,
    hs.move hmove, ?_, hp ▸ pixelDone_phase px s⟩
  · obtain ⟨k, d', -, hfollow⟩ :=
      decoderStaysInStepWithEncoder s (pixelDone px s) d px bs rest hs.control hs.cached hin hp hn hstep hout hd
    exact ⟨k, d', hfollow⟩
  · rw [pixelDone_npx]
    exact npx_add_toNat (hs.control.body_owes hp)

/-- As many steps as pixels are owed lead to TRAILER (R174). -/
theorem Encoding.emits_pixels {n : Nat} {s : State} (hs : Encoding s) (hp : s.phase = .body ∨ s.phase = .trailer)
    (hn : s.npx.toNat + n = target s) : ∃ bs t, Emits n bs s t ∧ Encoding t ∧ t.phase = .trailer := by
  induction n generalizing s with
  | zero =>
    refine ⟨[], s, .refl s, hs, hp.resolve_left fun hb => ?_⟩
    have := hs.control.body_owes hb
    omega
  | succ n ih =>
    have hb : s.phase = .body := hp.resolve_right fun ht => by
      have := (hs.control.body_over (.inl ht)).1
      omega
    obtain ⟨bs, t, hemits, ht, hcount, hpt⟩ := hs.emits_pixel hb
    obtain ⟨cs, u, hrest, hu⟩ := ih ht hpt (by rw [hcount, hemits.header.target]; omega)
    exact ⟨bs ++ cs, u, Nat.add_comm 1 n ▸ hemits.trans hrest, hu⟩

/-! ### START and the header step -/

/-- An encode behind its START (R200, R35). -/
def encodeHdr (w h : BitVec 32) (c : BitVec 8) (cs : BitVec 1) (pixels : List Byte) : State :=
  startRun (encodeStart w h c cs pixels)

/-- An encode behind its header step (R110). -/
def encodeBody (w h : BitVec 32) (c : BitVec 8) (cs : BitVec 1) (pixels : List Byte) : State :=
  let s := encodeHdr w h c cs pixels
  setPhase (bodyPhase s) (packRecord (.header s.w s.h s.ch s.cs) s)

section
variable {w h : BitVec 32} {c : BitVec 8} {cs : BitVec 1} {pixels : List Byte}

theorem step_encodeStart : step (encodeStart w h c cs pixels) = .next (encodeHdr w h c cs pixels) := rfl

/-- In a legal layout START loads the ports (R200). -/
theorem encodeHdr_eq (hc : legalChannels c = true) :
    encodeHdr w h c cs pixels =
      setPhase .hdr { loadPorts (runInit (encodeStart w h c cs pixels)) with ch := c } :=
  if_pos hc

theorem encoding_encodeHdr (hc : legalChannels c = true) (hlen : pixels.length = w.toNat * h.toNat * c.toNat) :
    Encoding (encodeHdr w h c cs pixels) where
  quiet := by rw [encodeHdr_eq hc]; exact ⟨rfl, rfl⟩
  enc := by rw [encodeHdr_eq hc]; rfl
  control := controlInv_startRun _
  cached := HashedCache.cacheInv (startRun_cache _ ▸ hashedCache_cacheClear)
  streams := streamInv_startRun _
  bounded := encoderInv_startRun _
  offered := by rw [encodeHdr_eq hc]; exact hlen

theorem move_encodeHdr (hc : legalChannels c = true) :
    Move (encodeHdr w h c cs pixels) (encodeBody w h c cs pixels) := by
  unfold encodeBody
  rw [encodeHdr_eq hc]
  exact .writesHeader rfl rfl

/-- The two first steps of an encode (R174). -/
theorem runSteps_two_encodeStart (hc : legalChannels c = true)
    (hlen : pixels.length = w.toNat * h.toNat * c.toNat) :
    runSteps 2 (encodeStart w h c cs pixels) = .next (encodeBody w h c cs pixels) := by
  have hstep := (step_eq_next_of_undisturbed (encoding_encodeHdr hc hlen).quiet).mpr (move_encodeHdr (cs := cs) hc)
  simp only [runSteps, step_encodeStart, andThen_next, hstep]

/-- The registers and the streams behind the header step. -/
theorem encodeBody_fields (hc : legalChannels c = true) :
    (encodeBody w h c cs pixels).w = w ∧ (encodeBody w h c cs pixels).h = h ∧ (encodeBody w h c cs pixels).ch = c ∧
      (encodeBody w h c cs pixels).cs = cs.zeroExtend 8 ∧ (encodeBody w h c cs pixels).npx = 0 ∧
      (encodeBody w h c cs pixels).pixin = pixels ∧
      (encodeBody w h c cs pixels).out = encode (.header w h c (cs.zeroExtend 8)) := by
  unfold encodeBody
  rw [encodeHdr_eq hc]
  exact ⟨rfl, rfl, rfl, rfl, rfl, rfl, rfl⟩

/-- The pixel steps of the image lead from the header to TRAILER (R174). -/
theorem encodeBody_emits (hc : legalChannels c = true) (hlen : pixels.length = w.toNat * h.toNat * c.toNat) :
    ∃ bs t, Emits (w.toNat * h.toNat) bs (encodeBody w h c cs pixels) t ∧ Encoding t ∧ t.phase = .trailer := by
  obtain ⟨hw, hh, -, -, hn, -⟩ := encodeBody_fields (w := w) (h := h) (cs := cs) (pixels := pixels) hc
  refine ((encoding_encodeHdr hc hlen).move (move_encodeHdr hc)).emits_pixels ?_ ?_
  · rcases bodyPhase_cases (encodeHdr w h c cs pixels) with ⟨hb, -⟩ | ⟨hb, -⟩
    · exact .inl hb
    · exact .inr hb
  · rw [hn, target, hw, hh]
    exact Nat.zero_add _

end

/-! ### The result of an encode (R174) -/

/-- An encode behind its end marker (R112). -/
def endWritten (s : State) : State := setPhase .done (packRecord .endMarker s)

theorem Encoding.move_endWritten {s : State} (hs : Encoding s) (hp : s.phase = .trailer) : Move s (endWritten s) :=
  .writesEnd hs.enc hp

/-- The encode gives the header, the chunks of its pixels, and the end marker (R174). -/
theorem encodeImage_eq {w h : BitVec 32} {c : BitVec 8} {cs : BitVec 1} {pixels bs : List Byte} {t : State}
    (hc : legalChannels c = true) (hlen : pixels.length = w.toNat * h.toNat * c.toNat)
    (hemits : Emits (w.toNat * h.toNat) bs (encodeBody w h c cs pixels) t) (ht : Encoding t)
    (hp : t.phase = .trailer) : encodeImage w h c cs pixels = some (.ok (endWritten t).out) := by
  have hend : step t = .next (endWritten t) := (step_eq_next_of_undisturbed ht.quiet).mpr (ht.move_endWritten hp)
  rw [encodeImage, runSteps_add, runSteps_add, runSteps_two_encodeStart hc hlen, andThen_next, hemits.run, andThen_next,
    runSteps, hend]
  rfl

/-- A done encode has 22 bytes and at most `CH + 1` a pixel more (R174). -/
theorem Encoding.out_bounds {s : State} (hs : Encoding s) (hp : s.phase = .done) :
    22 ≤ s.out.length ∧ s.out.length ≤ 22 + (s.ch.toNat + 1) * target s := by
  rw [← hs.streams.opos_eq (by simp [hp]), ← (hs.control.body_over (.inr hp)).1]
  exact hs.bounded.done_cost hs.enc hp

/-- An illegal layout ends the encode at its START (R200, R231). -/
theorem encodeImage_of_illegal {w h : BitVec 32} {c : BitVec 8} {cs : BitVec 1} {pixels : List Byte}
    (hc : legalChannels c ≠ true) : encodeImage w h c cs pixels = some (.error 8) := by
  have hstart : encodeHdr w h c cs pixels =
      raise .eCfgChannels (freeChannels (loadPorts (runInit (encodeStart w h c cs pixels)))) := if_neg hc
  have hrun : runSteps 1 (encodeStart w h c cs pixels) = .next (encodeHdr w h c cs pixels) := by
    rw [runSteps, step_encodeStart, andThen_next, runSteps]
  have hu : Undisturbed (encodeHdr w h c cs pixels) := by rw [hstart]; exact ⟨rfl, rfl⟩
  have hover : RunOver (encodeHdr w h c cs pixels) := by rw [hstart]; exact .inr rfl
  rw [encodeImage, runSteps_of_le hrun hu hover (by omega), hstart]
  rfl

/-- Settles O58: the invariants bound the bytes of the encode's last state, and START refuses any other layout. -/
theorem encodeGivesBytesWithinBounds : Obligations.EncodeGivesBytesWithinBounds := by
  intro w h c cs pixels hlen
  split
  · next hc =>
    have hc := legalChannels_iff.mpr hc
    obtain ⟨bs, t, hemits, ht, hp⟩ := encodeBody_emits (cs := cs) hc hlen
    obtain ⟨-, hw, hh, hch, -⟩ := hemits.header
    obtain ⟨bw, bh, bch, -⟩ := encodeBody_fields (w := w) (h := h) (cs := cs) (pixels := pixels) hc
    have hbounds := (ht.move (ht.move_endWritten hp)).out_bounds rfl
    have htarget : target (endWritten t) = w.toNat * h.toNat :=
      congrArg₂ (fun w h : BitVec 32 => w.toNat * h.toNat) (hw.trans bw) (hh.trans bh)
    have hlayout : (endWritten t).ch = c := hch.trans bch
    rw [htarget, hlayout] at hbounds
    exact ⟨_, encodeImage_eq hc hlen hemits ht hp, hbounds⟩
  · next hc => exact encodeImage_of_illegal (mt legalChannels_iff.mp hc)

/-! ### The decode of an encode (R175) -/

/-- A decoder in HDR before the bytes of a legal header loads it (R111). -/
theorem step_reads_header {d : State} {w h : BitVec 32} {c cs : BitVec 8} {rest : List Byte} (hu : Undisturbed d)
    (hm : d.mode = .dec) (hp : d.phase = .hdr) (hd : remaining d = encode (.header w h c cs) ++ rest)
    (hc : legalChannels c = true) (hcs : legalColorspace cs = true) : step d = .next (headerDone w h c cs d) := by
  refine (step_eq_next_of_undisturbed hu).mpr (.readsHeader hm hp (fetchAt_eq_ok.mpr ⟨rest, ?_⟩) hc hcs)
  rw [hd]
  exact decodeHeader_encode w h c cs rest

/-- A decoder in TRAILER before the end marker is done (R113). -/
theorem step_reads_end {d : State} (hu : Undisturbed d) (hm : d.mode = .dec) (hp : d.phase = .trailer)
    (hd : remaining d = Config.endMarker) : step d = .next (setPhase .done (consume Config.endLen d)) := by
  refine (step_eq_next_of_undisturbed hu).mpr (.readsEnd hm hp (fetchAt_eq_ok.mpr ⟨[], ?_⟩))
  rw [hd]
  rfl

/-- Behind their header steps the decoder of an encode's bytes is in step with the encoder (R66). -/
theorem inStep_encodeBody {w h : BitVec 32} {c : BitVec 8} {cs : BitVec 1} {pixels : List Byte}
    (hc : legalChannels c = true) (bytes : List Byte) :
    InStep (encodeBody w h c cs pixels) (headerDone w h c (cs.zeroExtend 8) (startRun (decodeStart bytes))) := by
  unfold encodeBody
  rw [encodeHdr_eq hc]
  constructor
  case pixels => exact fun bs _ => (congrArg (pixels.take ·) (Nat.zero_mul c.toNat)).symm
  case enc_quiet | dec_quiet => exact ⟨rfl, rfl⟩
  case header => exact ⟨rfl, rfl, rfl, rfl⟩
  all_goals rfl

/-- In TRAILER the decoder has output all the pixels the encoder was offered (R175). -/
theorem Encoding.pixout_eq {e d : State} (he : Encoding e) (h : InStep e d) (hp : e.phase = .trailer) :
    d.pixout = e.pixin := by
  obtain ⟨hnpx, hrun⟩ := he.control.body_over (.inl hp)
  obtain ⟨bs, hb, -⟩ := pixelBytes_of_legal (he.control.layout (.inr (.inl hp))).1 e.prev
  simpa [hrun, hnpx, ← he.offered] using h.pixels bs hb

/-- A decoder of an encode's bytes comes to stand before the end marker, in step with the encoder (R66). -/
theorem Emits.decoder_reaches {w h : BitVec 32} {c : BitVec 8} {cs : BitVec 1} {pixels bs : List Byte} {n : Nat}
    {e : State} (hemits : Emits n bs (encodeBody w h c cs pixels) e) (hc : legalChannels c = true) :
    ∃ k d, runSteps k (decodeStart (endWritten e).out) = .next d ∧ InStep e d ∧ remaining d = Config.endMarker := by
  obtain ⟨-, -, -, -, -, -, hout⟩ := encodeBody_fields (w := w) (h := h) (cs := cs) (pixels := pixels) hc
  have hbytes : remaining (startRun (decodeStart (endWritten e).out)) =
      encode (.header w h c (cs.zeroExtend 8)) ++ (bs ++ Config.endMarker) := by
    rw [← hout, ← List.append_assoc, ← hemits.out]
    rfl
  have hheader := step_reads_header ⟨rfl, rfl⟩ rfl rfl hbytes hc (legalColorspace_zeroExtend cs)
  have hchunks : remaining (headerDone w h c (cs.zeroExtend 8) (startRun (decodeStart (endWritten e).out))) =
      bs ++ Config.endMarker := remaining_of_consumed hbytes rfl rfl
  obtain ⟨k, d, hrun, hin, hinp, hipos⟩ := hemits.follows _ _ (inStep_encodeBody hc _) hchunks
  refine ⟨1 + 1 + k, d, ?_, hin, remaining_of_consumed hchunks hinp hipos⟩
  have hstart : step (decodeStart (endWritten e).out) = .next (startRun (decodeStart (endWritten e).out)) := rfl
  rw [runSteps_add, runSteps, hstart, andThen_next, runSteps, hheader, andThen_next, runSteps, andThen_next, hrun]

/-- Settles O57: the decoder reads the header, follows the encoder through its pixels, and reads the end marker. -/
theorem decodeOfEncodeIsTheImage : Obligations.DecodeOfEncodeIsTheImage := by
  intro w h c cs pixels hc hlen
  have hc := legalChannels_iff.mpr hc
  obtain ⟨bs, e, hemits, he, hp⟩ := encodeBody_emits (cs := cs) hc hlen
  obtain ⟨k, d, hrun, hin, hd⟩ := hemits.decoder_reaches hc
  refine ⟨_, encodeImage_eq hc hlen hemits he hp, ?_⟩
  have hend := step_reads_end hin.dec_quiet hin.dec (hin.phase.trans hp) hd
  have hdone : runSteps (k + 1) (decodeStart (endWritten e).out) =
      .next (setPhase .done (consume Config.endLen d)) := by
    rw [runSteps_add, hrun, andThen_next, runSteps, hend, andThen_next, runSteps]
  obtain ⟨bw, bh, bch, bcs, -, bpixin, -⟩ := encodeBody_fields (w := w) (h := h) (cs := cs) (pixels := pixels) hc
  obtain ⟨-, ew, eh, ech, ecs⟩ := hemits.header
  obtain ⟨dw, dh, dch, dcs⟩ := hin.header
  have hpix : d.pixout = pixels := by rw [he.pixout_eq hin hp, hemits.pixin, bpixin]
  have himage : imageOf (setPhase .done (consume Config.endLen d)) = ⟨d.w, d.h, d.ch, d.cs, d.pixout⟩ := rfl
  rw [decodeStream_of_done hdone hin.dec_quiet rfl, himage, dw, ew, bw, dh, eh, bh, dch, ech, bch, dcs, ecs, bcs, hpix]

end Sys2Proof.Machine

/-! SUPPORT. The statements of 43_sequencer_and_commands.md: START, the step each phase enables, the order of the
phases, and that the sequencer always answers. -/

namespace Sys2Proof.Machine

open Sys2Proof

/-! ### START (R200, R206) -/

/-- START is enabled outside a run only (R200). -/
theorem startEnabled_iff {s : State} :
    startEnabled s = true ↔ s.phase = .idle ∨ s.phase = .done ∨ s.phase = .err := by
  unfold startEnabled
  cases s.phase <;> simp

/-- A pending START is taken before the sequencer's own step. -/
theorem step_start {s : State} (hr : s.rst = false) (hc : s.cmdStart = true) :
    step s = if startEnabled s then .next (startRun s) else .refused .startWhileBusy := by
  simp [step, blockStep, hr, hc, startCommand]

theorem startRun_prev (s : State) : (startRun s).prev = ⟨0, 0, 0, 255⟩ := by
  rcases startRun_cases s with ⟨h, -⟩ | ⟨h, -⟩ | h <;> rw [h] <;> rfl

/-- START of a decode leaves the header registers free (R35). -/
theorem startRun_dec {s : State} (hm : s.cfgMode = 1) : startRun s = setPhase .hdr (freeHeader (runInit s)) := by
  unfold startRun
  rw [hm]
  rfl

/-- START of an encode loads the header registers from the ports, and judges the layout among them (R35, R200). -/
theorem startRun_enc {s : State} (hm : s.cfgMode = 0) :
    startRun s = if legalChannels s.cfgChannels then setPhase .hdr { loadPorts (runInit s) with ch := s.cfgChannels }
      else raise .eCfgChannels (freeChannels (loadPorts (runInit s))) := by
  unfold startRun
  rw [hm]
  rfl

theorem runInit_mode (s : State) : (runInit s).mode = modeOfBit s.cfgMode := rfl

/-- The registers an encode's START loads in either layout (R35). -/
theorem startRun_enc_ports {s : State} (hm : s.cfgMode = 0) :
    (startRun s).mode = .enc ∧ (startRun s).w = s.cfgWidth ∧ (startRun s).h = s.cfgHeight ∧
      (startRun s).cs = s.cfgColorspace.zeroExtend 8 := by
  have hmode : (runInit s).mode = .enc := by rw [runInit_mode, hm]; rfl
  rw [startRun_enc hm]
  split <;> exact ⟨hmode, rfl, rfl, rfl⟩

/-- Settles O36: the fields of the one state START gives, the ports' layout deciding between HDR and the fault. -/
theorem startInitialisesTheRun : Obligations.StartInitialisesTheRun := by
  intro s hr hc hp
  obtain ⟨hrun, hnpx, hipos, hopos, -⟩ := startRun_fresh s
  refine ⟨startRun s, by rw [step_start hr hc, if_pos (startEnabled_iff.mpr hp)], fun i => ?_, startRun_prev s, hrun,
    hnpx, hipos, hopos, fun hm => ?_, fun hm => ?_⟩
  · rw [startRun_cache]
    exact cacheRead_cacheClear i
  · have hmode : (runInit s).mode = .dec := by rw [runInit_mode, hm]; rfl
    rw [startRun_dec hm]
    exact ⟨hmode, rfl, rfl⟩
  · obtain ⟨hmode, hw, hh, hcs⟩ := startRun_enc_ports hm
    refine ⟨hmode, hw, hh, hcs, ?_⟩
    rw [startRun_enc hm]
    split
    · next hl => rw [if_pos (legalChannels_iff.mpr hl)]; exact ⟨rfl, rfl, rfl⟩
    · next hl => rw [if_neg (mt legalChannels_iff.mp hl)]; exact ⟨rfl, rfl⟩

/-- Settles O37: START is not enabled in a busy phase. -/
theorem startWhileBusyIsRefused : Obligations.StartWhileBusyIsRefused := by
  intro s hr hc hp
  rw [step_start hr hc, if_neg]
  rw [startEnabled_iff]
  rcases hp with hp | hp | hp <;> simp [hp]

/-! ### The record the step runs (R201, R202) -/

/-- Settles O6: the record decoded at the stream position is the record fetched. -/
theorem stepRunsTheFetchedRecord : Obligations.StepRunsTheFetchedRecord := by
  intro s p i rest hu hm hp hd
  rw [step_dec hu.1 hu.2 hm, decoderStep_of_fetchAt hp (fetchAt_eq_ok.mpr ⟨rest, hd⟩)]

/-- Settles O8: the encoder's step in the two phases of the positional records. -/
theorem encoderRunsHeaderAndEnd : Obligations.EncoderRunsHeaderAndEnd := by
  intro s hu hm
  rw [step_enc hu.1 hu.2 hm, encoderStep]
  exact ⟨fun hp => by rw [hp], fun hp => by rw [hp]⟩

/-! ### Where no step is enabled (R201, R202, R204; assumption log 9) -/

/-- Without reset or START a waiting block keeps its state. -/
theorem step_of_waits {s : State} (hu : Undisturbed s) (hw : Waits s) : step s = .next s :=
  (step_eq_next_of_undisturbed hu).mpr (.waits hw)

theorem phasePosition_eq_none {q : Phase} : phasePosition q = none ↔ q = .idle ∨ q = .done ∨ q = .err := by
  cases q <;> simp [phasePosition]

/-- Settles O39: outside a run the block waits. -/
theorem nothingRunsOutsideARun : Obligations.NothingRunsOutsideARun := by
  intro s hu
  have hkeep (hp : s.phase = .idle ∨ s.phase = .done ∨ s.phase = .err) : step s = .next s :=
    step_of_waits hu (.inl (phasePosition_eq_none.mpr hp))
  exact ⟨fun hp => hkeep (hp.imp_right .inl), fun hp => ⟨s, hkeep (.inr (.inr hp)), hp, rfl⟩⟩

/-- A raw pixel takes all its bytes (R161). -/
theorem length_le_of_pixelOfBytes {ch : BitVec 8} (hl : legalChannels ch = true) {l : List Byte} {px : Pixel}
    (hn : pixelOfBytes ch l = some px) : ch.toNat ≤ l.length := by
  obtain ⟨bs, hb, hlen⟩ := pixelBytes_of_legal hl px
  rw [← hlen, ← take_of_pixelOfBytes hl hn hb]
  exact List.length_take_le' ..

/-- Fewer bytes than the next pixel needs give no pixel (R61, R161). -/
theorem nextPixel_eq_none_of_short {s : State} (hl : legalChannels s.ch = true)
    (h : s.pixin.length < (s.npx.toNat + 1) * s.ch.toNat) : nextPixel s = none := by
  cases hn : nextPixel s with
  | none => rfl
  | some px =>
    have hlen := length_le_of_pixelOfBytes hl hn
    have hpos : 0 < s.ch.toNat := by rcases legalChannels_iff.mp hl with hc | hc <;> rw [hc] <;> decide
    rw [List.length_drop] at hlen
    rw [Nat.succ_mul] at h
    omega

/-- Settles O32: an encode that is offered no pixel waits. -/
theorem encoderWaitsWithoutAPixel : Obligations.EncoderWaitsWithoutAPixel := by
  intro s hu ⟨hm, hp⟩ hlayout hshort
  have hl := legalChannels_iff.mpr hlayout
  exact step_of_waits hu (.inr ⟨hm, hp, hl, nextPixel_eq_none_of_short hl hshort⟩)

/-! ### The sequencer always answers (R201, R202) -/

/-- With the registers in range, the encoder always has a move. -/
theorem exists_move_enc {s : State} (hc : ControlInv s) (hm : s.mode = .enc) : ∃ t, Move s t := by
  cases hp : s.phase with
  | hdr => exact ⟨_, .writesHeader hm hp⟩
  | body =>
    have hl := (hc.inBody hp).1
    cases hn : nextPixel s with
    | none => exact ⟨s, .waits (.inr ⟨hm, hp, hl, hn⟩)⟩
    | some px => exact ⟨_, .takesPixel hm hp hl hn⟩
  | trailer => exact ⟨_, .writesEnd hm hp⟩
  | idle | done | err => exact ⟨s, .waits (.inl (by rw [hp]; rfl))⟩

/-- Settles O50: a move of either mode is a step. -/
theorem sequencerNeverStops : Obligations.SequencerNeverStops := by
  intro s hc hu
  have hmove : ∃ t, Move s t := by
    cases hm : s.mode with
    | dec => exact exists_move_dec hc hm
    | enc => exact exists_move_enc hc hm
  exact hmove.imp fun t => (step_eq_next_of_undisturbed hu).mpr

/-! ### The order of the phases (R203) -/

/-- The phases a step without reset or START may lead to (R203). -/
def PhaseFollows (p q : Phase) : Prop :=
  match p with
  | .idle => q = .idle
  | .hdr => q = .body ∨ q = .trailer ∨ q = .err
  | .body => q = .body ∨ q = .trailer ∨ q = .err
  | .trailer => q = .done ∨ q = .err
  | .done => q = .done
  | .err => q = .err

/-- A fault is taken in a busy phase, and each of them may lead to ERR (R203). -/
theorem DecodeFault.phaseFollows {s : State} {c : Cause} (h : DecodeFault s c) : PhaseFollows s.phase .err := by
  cases h with
  | @recordMissing p _ hp hf =>
    rw [phasePosition_eq_some.mp hp]
    cases p <;> simp [PhaseFollows, positionPhase]
  | channels hp | colorspace hp | overshoot hp => simp [PhaseFollows, hp]

/-- A block that waits stays in its phase. -/
theorem Waits.phaseFollows {s : State} (h : Waits s) : PhaseFollows s.phase s.phase := by
  rcases h with h | ⟨-, hp, -⟩
  · rcases phasePosition_eq_none.mp h with hp | hp | hp <;> simp [PhaseFollows, hp]
  · simp [PhaseFollows, hp]

/-- HEADER leads to BODY or TRAILER (R110, R111). -/
theorem phaseFollows_bodyPhase (s : State) : PhaseFollows .hdr (bodyPhase s) :=
  (bodyPhase_cases s).imp And.left fun h => .inl h.1

/-- Each move follows the order of the phases. -/
theorem Move.phaseFollows {s t : State} (h : Move s t) : PhaseFollows s.phase t.phase := by
  cases h with
  | waits hw => exact hw.phaseFollows
  | faults hm hf => exact hf.phaseFollows
  | readsHeader hm hp | writesHeader hm hp =>
    rw [hp]
    exact phaseFollows_bodyPhase _
  | readsChunk hm hp hf ho hb =>
    rw [chunkDone_phase, hp]
    split <;> simp [PhaseFollows]
  | takesPixel hm hp hl hn =>
    rw [hp]
    exact (pixelDone_phase _ s).imp (·.trans hp) .inl
  | readsEnd hm hp | writesEnd hm hp =>
    rw [hp]
    exact .inl rfl

/-- Settles O44: a START leaves IDLE, DONE or ERR for HDR or ERR, and every other step is a move. -/
theorem phasesFollowTheOrder : Obligations.PhasesFollowTheOrder := by
  intro s t hr hst
  split
  · next hc =>
    rcases step_cases hst with ⟨hr', -⟩ | ⟨-, -, he, rfl⟩ | ⟨-, hc', -⟩
    · cases hr.symm.trans hr'
    · exact ⟨startEnabled_iff.mp he, (startRun_phase s).imp And.left And.left⟩
    · cases hc.symm.trans hc'
  · next hc => exact ((step_eq_next_of_undisturbed ⟨hr, by simpa using hc⟩).mp hst).phaseFollows

end Sys2Proof.Machine

/-! SUPPORT. The statements of 60_exceptions.md: a step ends in ERR by raising a fault of the decode, and in no other way
(rules R220, R222, R225, R231). -/

namespace Sys2Proof.Machine

open Sys2Proof

/-! ### The fault entry (R222) -/

/-- The fault entry leaves the registers, the stream position and the cache (R222). -/
theorem faulted_raise (c : Cause) (s : State) : Faulted (causeCode c) s (raise c s) := by simp [Faulted]

/-- In ERR a state is what a fault leaves of itself. -/
theorem faulted_self {s : State} (hp : s.phase = .err) : Faulted s.errCause s s := by simp [Faulted, hp]

theorem causeCode_pos (c : Cause) : 1 ≤ (causeCode c).toNat := by cases c <;> decide

/-! ### The moves that enter ERR (R220, R231) -/

/-- A pixel taken in BODY leads to no fault (R160). -/
theorem pixelDone_phase_ne_err {s : State} (hp : s.phase = .body) (px : Pixel) : (pixelDone px s).phase ≠ .err := by
  rcases pixelDone_phase px s with h | h <;> simp [h, hp]

/-- Only a fault of a decode enters ERR. -/
theorem Move.raises {s t : State} (h : Move s t) (hs : s.phase ≠ .err) (ht : t.phase = .err) :
    s.mode = .dec ∧ ∃ c, DecodeFault s c ∧ t = raise c s := by
  cases h with
  | waits hw => exact absurd ht hs
  | faults hm hf => exact ⟨hm, _, hf, rfl⟩
  | readsHeader _ hp | writesHeader _ hp => exact absurd ht (bodyPhase_ne_err _)
  | readsChunk _ hp => exact absurd ht (chunkDone_phase_ne_err hp _ _ _ _ _)
  | takesPixel _ hp => exact absurd ht (pixelDone_phase_ne_err hp _)
  | readsEnd | writesEnd => cases ht

/-- The fault entry alone writes `err_cause` (R27). -/
theorem Move.errCause_eq {s t : State} (h : Move s t) (ht : t.phase ≠ .err) : t.errCause = s.errCause := by
  cases h with
  | faults hm hf => exact absurd rfl ht
  | readsChunk hm hp hf ho hb => simp [chunkDone_frame]
  | takesPixel hm hp hl hn => exact (pixelFrame_pixelDone _ s).errCause
  | waits | readsHeader | readsEnd | writesHeader | writesEnd => rfl

/-! ### The statements -/

/-- Settles O7: the missing record is one of the decode's faults. -/
theorem stepTakesTheFetchFault : Obligations.StepTakesTheFetchFault :=
  fun _ _ _ => step_faulted_of_decodeAt

/-- Settles O42: the step raised a fault of the decode, and the step after it waits in ERR. -/
theorem faultingStepCommitsNothing : Obligations.FaultingStepCommitsNothing := by
  intro s t hu hs hst ht
  have hmove := (step_eq_next_of_undisturbed hu).mp hst
  obtain ⟨-, c, hf, rfl⟩ := hmove.raises hs ht
  have hwaits : step (raise c s) = .next (raise c s) := step_of_waits hu (.inl rfl)
  exact ⟨faulted_raise c s, causeCode_pos c, hf.code_le, hmove.hostSideSame, rfl, rfl, _, hwaits, faulted_self ht⟩

/-- Settles O43: a move that enters ERR is a decode's, and no other move writes `err_cause`. -/
theorem encoderStepsRaiseNoFault : Obligations.EncoderStepsRaiseNoFault := by
  intro s t hu hm hs hst
  have hmove := (step_eq_next_of_undisturbed hu).mp hst
  have ht : t.phase ≠ .err := fun ht => by cases hm.symm.trans (hmove.raises hs ht).1
  exact ⟨ht, hmove.errCause_eq ht⟩

end Sys2Proof.Machine

/-! SUPPORT. The statement of 70_reset_and_hazards.md on the cache hazard (rule R253): what a step has stored is what the
very next INDEX, or the very next lookup, finds. -/

namespace Sys2Proof.Machine

open Sys2Proof

/-! ### The decoder: a chunk, then INDEX (R53, R54) -/

/-- A chunk's pixels by the format and by the decoder's commit (R9, R90). -/
theorem chunkPixels_eq_readCount {i : Instr} (hi : positionOf i = .chunk) : chunkPixels i = readCount i := by
  cases i with
  | header w h c cs => cases hi
  | endMarker => cases hi
  | _ => rfl

/-- Every kind but INDEX writes the cache (R139). -/
theorem readWrites_of_ne_index {i : Instr} (h : ∀ idx, i ≠ .index idx) : readWrites i = true := by
  cases i with
  | index idx => exact absurd rfl (h idx)
  | _ => rfl

/-- A chunk that is not the last answers a state still readable and with a pixel owed; every kind but INDEX leaves its
pixel in `prev` and in the slot of `prev` (R53, R54, R139). -/
theorem exec_stores_prev {i : Instr} {s : State} (hi : positionOf i = .chunk) (hx : ∀ idx, i ≠ .index idx)
    (hs : ChunkReadable s) (hc : Memory.wf s.cache = true) (hn : s.npx.toNat + readCount i < target s) :
    ∃ t, exec i s = .next t ∧ ChunkReadable t ∧ t.npx.toNat < target t ∧ t.prev = readPixel i s ∧
      cacheRead t.cache (hash t.prev) = t.prev := by
  have hexec := exec_chunk_of_le hi hs hn.le
  obtain ⟨hm, -, hl⟩ := hs
  refine ⟨_, hexec, ⟨hm, if_neg hn.ne, hl⟩, ?_, rfl, ?_⟩
  · exact (npx_add_toNat hn.le).trans_lt hn
  · rw [readWrites_of_ne_index hx, if_pos rfl]
    exact cacheRead_cacheWrite_self _ _ _ hc

/-- INDEX of the slot of `prev`, where that slot holds `prev`, keeps `prev` and the cache (R135). -/
theorem exec_index_of_prev_cached {t : State} (ht : ChunkReadable t) (hn : t.npx.toNat < target t)
    (hc : cacheRead t.cache (hash t.prev) = t.prev) :
    ∃ u, exec (.index (hash t.prev)) t = .next u ∧ u.prev = t.prev ∧ u.cache = t.cache :=
  ⟨_, exec_single_of_lt rfl rfl hc ht hn, rfl, rfl⟩

/-! ### The encoder: a pixel, then its lookup (R62, R164) -/

/-- The flush of a pending run keeps the canonical form (R163). -/
theorem flushed_wf {s : State} (hc : Memory.wf s.cache = true) : Memory.wf (flushed s).cache = true := by
  rw [flushed_cache]
  split
  · exact cacheWrite_wf _ _ _ hc
  · exact hc

/-- A pixel that differs from `prev` is found by the lookup after its step (R164). -/
theorem hit_pixelDone_of_ne {px : Pixel} {s : State} (hc : Memory.wf s.cache = true) (hne : px ≠ s.prev) :
    hit (pixelDone px s) px = true := by
  rw [hit_iff, pixelDone_of_ne hne]
  exact cacheRead_lookupWrite (flushed_wf hc) px

/-! ### The statement (R253) -/

/-- Settles O23: a committed chunk leaves its pixel in `prev` and in the slot that INDEX then reads, and the encoder's
lookup leaves the pixel in the slot that the next lookup reads. -/
theorem nextIndexFetchesTheStoredPixel : Obligations.NextIndexFetchesTheStoredPixel := by
  refine ⟨fun i s hi hx hs hc hn => ?_, fun s px hu hs hl hc hpx hne => ?_⟩
  · rw [chunkPixels_eq_readCount hi] at hn
    obtain ⟨t, hexec, ht, htn, hprev, hslot⟩ := exec_stores_prev hi hx hs hc hn
    obtain ⟨u, hindex, huprev, hucache⟩ := exec_index_of_prev_cached ht htn hslot
    obtain ⟨-, hphase, -⟩ := ht
    refine ⟨t, u, hexec, hphase, hindex, huprev, hucache, fun r g b a hrgba => ?_⟩
    rw [hprev, hrgba, readPixel]
  · exact ⟨_, step_takes_pixel hu hs (legalChannels_iff.mpr hl) hpx, pixelDone_prev px s, hit_pixelDone_of_ne hc hne⟩

end Sys2Proof.Machine
